-- ==== Sys2Proof/Word.lean ====
section
/-! DEFINITION. The bit-vector types BPE11 uses, under the spec's names for them. -/

namespace Sys2Proof

/-- One byte of BUF, of a word key, or of the digest (spec/00_scope.md R10). -/
abbrev Byte := BitVec 8

/-- A 32-bit command word or window register (spec/30_encoding.md R90, spec/10_state.md R36). -/
abbrev Word32 := BitVec 32

/-- A word index: an integer in 0..2047, exactly 11 bits (spec/00_scope.md R6 `IW`, R13). -/
abbrev Index := BitVec 11

/-- The value type Word: the byte sequence of one word-list string. That its length is 1..WMAX is a premise
stated where it is needed (spec/00_scope.md R12, spec/20_memory.md R71). -/
abbrev WlWord := List Byte

end Sys2Proof
end

