-- ==== Sys2Proof/Syntax.lean ====
section
/-! DEFINITION. The thirteen commands of BPE11, one constructor per row of spec/opcode_table.json. -/

namespace Sys2Proof

/-- A command. Lengths, positions and addresses are naturals, as the pseudocode computes with them
(spec/00_scope.md R11); that each fits its field is `Instr.wellFormed` (spec/30_encoding.md R101). INDEX and DATA,
which the commands take apart into bits, are bit vectors of their field's width. -/
inductive Instr where
  /-- NOP: no effect (R180). -/
  | nop
  /-- CLR n: zero BUF and set LEN (R130). -/
  | clr (n : Nat)
  /-- BITAT pos: read one bit (R110). -/
  | bitat (pos : Nat)
  /-- SETBIT pos: set one bit (R111). -/
  | setbit (pos : Nat)
  /-- RDIDX wpos: read an 11-bit field (R112). -/
  | rdidx (wpos : Nat)
  /-- WRIDX wpos, index: OR an 11-bit value into a field (R113). -/
  | wridx (wpos : Nat) (index : Index)
  /-- RDBYTE addr: read one byte (R131). -/
  | rdbyte (addr : Nat)
  /-- WRBYTE addr, data: overwrite one byte (R132). -/
  | wrbyte (addr : Nat) (data : Byte)
  /-- ENCSETUP n: validate, append the checksum byte, count words (R140). -/
  | encsetup (n : Nat)
  /-- ENCW wpos: extract an index and look its word up (R141). -/
  | encw (wpos : Nat)
  /-- DECSETUP n: size and zero BUF for n words (R160). -/
  | decsetup (n : Nat)
  /-- DECW wpos: look the key up and OR its index into a field (R161). -/
  | decw (wpos : Nat)
  /-- CLRERR: clear the error record and OVR (R181). -/
  | clrerr
  deriving DecidableEq, Repr

/-- The row of the opcode map a command stands for, by its mnemonic (spec/30_encoding.md R95). -/
def Instr.mnemonic : Instr → String
  | .nop => "NOP"
  | .clr _ => "CLR"
  | .bitat _ => "BITAT"
  | .setbit _ => "SETBIT"
  | .rdidx _ => "RDIDX"
  | .wridx _ _ => "WRIDX"
  | .rdbyte _ => "RDBYTE"
  | .wrbyte _ _ => "WRBYTE"
  | .encsetup _ => "ENCSETUP"
  | .encw _ => "ENCW"
  | .decsetup _ => "DECSETUP"
  | .decw _ => "DECW"
  | .clrerr => "CLRERR"

/-- A row of the opcode map: the word c is this row's command iff c &&& mask = match (spec/30_encoding.md R95). -/
structure OpcodeRow where
  mnemonic : String
  pattern : Word32
  mask : Word32
  deriving DecidableEq, Repr

end Sys2Proof
end

