-- ==== Sys2Proof/WellFormed.lean ====
section
/-! DEFINITION. Which commands have an encoding: every operand fits its field (spec/30_encoding.md R101: "An assembler
must refuse an operand that does not fit its field"). INDEX < 2^11 and DATA < 2^8 hold by their types. -/

namespace Sys2Proof

/-- The operand ranges of R100 and R101: N < 2^16, POS < 2^9, WPOS < 2^8, ADDR < 2^8. -/
def Instr.wellFormed : Instr → Bool
  | .nop => true
  | .clr n => decide (n < 2 ^ 16)
  | .bitat pos => decide (pos < 2 ^ 9)
  | .setbit pos => decide (pos < 2 ^ 9)
  | .rdidx wpos => decide (wpos < 2 ^ 8)
  | .wridx wpos _ => decide (wpos < 2 ^ 8)
  | .rdbyte addr => decide (addr < 2 ^ 8)
  | .wrbyte addr _ => decide (addr < 2 ^ 8)
  | .encsetup n => decide (n < 2 ^ 16)
  | .encw wpos => decide (wpos < 2 ^ 8)
  | .decsetup n => decide (n < 2 ^ 16)
  | .decw wpos => decide (wpos < 2 ^ 8)
  | .clrerr => true

end Sys2Proof
end

