-- ==== Sys2Proof/Decode.lean ====
section
/-! DEFINITION. The decoder, total on every 32-bit word (spec/30_encoding.md R99), the encoder (R92, R100), and the
opcode map (R95). The spec has no instruction byte order (spec/20_memory.md R69): a command is one 32-bit word. -/

namespace Sys2Proof

/-- Why a word selects no command. Both execute as ILLEGAL_COMMAND (spec/60_exceptions.md R202). -/
inductive Illegal where
  /-- OP is 0xC, 0xD or 0xE (spec/30_encoding.md R96). -/
  | reservedOpcode
  /-- OP is assigned and a Z bit is set (spec/30_encoding.md R97). -/
  | reservedBits
  deriving DecidableEq, Repr

/-! ### Fields (R93: every operand is an unsigned number taken as is) -/

/-- OP = cmd[31:28] (R91). -/
def opField (c : Word32) : BitVec 4 := c.extractLsb' 28 4

/-- N = cmd[15:0], format L. -/
def nField (c : Word32) : Nat := (c.extractLsb' 0 16).toNat

/-- POS = cmd[8:0], format P. -/
def posField (c : Word32) : Nat := (c.extractLsb' 0 9).toNat

/-- cmd[23:16]: WPOS of formats W and WI, ADDR of formats A and B. -/
def byteOperandField (c : Word32) : Nat := (c.extractLsb' 16 8).toNat

/-- INDEX = cmd[10:0], format WI. -/
def indexField (c : Word32) : Index := c.extractLsb' 0 11

/-- DATA = cmd[7:0], format B. -/
def dataField (c : Word32) : Byte := c.extractLsb' 0 8

/-! ### The Z bits of each format (R92) -/

/-- Format N: bits 27:0 are Z. -/
def zBitsN (c : Word32) : Bool := c.extractLsb' 0 28 == 0

/-- Format L: bits 27:16 are Z. -/
def zBitsL (c : Word32) : Bool := c.extractLsb' 16 12 == 0

/-- Format P: bits 27:9 are Z. -/
def zBitsP (c : Word32) : Bool := c.extractLsb' 9 19 == 0

/-- Formats W and A: bits 27:24 and 15:0 are Z. -/
def zBitsW (c : Word32) : Bool := c.extractLsb' 24 4 == 0 && c.extractLsb' 0 16 == 0

/-- Format WI: bits 27:24 and 15:11 are Z. -/
def zBitsWI (c : Word32) : Bool := c.extractLsb' 24 4 == 0 && c.extractLsb' 11 5 == 0

/-- Format B: bits 27:24 and 15:8 are Z. -/
def zBitsB (c : Word32) : Bool := c.extractLsb' 24 4 == 0 && c.extractLsb' 8 8 == 0

/-- A command whose Z bits are all 0, or the reason it is illegal (R97). -/
def whenZ (z : Bool) (i : Instr) : Except Illegal Instr :=
  if z then .ok i else .error .reservedBits

/-- decode(c) of R99. -/
def decode (c : Word32) : Except Illegal Instr :=
  match (opField c).toNat with
  | 0x0 => whenZ (zBitsN c) .nop
  | 0x1 => whenZ (zBitsL c) (.clr (nField c))
  | 0x2 => whenZ (zBitsP c) (.bitat (posField c))
  | 0x3 => whenZ (zBitsP c) (.setbit (posField c))
  | 0x4 => whenZ (zBitsW c) (.rdidx (byteOperandField c))
  | 0x5 => whenZ (zBitsWI c) (.wridx (byteOperandField c) (indexField c))
  | 0x6 => whenZ (zBitsW c) (.rdbyte (byteOperandField c))
  | 0x7 => whenZ (zBitsB c) (.wrbyte (byteOperandField c) (dataField c))
  | 0x8 => whenZ (zBitsL c) (.encsetup (nField c))
  | 0x9 => whenZ (zBitsW c) (.encw (byteOperandField c))
  | 0xA => whenZ (zBitsL c) (.decsetup (nField c))
  | 0xB => whenZ (zBitsW c) (.decw (byteOperandField c))
  | 0xF => whenZ (zBitsN c) .clrerr
  | _ => .error .reservedOpcode

/-! ### The encoder, laid out field by field as the formats of R92 -/

/-- Format N: OP, 28 Z bits. -/
def formatN (op : BitVec 4) : Word32 := op ++ 0#28

/-- Format L: OP, 12 Z bits, N. -/
def formatL (op : BitVec 4) (n : Nat) : Word32 := op ++ 0#12 ++ BitVec.ofNat 16 n

/-- Format P: OP, 19 Z bits, POS. -/
def formatP (op : BitVec 4) (pos : Nat) : Word32 := op ++ 0#19 ++ BitVec.ofNat 9 pos

/-- Formats W and A: OP, 4 Z bits, the byte operand, 16 Z bits. -/
def formatW (op : BitVec 4) (w : Nat) : Word32 := op ++ 0#4 ++ BitVec.ofNat 8 w ++ 0#16

/-- Format WI: OP, 4 Z bits, WPOS, 5 Z bits, INDEX. -/
def formatWI (op : BitVec 4) (w : Nat) (i : Index) : Word32 :=
  op ++ 0#4 ++ BitVec.ofNat 8 w ++ 0#5 ++ i

/-- Format B: OP, 4 Z bits, ADDR, 8 Z bits, DATA. -/
def formatB (op : BitVec 4) (a : Nat) (d : Byte) : Word32 :=
  op ++ 0#4 ++ BitVec.ofNat 8 a ++ 0#8 ++ d

/-- enc of R100. It is meant for well-formed commands: an operand that does not fit is for `assemble` to refuse. -/
def encode : Instr → Word32
  | .nop => formatN 0x0
  | .clr n => formatL 0x1 n
  | .bitat pos => formatP 0x2 pos
  | .setbit pos => formatP 0x3 pos
  | .rdidx w => formatW 0x4 w
  | .wridx w i => formatWI 0x5 w i
  | .rdbyte a => formatW 0x6 a
  | .wrbyte a d => formatB 0x7 a d
  | .encsetup n => formatL 0x8 n
  | .encw w => formatW 0x9 w
  | .decsetup n => formatL 0xA n
  | .decw w => formatW 0xB w
  | .clrerr => formatN 0xF

/-- An assembler refuses an operand that does not fit its field, and never truncates (R101). -/
def assemble (i : Instr) : Option Word32 :=
  if i.wellFormed then some (encode i) else none

/-- The opcode map of R95, row by row. -/
def opcodeMap : List OpcodeRow :=
  [⟨"NOP", 0x00000000, 0xFFFFFFFF⟩, ⟨"CLR", 0x10000000, 0xFFFF0000⟩,
   ⟨"BITAT", 0x20000000, 0xFFFFFE00⟩, ⟨"SETBIT", 0x30000000, 0xFFFFFE00⟩,
   ⟨"RDIDX", 0x40000000, 0xFF00FFFF⟩, ⟨"WRIDX", 0x50000000, 0xFF00F800⟩,
   ⟨"RDBYTE", 0x60000000, 0xFF00FFFF⟩, ⟨"WRBYTE", 0x70000000, 0xFF00FF00⟩,
   ⟨"ENCSETUP", 0x80000000, 0xFFFF0000⟩, ⟨"ENCW", 0x90000000, 0xFF00FFFF⟩,
   ⟨"DECSETUP", 0xA0000000, 0xFFFF0000⟩, ⟨"DECW", 0xB0000000, 0xFF00FFFF⟩,
   ⟨"CLRERR", 0xF0000000, 0xFFFFFFFF⟩]

/-- Whether the word c selects the row (R95). -/
def OpcodeRow.selects (r : OpcodeRow) (c : Word32) : Bool := c &&& r.mask == r.pattern

/-- The 32-bit word whose bits are w, of which the table gives nbits; the bits above are 0. Bit 0 is the least
significant (spec/00_scope.md R8). -/
def tableWord (nbits w : Nat) : Word32 := BitVec.ofNat 32 (w % 2 ^ nbits)

/-- What the decoder reads from a word numbered as spec/opcode_table.json numbers it; none where it is illegal, and
none for an nbits that is no command length (R90). -/
def decodeTableWord (nbits w : Nat) : Option Instr :=
  if nbits ≤ 32 then (decode (tableWord nbits w)).toOption else none

end Sys2Proof
end

