-- ==== Sys2Proof/Config.lean ====
section
/-! DEFINITION. What fixes a BPE11 instance (spec/00_scope.md R6) and the one family of values the spec leaves open. -/

namespace Sys2Proof

/-- The parameters of an instance. An instance is one value of this type; it stands in State so that every claim
about every state is a claim about every instance (log entry 1). -/
structure Params where
  /-- BUF_BYTES, bytes in BUF. -/
  bufBytes : Nat
  /-- WMAX, the longest word in bytes that WIN and WOUT hold. -/
  wmax : Nat
  deriving DecidableEq, Repr

/-- The ranges of R6: 33 ≤ BUF_BYTES ≤ 64 and 1 ≤ WMAX ≤ 64. -/
abbrev Params.wf (p : Params) : Prop :=
  33 ≤ p.bufBytes ∧ p.bufBytes ≤ 64 ∧ 1 ≤ p.wmax ∧ p.wmax ≤ 64

/-- The instance State.reset is of: R6's default BUF_BYTES, and WMAX = 8.
DESIGN CHOICE (log entry 1, unsafe): R6 leaves WMAX open; 8 is what spec/95_test_vectors.md's programs take. -/
def Params.default : Params := ⟨33, 8⟩

/-- Entries of the word list, NWL (R6). -/
def Config.nwl : Nat := 2048

/-- The value a read of a register in the list of R55 returns while BUSY = 1, by the number of such reads
before it: a free draw (spec/10_state.md R55; log entry 6, safe). It has no body, so nothing is provable of it. -/
opaque Config.freeRead : Nat → Word32

end Sys2Proof
end

