-- ==== Sys2Proof/Machine/State.lean ====
section
/-! DEFINITION. The state of BPE11 and what surrounds it, its reset, and the reasons a step can stop. -/

namespace Sys2Proof.Machine

/-- Byte-addressed contents in canonical form: addresses strictly rising, no entry equal to 0x00, which is what an
unlisted address reads as (the spec's own reset contents of BUF, spec/10_state.md R54; log entry 12). -/
abbrev Memory := List Host.Cell

/-- The error codes of spec/60_exceptions.md R201 that a command can raise. -/
inductive ErrCode where
  | invalidEntropyLength
  | unknownWord
  | digestUnavailable
  | internalConsistency
  | illegalCommand
  | bounds
  | badWordCount
  | wlNotReady
  deriving DecidableEq, Repr

/-- The registers of the window (spec/10_state.md R36); `win j` and `wout j` are the j-th of 16. -/
inductive Reg where
  | cmd | status | result | errcode | errcmd | len | nwords | entlen
  | csinfo | digest0 | winlen | woutlen | param
  | win (j : Nat)
  | wout (j : Nat)
  | reserved
  deriving DecidableEq, Repr

/-- One access the host performs: its width in bits and its offset in the window (spec/20_memory.md R80). -/
inductive Access where
  | read (width offset : Nat)
  | write (width offset : Nat) (value : Word32)
  deriving DecidableEq, Repr

/-- What happens next from outside or by the engine's turn (spec/00_scope.md R15, spec/70_reset_and_hazards.md R230). -/
inductive Input where
  /-- The host performs an access. -/
  | host (a : Access)
  /-- The engine takes its turn: it completes the command in flight, if there is one (R200). -/
  | engine
  /-- RST is driven to this level (R230). -/
  | rst (level : Bool)
  deriving DecidableEq, Repr

/-- The machine. The fields `buf` to `woutlen` are the engine state of spec/10_state.md R20, each at its width; then
the levels and the store the spec places around the engine; last the model's own fields. -/
structure State where
  /-- BUF, the bit buffer (R23). -/
  buf : Memory
  /-- LEN, the active length of BUF in bytes (R24). -/
  len : BitVec 8
  /-- NWORDS, the word count (R25). -/
  nwords : BitVec 8
  /-- ENTLEN, the entropy length in bytes (R26). -/
  entlen : BitVec 8
  /-- CSLEN, the checksum length in bits (R27). -/
  cslen : BitVec 4
  /-- CSMASK, the checksum mask (R27). -/
  csmask : Byte
  /-- CHK, the checksum byte (R27). -/
  chk : Byte
  /-- DIGEST0, the first digest byte, from the host (R28). -/
  digest0 : Byte
  /-- DVALID, DIGEST0 holds a byte not yet consumed (R28). -/
  dvalid : Bool
  /-- RESULT (R29). -/
  result : Word32
  /-- ERR, an error is recorded (R30). -/
  err : Bool
  /-- ERRCODE, its code (R30, R201). -/
  errcode : BitVec 4
  /-- ERRCMD, the command word that raised it (R30). -/
  errcmd : Word32
  /-- OVR, a host write was dropped (R31). -/
  ovr : Bool
  /-- BUSY, a command is in flight (R32). -/
  busy : Bool
  /-- PEND, the command word in flight (R32). -/
  pend : Word32
  /-- WIN, WMAX key bytes (R33). -/
  win : List Byte
  /-- WINLEN, the key's length (R33). -/
  winlen : BitVec 7
  /-- WOUT, WMAX bytes of the word the ROM returned (R34). -/
  wout : List Byte
  /-- WOUTLEN, that word's length (R34). -/
  woutlen : BitVec 7
  /-- The level of RST (R230). -/
  rst : Bool
  /-- The level of WL_READY (R35); nothing changes it (R73). -/
  wlReady : Bool
  /-- WL: the words of the store by index (R71); nothing changes them (R71 (vi)). -/
  wl : List WlWord
  /-- BUF_BYTES and WMAX (R6); nothing changes them. -/
  params : Params
  /-- MODEL'S OWN: what happens next, first first; the host's place in its own list (R22). -/
  inputs : List Input
  /-- MODEL'S OWN: the values the host's reads returned, newest first (R80). -/
  reads : List Word32
  /-- MODEL'S OWN: how many free values have been drawn (R55). -/
  draws : Nat
  deriving DecidableEq, Repr

/-- Why the machine stops. -/
inductive Fault where
  /-- A command reached a BUF byte at or above BUF_BYTES, an address that does not exist (spec/20_memory.md R60).
  Raised by the commands that touch BUF, only in states with LEN > BUF_BYTES or BUF_BYTES < 33, which R24 and R6
  exclude. Safe (log entry 10). -/
  | bufAddress
  deriving DecidableEq, Repr

/-- What the model gives no meaning. -/
inductive Refusal where
  /-- Raised by an arm of exec that has no meaning yet; no arm of this model raises it. Safe. -/
  | notModelled (mnemonic : String)
  /-- Raised by a host access made while RST is asserted (spec/70_reset_and_hazards.md R230: "refused"). Safe. -/
  | accessUnderReset
  /-- Raised by a host access that is not 32 bits wide (spec/20_memory.md R80: "The model refuses"). Safe. -/
  | accessWidth
  /-- Raised by a host access beyond offset 0xFF (R80). Safe. -/
  | accessBeyondWindow
  /-- Raised by a host access at an offset that is no multiple of 4 (R80). Safe. -/
  | accessMisaligned
  /-- Raised by a host access to a reserved offset (spec/10_state.md R53: outside the admitted set, "refuse"). Safe. -/
  | reservedOffset
  /-- Raised by ENCW when WL_READY = 1 and the store's entry is missing, empty or longer than WMAX, against the
  premise of spec/20_memory.md R71. Safe (log entry 11). -/
  | wordListPremise
  deriving DecidableEq, Repr

/-- The outcome of a step. -/
abbrev Outcome := Host.Outcome State Fault Refusal

/-- The reset state of an instance p attached to a store with words wl and level ready of WL_READY: every engine
element at its value in spec/10_state.md R54, RST released, no access left (spec/70_reset_and_hazards.md R252). -/
def State.launch (p : Params) (wl : List WlWord) (ready : Bool) : State where
  buf := []
  len := 0
  nwords := 0
  entlen := 0
  cslen := 0
  csmask := 0
  chk := 0
  digest0 := 0
  dvalid := false
  result := 0
  err := false
  errcode := 0
  errcmd := 0
  ovr := false
  busy := false
  pend := 0
  win := List.replicate p.wmax 0
  winlen := 0
  wout := List.replicate p.wmax 0
  woutlen := 0
  rst := false
  wlReady := ready
  wl := wl
  params := p
  inputs := []
  reads := []
  draws := 0

/-- The machine right after reset: R54 on the instance of `Params.default`, with a store that is not loaded.
DESIGN CHOICE (log entries 2 and 3, unsafe): the spec gives WL_READY and the store no reset value. -/
def State.reset : State := State.launch Params.default [] false

end Sys2Proof.Machine
end

