-- ==== Sys2Proof/Machine/Ops.lean ====
section
/-! DEFINITION. The named operations over BUF and the registers: byte access (spec/20_memory.md R67), the four bit
primitives (R62 to R65), raising an error (spec/60_exceptions.md R203) and leaving the error state (R208), completion
(R200), and the reset of the engine elements (spec/70_reset_and_hazards.md R230). -/

namespace Sys2Proof.Machine

/-! ### Bytes -/

/-- `BUF[a]`, MemRead(a, 1) of R67: the listed byte, or 0x00. -/
def Memory.read : Memory → Nat → Byte
  | [], _ => 0
  | (b, v) :: m, a => if a = b then v else Memory.read m a

/-- Put v at a into a list of rising addresses, replacing what a held. -/
def Memory.insert : Memory → Nat → Byte → Memory
  | [], a, v => [(a, v)]
  | (b, u) :: m, a, v =>
    if a < b then (a, v) :: (b, u) :: m
    else if a = b then (a, v) :: m
    else (b, u) :: Memory.insert m a v

/-- Unlist the address a. -/
def Memory.erase (m : Memory) (a : Nat) : Memory := m.filter (fun c => c.1 != a)

/-- `BUF[a] <- v`, MemWrite(a, 1, v) of R67. Writing 0x00 unlists the address, so the form stays canonical. -/
def Memory.write (m : Memory) (a : Nat) (v : Byte) : Memory :=
  if v = 0 then Memory.erase m a else Memory.insert m a v

/-- The canonical form: addresses strictly rising, and no entry reads as an unlisted one does. -/
abbrev Memory.wf (m : Memory) : Prop :=
  m.Pairwise (fun c d => c.1 < d.1) ∧ ∀ c ∈ m, c.2 ≠ 0

/-- Every listed address exists in an array of n bytes (R60). -/
abbrev Memory.below (m : Memory) (n : Nat) : Prop := ∀ c ∈ m, c.1 < n

/-! ### The bit primitives -/

/-- The byte of stream position p (R61). -/
def posByte (p : Nat) : Nat := p / 8

/-- The bit number, in its byte, of stream position p (R61): 7 - p mod 8. -/
def posBit (p : Nat) : Nat := 7 - p % 8

/-- bitAt(p) of R62. -/
def bitAt (m : Memory) (p : Nat) : Bool := (m.read (posByte p)).getLsbD (posBit p)

/-- setBit(p) of R63: OR a 1 into one bit. -/
def setBit (m : Memory) (p : Nat) : Memory :=
  m.write (posByte p) (m.read (posByte p) ||| (1#8 <<< posBit p))

/-- readIndex(w) of R64, most significant bit first. -/
def readIndex (m : Memory) (w : Nat) : Index :=
  (List.range 11).foldl
    (fun acc k => (acc <<< 1) ||| (BitVec.ofBool (bitAt m (11 * w + k))).setWidth 11) 0

/-- writeIndex(w, idx) of R65: setBit for each 1 of idx, most significant bit first. -/
def writeIndex (m : Memory) (w : Nat) (idx : Index) : Memory :=
  (List.range 11).foldl
    (fun m k => if idx.getLsbD (10 - k) then setBit m (11 * w + k) else m) m

/-! ### Results, errors, completion -/

/-- RESULT <- v (spec/10_state.md R29). -/
def State.putResult (s : State) (v : Word32) : State := { s with result := v }

/-- BUF <- m. -/
def State.putBuf (s : State) (m : Memory) : State := { s with buf := m }

/-- The code of R201, as ERRCODE holds it. -/
def ErrCode.code : ErrCode → BitVec 4
  | .invalidEntropyLength => 1
  | .unknownWord => 2
  | .digestUnavailable => 3
  | .internalConsistency => 4
  | .illegalCommand => 5
  | .bounds => 6
  | .badWordCount => 7
  | .wlNotReady => 8

/-- Record an error: ERR <- 1, ERRCODE <- code, ERRCMD <- the command word in flight; nothing else
(spec/60_exceptions.md R203). -/
def State.recordError (s : State) (e : ErrCode) : State :=
  { s with err := true, errcode := e.code, errcmd := s.pend }

/-- `raise Error(code)`: BPE11's one way of taking an exception (R203, R207). The machine goes on. -/
def raise (s : State) (e : ErrCode) : Outcome := .next (s.recordError e)

/-- Leave the error state: the record and OVR go to 0 and nothing else changes (spec/44_control.md R181,
spec/60_exceptions.md R208). -/
def State.clearError (s : State) : State :=
  { s with err := false, errcode := 0, errcmd := 0, ovr := false }

/-- BUSY <- 0, the end of every command (R200). -/
def State.complete (s : State) : State := { s with busy := false }

/-- Go on with k if the highest BUF byte a command touches exists; a byte at or above BUF_BYTES does not
(spec/20_memory.md R60). A command calls it after its bound against LEN has passed (log entry 10). -/
def reach (s : State) (a : Nat) (k : Outcome) : Outcome :=
  if a < s.params.bufBytes then k else .fault .bufAddress

/-- Zero the whole of BUF and start an operation of the given length and counts, with no checksum: what CLR
(spec/41_buffer.md R130) and DECSETUP (spec/43_decoder.md R160) share. -/
def State.newBuffer (s : State) (len nwords entlen : Nat) : State :=
  { s with
    buf := []
    len := BitVec.ofNat 8 len
    nwords := BitVec.ofNat 8 nwords
    entlen := BitVec.ofNat 8 entlen
    cslen := 0
    csmask := 0
    chk := 0 }

/-! ### Reset and inputs -/

/-- Every engine element at its value of spec/10_state.md R54, with RST at the given level. The store, WL_READY and
the parameters are not reset (spec/70_reset_and_hazards.md R230), nor are the model's own fields. -/
def State.underReset (s : State) (level : Bool) : State :=
  { State.launch s.params s.wl s.wlReady with
    rst := level, inputs := s.inputs, reads := s.reads, draws := s.draws }

/-- What is left to happen. -/
def State.withInputs (s : State) (l : List Input) : State := { s with inputs := l }

/-- A host read returned v (spec/20_memory.md R80). -/
def State.pushRead (s : State) (v : Word32) : State := { s with reads := v :: s.reads }

end Sys2Proof.Machine
end

