-- ==== Sys2Proof/Machine/Operands.lean ====
section
/-! DEFINITION. The operand forms of the commands: the three bounds of spec/20_memory.md R66, the word key (spec/10_state.md
R33), and the word-list ports (spec/20_memory.md R72, R74). -/

namespace Sys2Proof.Machine

/-- A bit position p is in bounds iff p < 8*LEN (R66). -/
def posInBounds (s : State) (p : Nat) : Bool := decide (p < 8 * s.len.toNat)

/-- A word position w is in bounds iff 11*w + 11 ≤ 8*LEN (R66). -/
def wordInBounds (s : State) (w : Nat) : Bool := decide (11 * w + 11 ≤ 8 * s.len.toNat)

/-- A byte address a is in bounds iff a < LEN (R66). -/
def addrInBounds (s : State) (a : Nat) : Bool := decide (a < s.len.toNat)

/-- The highest byte that the field at word position w touches: the byte of its last position 11*w + 10 (R64). -/
def fieldLastByte (w : Nat) : Nat := posByte (11 * w + 10)

/-- The key WIN[0 .. WINLEN-1] when 1 ≤ WINLEN ≤ WMAX; otherwise there is no key (R33). -/
def wordKey (s : State) : Option WlWord :=
  if 1 ≤ s.winlen.toNat ∧ s.winlen.toNat ≤ s.params.wmax then some (s.win.take s.winlen.toNat) else none

/-- The ROM port (R72): WL.word(idx), where the store's entry is a Word of 1..WMAX bytes as R71 (ii) and (v) premise;
none where it is not. -/
def romWord (s : State) (idx : Index) : Option WlWord :=
  match s.wl[idx.toNat]? with
  | some w => if 1 ≤ w.length ∧ w.length ≤ s.params.wmax then some w else none
  | none => none

/-- The CAM port (R74): WL.indexOf(key) among the store's 2048 entries. For a store that R71 (i) admits the index is
the only one whose word is the key; for any other it is the least. -/
def camIndex (s : State) (key : WlWord) : Option Index :=
  ((s.wl.take Config.nwl).findIdx? (· == key)).map (BitVec.ofNat 11)

/-- The bytes of w laid into an array of n bytes, 0x00 above its length (spec/10_state.md R34). -/
def padded (n : Nat) (w : WlWord) : List Byte := (List.range n).map (fun k => w.getD k 0)

end Sys2Proof.Machine
end

