-- ==== Sys2Proof/Machine/Bitpack.lean ====
section
/-! DEFINITION. The bit-packing primitives as commands: BITAT, SETBIT, RDIDX, WRIDX (spec/40_bitpack.md). -/

namespace Sys2Proof.Machine

/-- BITAT (R110): RESULT <- the bit at stream position pos. -/
def execBitat (pos : Nat) (s : State) : Outcome :=
  if posInBounds s pos then
    reach s (posByte pos)
      (.next (s.putResult ((BitVec.ofBool (bitAt s.buf pos)).setWidth 32)))
  else raise s .bounds

/-- SETBIT (R111): set the bit at stream position pos; RESULT <- 0. -/
def execSetbit (pos : Nat) (s : State) : Outcome :=
  if posInBounds s pos then
    reach s (posByte pos) (.next ((s.putBuf (setBit s.buf pos)).putResult 0))
  else raise s .bounds

/-- RDIDX (R112): RESULT <- the 11-bit field at word position wpos. -/
def execRdidx (wpos : Nat) (s : State) : Outcome :=
  if wordInBounds s wpos then
    reach s (fieldLastByte wpos) (.next (s.putResult ((readIndex s.buf wpos).setWidth 32)))
  else raise s .bounds

/-- WRIDX (R113): OR index into the field at word position wpos; RESULT <- 0. -/
def execWridx (wpos : Nat) (index : Index) (s : State) : Outcome :=
  if wordInBounds s wpos then
    reach s (fieldLastByte wpos)
      (.next ((s.putBuf (writeIndex s.buf wpos index)).putResult 0))
  else raise s .bounds

end Sys2Proof.Machine
end

