-- ==== Sys2Proof/Machine/Buffer.lean ====
section
/-! DEFINITION. Buffer management: CLR, RDBYTE, WRBYTE (spec/41_buffer.md). -/

namespace Sys2Proof.Machine

/-- CLR (R130): zero the whole of BUF, LEN <- n, the counts and checksum fields go to 0, RESULT <- n. -/
def execClr (n : Nat) (s : State) : Outcome :=
  if n ≤ s.params.bufBytes then
    .next ((s.newBuffer n 0 0).putResult (BitVec.ofNat 32 n))
  else raise s .bounds

/-- RDBYTE (R131): RESULT <- BUF[addr]. -/
def execRdbyte (addr : Nat) (s : State) : Outcome :=
  if addrInBounds s addr then
    reach s addr (.next (s.putResult ((s.buf.read addr).setWidth 32)))
  else raise s .bounds

/-- WRBYTE (R132): BUF[addr] <- data, all eight bits; RESULT <- 0. -/
def execWrbyte (addr : Nat) (data : Byte) (s : State) : Outcome :=
  if addrInBounds s addr then
    reach s addr (.next ((s.putBuf (s.buf.write addr data)).putResult 0))
  else raise s .bounds

end Sys2Proof.Machine
end

