-- ==== Sys2Proof/Machine/Control.lean ====
section
/-! DEFINITION. The control commands NOP and CLRERR (spec/44_control.md). -/

namespace Sys2Proof.Machine

/-- NOP (R180): no effect; RESULT is kept. -/
def execNop (s : State) : Outcome := .next s

/-- CLRERR (R181): the error record and OVR go to 0; RESULT is kept. -/
def execClrerr (s : State) : Outcome := .next s.clearError

end Sys2Proof.Machine
end

