-- ==== Sys2Proof/Machine/Decoder.lean ====
section
/-! DEFINITION. The decoder commands DECSETUP and DECW (spec/43_decoder.md). -/

namespace Sys2Proof.Machine

/-- dataSize = ceil(11*n / 8), the bytes that n words take (R160, step 1; ceil as in spec/00_scope.md R10). -/
def dataSize (n : Nat) : Nat := (11 * n + 7) / 8

/-- DECSETUP (R160): zero BUF, size it for n words, RESULT <- ENTLEN. Both checks raise BAD_WORD_COUNT. -/
def execDecsetup (n : Nat) (s : State) : Outcome :=
  if n = 0 then raise s .badWordCount
  else if dataSize n > s.params.bufBytes then raise s .badWordCount
  else
    .next ((s.newBuffer (dataSize n) n (dataSize n - 1)).putResult
      (BitVec.ofNat 32 (dataSize n - 1)))

/-- DECW (R161): look the key up through the CAM port, then OR its index into the field at wpos. -/
def execDecw (wpos : Nat) (s : State) : Outcome :=
  if s.wlReady then
    match wordKey s with
    | none => raise s .unknownWord
    | some key =>
      match camIndex s key with
      | none => raise s .unknownWord
      | some idx =>
        if wordInBounds s wpos then
          reach s (fieldLastByte wpos)
            (.next ((s.putBuf (writeIndex s.buf wpos idx)).putResult (idx.setWidth 32)))
        else raise s .bounds
  else raise s .wlNotReady

end Sys2Proof.Machine
end

