-- ==== Sys2Proof/Machine/Flags.lean ====
section
/-! DEFINITION. The status flags and the packed views the host reads (spec/10_state.md R39, R46, R50), and the checksum
mask (spec/00_scope.md R7). BPE11 has no arithmetic flags: no command computes a carry, a zero or a sign. -/

namespace Sys2Proof.Machine

/-- STATUS (R39): bit 0 BUSY, 1 ERR, 2 OVR, 3 DVALID, 4 WLRDY, bits 31:5 zero. -/
def statusWord (s : State) : Word32 :=
  0#27 ++ BitVec.ofBool s.wlReady ++ BitVec.ofBool s.dvalid ++ BitVec.ofBool s.ovr
    ++ BitVec.ofBool s.err ++ BitVec.ofBool s.busy

/-- CSINFO (R46): [3:0] CSLEN, [7:4] 0, [15:8] CSMASK, [23:16] CHK, [31:24] 0. -/
def csinfoWord (s : State) : Word32 := 0#8 ++ s.chk ++ s.csmask ++ 0#4 ++ s.cslen

/-- PARAM (R50): [7:0] BUF_BYTES, [15:8] WMAX, [31:16] 0. -/
def paramWord (s : State) : Word32 :=
  0#16 ++ BitVec.ofNat 8 s.params.wmax ++ BitVec.ofNat 8 s.params.bufBytes

/-- Checksum length in bits, by entropy length in bits (R7): entropyBits / 32. -/
def checksumLength (entropyBits : Nat) : Nat := entropyBits / 32

/-- Checksum mask by entropy length in bits (R7); no other length has one. -/
def checksumMask (entropyBits : Nat) : Option Byte :=
  if entropyBits = 128 then some 0xF0
  else if entropyBits = 160 then some 0xF8
  else if entropyBits = 192 then some 0xFC
  else if entropyBits = 224 then some 0xFE
  else if entropyBits = 256 then some 0xFF
  else none

end Sys2Proof.Machine
end

