-- ==== Sys2Proof/Machine/Encoder.lean ====
section
/-! DEFINITION. The encoder commands ENCSETUP and ENCW (spec/42_encoder.md). -/

namespace Sys2Proof.Machine

/-- ENCSETUP's preconditions: N > 0, a multiple of 32 bits, 128 to 256 bits (R140). -/
def entropyLengthValid (n : Nat) : Bool :=
  decide (n > 0 ∧ (8 * n) % 32 = 0 ∧ 128 ≤ 8 * n ∧ 8 * n ≤ 256)

/-- Step 5: the word count (entropyBits + csLen) div 11 (R140). -/
def wordCount (entropyBits : Nat) : Nat := (entropyBits + checksumLength entropyBits) / 11

/-- The writes of a successful ENCSETUP n with the given mask (R140, steps 3 to 5). BUF[0..n-1] is untouched. -/
def State.appendChecksum (s : State) (n : Nat) (mask : Byte) : State :=
  { s with
    buf := s.buf.write n (s.digest0 &&& mask)
    len := BitVec.ofNat 8 (n + 1)
    entlen := BitVec.ofNat 8 n
    cslen := BitVec.ofNat 4 (checksumLength (8 * n))
    csmask := mask
    chk := s.digest0 &&& mask
    nwords := BitVec.ofNat 8 (wordCount (8 * n))
    dvalid := false
    result := BitVec.ofNat 32 (wordCount (8 * n)) }

/-- ENCSETUP (R140). The third branch, INTERNAL_CONSISTENCY, is never taken (spec/60_exceptions.md R217). -/
def execEncsetup (n : Nat) (s : State) : Outcome :=
  if entropyLengthValid n then
    match checksumMask (8 * n) with
    | some mask =>
      if s.dvalid then reach s n (.next (s.appendChecksum n mask))
      else raise s .digestUnavailable
    | none => raise s .internalConsistency
  else raise s .invalidEntropyLength

/-- WOUT and WOUTLEN take the word w (spec/10_state.md R34). -/
def State.putWout (s : State) (w : WlWord) : State :=
  { s with wout := padded s.params.wmax w, woutlen := BitVec.ofNat 7 w.length }

/-- ENCW (R141): the index at wpos, then its word through the ROM port. A store entry that breaks R71 is refused
(log entry 11). -/
def execEncw (wpos : Nat) (s : State) : Outcome :=
  if wordInBounds s wpos then
    reach s (fieldLastByte wpos)
      (if s.wlReady then
        match romWord s (readIndex s.buf wpos) with
        | some w => .next ((s.putWout w).putResult ((readIndex s.buf wpos).setWidth 32))
        | none => .refused .wordListPremise
      else raise s .wlNotReady)
  else raise s .bounds

end Sys2Proof.Machine
end

