-- ==== Sys2Proof/Machine/Dispatch.lean ====
section
/-! DEFINITION. One arm per command, each a direct call of its meaning. The ERR block and the completion that stand
around a command's execution are the engine's (Machine/Engine.lean, spec/60_exceptions.md R200). -/

namespace Sys2Proof.Machine

def exec (i : Instr) (s : State) : Host.Outcome State Fault Refusal :=
  match i with
  | .nop => Sys2Proof.Machine.execNop s
  | .clr n => Sys2Proof.Machine.execClr n s
  | .bitat pos => Sys2Proof.Machine.execBitat pos s
  | .setbit pos => Sys2Proof.Machine.execSetbit pos s
  | .rdidx wpos => Sys2Proof.Machine.execRdidx wpos s
  | .wridx wpos index => Sys2Proof.Machine.execWridx wpos index s
  | .rdbyte addr => Sys2Proof.Machine.execRdbyte addr s
  | .wrbyte addr data => Sys2Proof.Machine.execWrbyte addr data s
  | .encsetup n => Sys2Proof.Machine.execEncsetup n s
  | .encw wpos => Sys2Proof.Machine.execEncw wpos s
  | .decsetup n => Sys2Proof.Machine.execDecsetup n s
  | .decw wpos => Sys2Proof.Machine.execDecw wpos s
  | .clrerr => Sys2Proof.Machine.execClrerr s

end Sys2Proof.Machine
end

