-- ==== Sys2Proof/Machine/Engine.lean ====
section
/-! DEFINITION. The engine step (spec/60_exceptions.md R200): the command in flight is executed as one atomic step and
BUSY goes to 0. -/

namespace Sys2Proof.Machine

/-- The one word that executes while ERR = 1 (R200, R204). -/
def clrerrWord : Word32 := 0xF0000000

/-- BUSY <- 0 after a command that went on; a fault or a refusal is handed on as it is. -/
def finish : Outcome → Outcome
  | .next t => .next t.complete
  | .fault f => .fault f
  | .refused r => .refused r

/-- Execute the command word c: an illegal word raises ILLEGAL_COMMAND (R202). -/
def executeWord (c : Word32) (s : State) : Outcome :=
  match decode c with
  | .ok i => exec i s
  | .error _ => raise s .illegalCommand

/-- EngineStep of R200, for BUSY = 1: while ERR = 1 every word but CLRERR's is discarded (R204). -/
def engineStep (s : State) : Outcome :=
  if s.err && s.pend != clrerrWord then .next s.complete
  else finish (executeWord s.pend s)

/-- The engine's turn: enabled iff a command is in flight and RST is released (R200, R230); otherwise the engine
is idle and holds all state (R216). -/
def engineTurn (s : State) : Outcome :=
  if s.busy && !s.rst then engineStep s else .next s

end Sys2Proof.Machine
end

