-- ==== Sys2Proof/Machine/Window.lean ====
section
/-! DEFINITION. The register window: the map (spec/10_state.md R36), what each register reads (R37 to R53), what a write
to it does, and which accesses the model admits (spec/20_memory.md R80, spec/10_state.md R53). -/

namespace Sys2Proof.Machine

/-- The register at an offset of the window (R36). -/
def regAt (off : Nat) : Reg :=
  if off = 0x00 then .cmd
  else if off = 0x04 then .status
  else if off = 0x08 then .result
  else if off = 0x0C then .errcode
  else if off = 0x10 then .errcmd
  else if off = 0x14 then .len
  else if off = 0x18 then .nwords
  else if off = 0x1C then .entlen
  else if off = 0x20 then .csinfo
  else if off = 0x24 then .digest0
  else if off = 0x28 then .winlen
  else if off = 0x2C then .woutlen
  else if off = 0x30 then .param
  else if 0x40 ≤ off ∧ off ≤ 0x7C then .win ((off - 0x40) / 4)
  else if 0x80 ≤ off ∧ off ≤ 0xBC then .wout ((off - 0x80) / 4)
  else .reserved

/-! ### Byte lanes, little-endian (R51, R52, R69) -/

/-- Byte k of a WMAX-byte array as the window shows it: 0 at and above WMAX. -/
def laneByte (wmax : Nat) (l : List Byte) (k : Nat) : Byte := if k < wmax then l.getD k 0 else 0

/-- Register j of a window over l: byte 4*j + lane in bits [8*lane+7 : 8*lane]. -/
def lanes (wmax : Nat) (l : List Byte) (j : Nat) : Word32 :=
  laneByte wmax l (4 * j + 3) ++ laneByte wmax l (4 * j + 2)
    ++ laneByte wmax l (4 * j + 1) ++ laneByte wmax l (4 * j)

/-- Write one lane: byte k takes v, and a lane at or above WMAX is ignored (R51). -/
def setLane (wmax : Nat) (l : List Byte) (k : Nat) (v : Byte) : List Byte :=
  if k < wmax then l.set k v else l

/-- A write of v to register j of the WIN window, lanes 0 to 3 (R51). -/
def setLanes (wmax : Nat) (l : List Byte) (j : Nat) (v : Word32) : List Byte :=
  (List.range 4).foldl (fun l lane => setLane wmax l (4 * j + lane) (v.extractLsb' (8 * lane) 8)) l

/-! ### Reads -/

/-- The value of a register while BUSY = 0 (R38 to R53). -/
def regValue (s : State) : Reg → Word32
  | .cmd => 0
  | .status => statusWord s
  | .result => s.result
  | .errcode => s.errcode.setWidth 32
  | .errcmd => s.errcmd
  | .len => s.len.setWidth 32
  | .nwords => s.nwords.setWidth 32
  | .entlen => s.entlen.setWidth 32
  | .csinfo => csinfoWord s
  | .digest0 => s.digest0.setWidth 32
  | .winlen => s.winlen.setWidth 32
  | .woutlen => s.woutlen.setWidth 32
  | .param => paramWord s
  | .win j => lanes s.params.wmax s.win j
  | .wout j => lanes s.params.wmax s.wout j
  | .reserved => 0

/-- What a read returns exactly, also while BUSY = 1: STATUS and PARAM (R55), and CMD, which reads 0 (R38) and is not in
R55's list of unspecified reads. DEDUCED for CMD (log entry 23, unsafe): the last sentence of R37 excepts only STATUS and
PARAM. -/
def alwaysExact : Reg → Bool
  | .cmd | .status | .param => true
  | _ => false

/-- A host read: exact, or a free draw while BUSY = 1 (R55; log entry 6). No side effect on the engine (R81). -/
def hostRead (s : State) (r : Reg) : State :=
  if s.busy && !alwaysExact r then { s.pushRead (Config.freeRead s.draws) with draws := s.draws + 1 }
  else s.pushRead (regValue s r)

/-! ### Writes -/

/-- A write that BUSY = 1 drops sets OVR (R31); otherwise it has its effect. -/
def unlessBusy (s : State) (t : State) : State := if s.busy then { s with ovr := true } else t

/-- A host write of v: CMD (R38), DIGEST0 (R47), WINLEN (R48), WIN (R51); every other register ignores it (R37). -/
def hostWrite (s : State) (r : Reg) (v : Word32) : State :=
  match r with
  | .cmd => unlessBusy s { s with pend := v, busy := true }
  | .digest0 => unlessBusy s { s with digest0 := v.extractLsb' 0 8, dvalid := true }
  | .winlen => unlessBusy s { s with winlen := v.extractLsb' 0 7 }
  | .win j => unlessBusy s { s with win := setLanes s.params.wmax s.win j v }
  | .status | .result | .errcode | .errcmd | .len | .nwords | .entlen | .csinfo | .woutlen
  | .param | .wout _ | .reserved => s

/-! ### Which accesses are admitted -/

/-- Why the model refuses an access of this width at this offset, if it does (R80, R53; log entries 7 and 8). -/
def refusalOf (width off : Nat) : Option Refusal :=
  if width ≠ 32 then some .accessWidth
  else if off > 0xFF then some .accessBeyondWindow
  else if off % 4 ≠ 0 then some .accessMisaligned
  else if regAt off = .reserved then some .reservedOffset
  else none

/-- Perform an admitted access. -/
def perform (s : State) : Access → State
  | .read _ off => hostRead s (regAt off)
  | .write _ off v => hostWrite s (regAt off) v

/-- The width of an access. -/
def Access.width : Access → Nat
  | .read w _ => w
  | .write w _ _ => w

/-- The offset of an access. -/
def Access.offset : Access → Nat
  | .read _ off => off
  | .write _ off _ => off

/-- Serve a host access: refused under RST (spec/70_reset_and_hazards.md R230) or by `refusalOf`, else performed. -/
def serveAccess (s : State) (a : Access) : Outcome :=
  if s.rst then .refused .accessUnderReset
  else
    match refusalOf a.width a.offset with
    | some r => .refused r
    | none => .next (perform s a)

end Sys2Proof.Machine
end

