-- ==== Sys2Proof/Machine/Inputs.lean ====
section
/-! DEFINITION. What one input does to the machine: a host access, a turn of the engine, a change of RST
(spec/00_scope.md R15, spec/70_reset_and_hazards.md R230), and how a command word is placed in flight. -/

namespace Sys2Proof.Machine

/-- RST is driven to a level. While it is asserted, and when it is released, every engine element takes its reset
value (R230); driving it low when it is low is no event. -/
def driveRst (s : State) (level : Bool) : State :=
  if s.rst || level then s.underReset level else s

/-- Serve one input, already taken from the list. -/
def serve (s : State) : Input → Outcome
  | .host a => serveAccess s a
  | .engine => engineTurn s
  | .rst level => .next (driveRst s level)

/-- The command word c is in flight, RST is released, and the engine has the next turn: what an accepted write of c
to CMD (spec/10_state.md R38) followed by the engine's turn amounts to. -/
def State.inFlight (s : State) (c : Word32) : State :=
  { s with busy := true, pend := c, rst := false, inputs := .engine :: s.inputs }

end Sys2Proof.Machine
end

