-- ==== Sys2Proof/Machine/Step.lean ====
section
/-! DEFINITION. One step of the machine. The model has no time (spec/70_reset_and_hazards.md R250): a step is the next
input served, and with no input left the engine completes the command in flight (weak fairness, spec/60_exceptions.md
R200) or, if there is none, idles (R216). -/

namespace Sys2Proof.Machine

/-- One step. -/
def step (s : State) : Host.Outcome State Fault Refusal :=
  match s.inputs with
  | [] => engineTurn s
  | i :: rest => serve (s.withInputs rest) i

/-- s with the command word whose bits are w in flight and the engine next, so that step runs exactly it. -/
def State.withFetchWord (s : State) (nbits w : Nat) : State := s.inFlight (tableWord nbits w)

end Sys2Proof.Machine
end

