-- ==== Sys2Proof/Machine/Listing.lean ====
section
/-! DEFINITION. The host's listings as lists of inputs: accesses, WAIT and WKEY (spec/30_encoding.md R102), the
pseudo-instructions (R103), and the assembler's text form (R101). No hardware executes a macro; these say which
accesses one stands for. -/

namespace Sys2Proof.Machine

/-- `W reg, value` at an offset (R102). -/
def hostW (off : Nat) (v : Word32) : Input := .host (.write 32 off v)

/-- `R reg` at an offset (R102). -/
def hostR (off : Nat) : Input := .host (.read 32 off)

/-- `WAIT` (R102): polls of STATUS that read BUSY = 1, the engine's turn, then the poll that reads BUSY = 0. How many
polls come first is the command's latency, which is open (spec/00_scope.md R6 LAT). -/
def waitFor (polls : Nat) : List Input := List.replicate polls (hostR 0x04) ++ [.engine, hostR 0x04]

/-- A bare command line: `W CMD, enc(...)` then `WAIT` (R102). -/
def commandLine (polls : Nat) (i : Instr) : List Input := hostW 0x00 (encode i) :: waitFor polls

/-- `WKEY bytes` (R102): the bytes into the WIN window in its lane order, then their count into WINLEN. DESIGN CHOICE
(log entry 25, safe): of a token longer than the 64 bytes of the window only the first 64 are written, and a count that
WINLEN's seven bits do not hold is written as 127, so that such a token is no key for any WMAX. -/
def wkey (bytes : WlWord) : List Input :=
  (List.range ((min bytes.length 64 + 3) / 4)).map (fun j => hostW (0x40 + 4 * j) (lanes bytes.length bytes j))
    ++ [hostW 0x28 (BitVec.ofNat 32 (min bytes.length 127))]

/-- `ACK` is CLRERR (R103). -/
def ack (polls : Nat) : List Input := commandLine polls .clrerr

/-- `ZERO n` is CLR n (R103). -/
def zero (polls n : Nat) : List Input := commandLine polls (.clr n)

/-- The commands of LOADENT (R103; spec/42_encoder.md R143, steps 1 and 2), each with its accesses. DESIGN CHOICE (log
entry 27, safe): R143 lets the host skip the WRBYTE of a zero byte, and this writes every byte, as LOADENT does. -/
def loadStages (polls : Nat) (e : List Byte) : List (List Input) :=
  commandLine polls (.clr (e.length + 1)) ::
    (List.range e.length).map (fun a => commandLine polls (.wrbyte a (e.getD a 0)))

/-- The digest byte, then ENCSETUP n (R143, steps 3 and 4). -/
def encsetupStage (polls n : Nat) (d : Byte) : List Input :=
  hostW 0x24 (d.setWidth 32) :: commandLine polls (.encsetup n)

/-- ENCW 0 .. nw-1, each followed by the reads of RESULT, WOUTLEN and the WOUT window (R143, step 5). DESIGN CHOICE (log
entry 27, safe): all 16 registers of the window are read, whatever WOUTLEN is. -/
def encwStages (polls nw : Nat) : List (List Input) :=
  (List.range nw).map (fun w =>
    commandLine polls (.encw w) ++ hostR 0x08 :: hostR 0x2C :: (List.range 16).map (fun j => hostR (0x80 + 4 * j)))

/-- DECSETUP k, then for each word its WKEY and a DECW (R103; spec/43_decoder.md R163, steps 2 and 3). -/
def decodeStages (polls : Nat) (ws : List WlWord) : List (List Input) :=
  commandLine polls (.decsetup ws.length) ::
    (List.range ws.length).map (fun w => wkey (ws.getD w []) ++ commandLine polls (.decw w))

/-- RDBYTE 0 .. n-1, each followed by the read of RESULT (R163, step 4). -/
def readOutStages (polls n : Nat) : List (List Input) :=
  (List.range n).map (fun a => commandLine polls (.rdbyte a) ++ [hostR 0x08])

/-- `LOADENT e0,...` as one listing (R103). -/
def loadEntropy (polls : Nat) (e : List Byte) : List Input := (loadStages polls e).flatten

/-- `ENCODE n, d` as one listing, with NW = (8n + n/4)/11 (R103). -/
def encodeWords (polls n : Nat) (d : Byte) : List Input :=
  encsetupStage polls n d ++ (encwStages polls ((8 * n + n / 4) / 11)).flatten

/-- `DECODE k, w0,...` as one listing, without the read-out (R103). -/
def decodeWords (polls : Nat) (ws : List WlWord) : List Input := (decodeStages polls ws).flatten

/-- The read-out that follows DECODE, of n = ENTLEN bytes, as one listing (R103). -/
def readOut (polls n : Nat) : List Input := (readOutStages polls n).flatten

/-- The operands of a command in the order of its format, high field first (R101). -/
def operands : Instr → List Nat
  | .nop | .clrerr => []
  | .clr n | .encsetup n | .decsetup n => [n]
  | .bitat p | .setbit p => [p]
  | .rdidx w | .encw w | .decw w => [w]
  | .wridx w i => [w, i.toNat]
  | .rdbyte a => [a]
  | .wrbyte a d => [a, d.toNat]

/-- A command's line in a listing, operands in decimal (R101). -/
def listingLine (i : Instr) : String :=
  i.mnemonic ++ (if operands i = [] then "" else " ") ++ ", ".intercalate ((operands i).map Nat.repr)

end Sys2Proof.Machine
end

