-- ==== Sys2Proof/Machine/Procedure.lean ====
section
/-! DEFINITION. The host's encode and decode procedures (spec/42_encoder.md R143, spec/43_decoder.md R163) run on the
machine: what they return, which is nothing when a step leaves STATUS.ERR = 1. Splitting and joining a mnemonic and
SHA-256 stay with the host (decisions D27, D9). -/

namespace Sys2Proof.Machine

/-- Serve these inputs in order and nothing else (spec/20_memory.md R82). -/
def serveAll (s : State) : List Input → Outcome
  | [] => .next s
  | i :: l =>
    match serve s i with
    | .next t => serveAll t l
    | .fault f => .fault f
    | .refused r => .refused r

/-- The values that the reads between s and t returned, oldest first. -/
def readsSince (s t : State) : List Word32 := (t.reads.take (t.reads.length - s.reads.length)).reverse

/-- Run a procedure, command by command, up to the first one that leaves STATUS.ERR = 1 (spec/30_encoding.md R103): the
state at its end and what the reads of each command returned. None where a command leaves ERR = 1, or an access is
refused: the procedure then returns nothing (R143, R163; log entry 26). -/
def runStages (s : State) : List (List Input) → Option (State × List (List Word32))
  | [] => some (s, [])
  | l :: ls =>
    match serveAll s l with
    | .next t => if t.err then none else (runStages t ls).map (fun r => (r.1, readsSince s t :: r.2))
    | .fault _ => none
    | .refused _ => none

/-- The host's decode procedure (R163) on the tokens ws: steps 2 and 3, then the ENTLEN bytes that step 4 reads from
RESULT, the last read after each RDBYTE. -/
def decodeProcedure (polls : Nat) (ws : List WlWord) (s : State) : Option (List Byte) :=
  (runStages s (decodeStages polls ws)).bind fun r =>
    (runStages r.1 (readOutStages polls r.1.entlen.toNat)).map fun q => q.2.map (fun l => (l.getLastD 0).setWidth 8)

/-- The bytes of a register value, least significant lane first (spec/10_state.md R52). -/
def laneBytes (v : Word32) : List Byte := (List.range 4).map (fun lane => v.extractLsb' (8 * lane) 8)

/-- The index and the word among the reads after an ENCW: RESULT, WOUTLEN and WOUT are the last 18. -/
def indexAndWord (l : List Word32) : Index × WlWord :=
  let r := l.drop (l.length - 18)
  ((r.getD 0 0).setWidth 11, ((r.drop 2).flatMap laneBytes).take (r.getD 1 0).toNat)

/-- The host's encode procedure (R143) on the entropy e with the digest byte d: steps 1 to 4, then the NWORDS indices and
words that step 5 reads. It skips no WRBYTE of a zero byte (log entry 27). -/
def encodeProcedure (polls : Nat) (e : List Byte) (d : Byte) (s : State) : Option (List (Index × WlWord)) :=
  (runStages s (loadStages polls e ++ [encsetupStage polls e.length d])).bind fun r =>
    (runStages r.1 (encwStages polls r.1.nwords.toNat)).map fun q => q.2.map indexAndWord

end Sys2Proof.Machine
end

