-- ==== Sys2Proof/Safety.lean ====
section
/-! DEFINITION. What claims are stated in: the invariant of the machine (spec/10_state.md R56 and the widths and
canonical forms the model adds), the word-list contract (spec/20_memory.md R71), the end of a run
(spec/70_reset_and_hazards.md R253). -/

namespace Sys2Proof.Machine

/-- The word-list contract of R71 over the store's words: exactly 2048, unique (i), non-empty (ii), each of at most
WMAX bytes (v). R71 (iii) and (iv) are what the CAM port then answers; (vi) is that no step changes the store. -/
structure State.WordListOk (s : State) : Prop where
  size : s.wl.length = 2048
  unique : s.wl.Nodup
  fits : ∀ w ∈ s.wl, 1 ≤ w.length ∧ w.length ≤ s.params.wmax

/-- CSMASK is the top CSLEN bits of a byte: (0xFF << (8 - CSLEN)) & 0xFF, or 0 when CSLEN = 0 (R56 (d)). -/
abbrev State.MaskOfLength (s : State) : Prop :=
  s.csmask = if s.cslen = 0 then 0 else (0xFF#8 <<< (8 - s.cslen.toNat))

/-- The counts of the operation in progress: none (reset, CLR), or ENTLEN + 1 = LEN and 11*NWORDS ≤ 8*LEN (R56 (b), (c)). -/
abbrev State.CountsOk (s : State) : Prop :=
  (s.nwords = 0 ∧ s.entlen = 0) ∨
    (s.entlen.toNat + 1 = s.len.toNat ∧ 11 * s.nwords.toNat ≤ 8 * s.len.toNat)

/-- What every rule preserves. -/
structure State.Inv (s : State) : Prop where
  /-- The instance's parameters are in the ranges of spec/00_scope.md R6. -/
  params : s.params.wf
  /-- BUF is in canonical form. -/
  bufWf : s.buf.wf
  /-- BUF lists no address at or above BUF_BYTES. -/
  bufBelow : s.buf.below s.params.bufBytes
  /-- R56 (a): LEN ≤ BUF_BYTES. -/
  len : s.len.toNat ≤ s.params.bufBytes
  /-- R56 (b), (c). -/
  counts : s.CountsOk
  /-- R56 (d): CSLEN is 0 or 4..8. -/
  cslen : s.cslen = 0 ∨ (4 ≤ s.cslen.toNat ∧ s.cslen.toNat ≤ 8)
  /-- R56 (d): CSMASK by CSLEN. -/
  csmask : s.MaskOfLength
  /-- R27: CHK has no bit outside CSMASK. -/
  chk : s.chk &&& s.csmask = s.chk
  /-- R40: RESULT is below 2^11. -/
  result : s.result.toNat < 2 ^ 11
  /-- R56 (e): with ERR = 0 the record is empty. -/
  noError : s.err = false → s.errcode = 0 ∧ s.errcmd = 0
  /-- R201: with ERR = 1 the code is one of 1..8. -/
  error : s.err = true → 1 ≤ s.errcode.toNat ∧ s.errcode.toNat ≤ 8
  /-- R44: NWORDS never exceeds 46. -/
  nwords : s.nwords.toNat ≤ 46
  /-- WIN has WMAX bytes (R33). -/
  win : s.win.length = s.params.wmax
  /-- WOUT has WMAX bytes (R34). -/
  wout : s.wout.length = s.params.wmax
  /-- R56 (f): WOUTLEN ≤ WMAX. -/
  woutlen : s.woutlen.toNat ≤ s.params.wmax
  /-- R34: WOUT is 0x00 at and above WOUTLEN. -/
  woutPad : ∀ k, s.woutlen.toNat ≤ k → s.wout.getD k 0 = 0
  /-- R230: under RST every engine element is at its reset value. -/
  reset : s.rst = true → s = s.underReset true

/-- A run is over when the host has made its last access and BUSY = 0 (R253). DESIGN CHOICE (log entry 24, safe): R253
speaks of accesses only, and the model counts a change of RST or an engine turn still in the list as part of the run. -/
abbrev State.runOver (s : State) : Prop := s.inputs = [] ∧ s.busy = false

/-- The engine has the next turn and rest is what is left after it: an engine turn stands first, or nothing is left
(Machine/Step.lean). -/
abbrev State.engineNext (s : State) (rest : List Input) : Prop :=
  s.inputs = .engine :: rest ∨ (s.inputs = [] ∧ rest = [])

/-- Running the command word in flight has a turn: BUSY = 1 and RST is released (R200, R230). -/
abbrev State.inFlightReady (s : State) : Prop := s.busy = true ∧ s.rst = false

end Sys2Proof.Machine
end

