-- ==== Sys2Proof/Certificates/Slice0/Obligations.lean ====
section
/-! DEFINITION. The statements about BPE11 that the provers settle. Each docstring names the rules it comes from. A stream
position p is bit 7 - p mod 8 of byte p div 8 (spec/20_memory.md R61), and the statements write it out through
`Memory.read`. Frames are equations t = { s with … }: every field not named is unchanged, memory included. -/

open Sys2Proof Sys2Proof.Machine

/-! ### Encoding (spec/30_encoding.md) -/

/-- Words of spec/95_test_vectors.md section 2.6, one of every command, and the illegal ones beside them. -/
def Obligations.SpecWordsDecode : Prop :=
  decode 0x00000000 = .ok .nop ∧ decode 0x10000014 = .ok (.clr 20) ∧ decode 0x2000002E = .ok (.bitat 46) ∧
  decode 0x30000107 = .ok (.setbit 263) ∧ decode 0x40040000 = .ok (.rdidx 4) ∧
  decode 0x50040161 = .ok (.wridx 4 353) ∧ decode 0x60050000 = .ok (.rdbyte 5) ∧
  decode 0x700000AB = .ok (.wrbyte 0 0xAB) ∧ decode 0x80000010 = .ok (.encsetup 16) ∧
  decode 0x900B0000 = .ok (.encw 11) ∧ decode 0xA000000C = .ok (.decsetup 12) ∧
  decode 0xB00B0000 = .ok (.decw 11) ∧ decode 0xF0000000 = .ok .clrerr ∧
  decode 0x10010000 = .error .reservedBits ∧ decode 0x2000FE00 = .error .reservedBits ∧
  decode 0x40040001 = .error .reservedBits ∧ decode 0x50040800 = .error .reservedBits ∧
  decode 0x51040161 = .error .reservedBits ∧ decode 0x700001AB = .error .reservedBits ∧
  decode 0xC0000000 = .error .reservedOpcode ∧ decode 0xD1234567 = .error .reservedOpcode ∧
  decode 0xE0000000 = .error .reservedOpcode ∧ decode 0xF0000001 = .error .reservedBits

/-- R100: decode(enc x) = x for every legal x. -/
def Obligations.DecodeOfEncodeIsTheCommand : Prop :=
  ∀ i : Instr, i.wellFormed = true → decode (encode i) = .ok i

/-- R100: enc(decode c) = c for every legal word c, and every decoded command is well formed. -/
def Obligations.EncodeOfDecodeIsTheWord : Prop :=
  ∀ (c : Word32) (i : Instr), decode c = .ok i → i.wellFormed = true ∧ encode i = c

/-- R100: the encoding formulas, as naturals. -/
def Obligations.EncodedWordsAreTheFormulas : Prop :=
  (encode .nop).toNat = 0x00000000 ∧
  (∀ n, n < 2 ^ 16 → (encode (.clr n)).toNat = 0x10000000 ||| n) ∧
  (∀ p, p < 2 ^ 9 → (encode (.bitat p)).toNat = 0x20000000 ||| p) ∧
  (∀ p, p < 2 ^ 9 → (encode (.setbit p)).toNat = 0x30000000 ||| p) ∧
  (∀ w, w < 2 ^ 8 → (encode (.rdidx w)).toNat = 0x40000000 ||| (w <<< 16)) ∧
  (∀ w (i : Index), w < 2 ^ 8 → (encode (.wridx w i)).toNat = 0x50000000 ||| (w <<< 16) ||| i.toNat) ∧
  (∀ a, a < 2 ^ 8 → (encode (.rdbyte a)).toNat = 0x60000000 ||| (a <<< 16)) ∧
  (∀ a (d : Byte), a < 2 ^ 8 → (encode (.wrbyte a d)).toNat = 0x70000000 ||| (a <<< 16) ||| d.toNat) ∧
  (∀ n, n < 2 ^ 16 → (encode (.encsetup n)).toNat = 0x80000000 ||| n) ∧
  (∀ w, w < 2 ^ 8 → (encode (.encw w)).toNat = 0x90000000 ||| (w <<< 16)) ∧
  (∀ n, n < 2 ^ 16 → (encode (.decsetup n)).toNat = 0xA0000000 ||| n) ∧
  (∀ w, w < 2 ^ 8 → (encode (.decw w)).toNat = 0xB0000000 ||| (w <<< 16)) ∧
  (encode .clrerr).toNat = 0xF0000000

/-- R95: "A word c selects a mnemonic iff (c & mask) = match for that row. At most one row matches any word". -/
def Obligations.OpcodeMapSelectsTheDecodedMnemonic : Prop :=
  (∀ r ∈ opcodeMap, ∀ c : Word32,
    (c &&& r.mask = r.pattern ↔ ∃ i, decode c = .ok i ∧ i.mnemonic = r.mnemonic)) ∧
  (∀ c : Word32, ∀ r ∈ opcodeMap, ∀ r' ∈ opcodeMap,
    c &&& r.mask = r.pattern → c &&& r'.mask = r'.pattern → r = r')

/-- R97: a word is legal iff a row of R95 selects it, and executing one that no row selects, with ERR = 0, raises
ILLEGAL_COMMAND and has no other effect. engineStep is R200's EngineStep. -/
def Obligations.LegalWordsAreThoseARowSelects : Prop :=
  (∀ c : Word32, (∃ i, decode c = .ok i) ↔ ∃ r ∈ opcodeMap, c &&& r.mask = r.pattern) ∧
  ∀ s : State, s.err = false → (∀ r ∈ opcodeMap, s.pend &&& r.mask ≠ r.pattern) →
    engineStep s = .next { s with busy := false, err := true, errcode := 5, errcmd := s.pend }

/-- R96: exactly the words with OP 0xC, 0xD or 0xE are rejected for their opcode, and executing one with ERR = 0 raises
ILLEGAL_COMMAND and has no other effect. -/
def Obligations.ReservedOpcodesSelectNoCommand : Prop :=
  (∀ c : Word32, decode c = .error .reservedOpcode ↔ 0xC ≤ c.toNat / 2 ^ 28 ∧ c.toNat / 2 ^ 28 ≤ 0xE) ∧
  ∀ s : State, s.err = false → 0xC ≤ s.pend.toNat / 2 ^ 28 → s.pend.toNat / 2 ^ 28 ≤ 0xE →
    engineStep s = .next { s with busy := false, err := true, errcode := 5, errcmd := s.pend }

/-! ### The engine step (spec/60_exceptions.md) -/

/-- R200: with a legal word in flight and no block, a step is exec of the decoded command, then BUSY <- 0; an input
that gave the engine its turn is taken from the list. -/
def Obligations.StepRunsTheDecodedCommand : Prop :=
  ∀ (s : State) (rest : List Input) (i : Instr),
    s.engineNext rest → s.inFlightReady → (s.err = false ∨ s.pend = 0xF0000000) → decode s.pend = .ok i →
    step s = match exec i { s with inputs := rest } with
      | .next t => .next { t with busy := false }
      | .fault f => .fault f
      | .refused r => .refused r

/-- The same through withFetchWord: a legal table word placed in flight runs as the very next step. -/
def Obligations.FetchWordRunsNext : Prop :=
  ∀ (s : State) (w : Nat) (i : Instr),
    s.err = false → decodeTableWord 32 w = some i →
    step (s.withFetchWord 32 w) =
      match exec i { s with busy := true, pend := BitVec.ofNat 32 w, rst := false } with
      | .next t => .next { t with busy := false }
      | .fault f => .fault f
      | .refused r => .refused r

/-- R202: "When decode(c) = ILLEGAL and ERR = 0, executing c raises ILLEGAL_COMMAND, records ERRCMD = c, and has no
other effect". engineStep is R200's EngineStep. -/
def Obligations.IllegalWordOnlyRecordsTheError : Prop :=
  ∀ (s : State) (e : Illegal), s.err = false → decode s.pend = .error e →
    engineStep s = .next { s with busy := false, err := true, errcode := 5, errcmd := s.pend }

/-- R204: while ERR = 1 every word but 0xF0000000 is discarded; only BUSY changes. CLRERR's word executes. -/
def Obligations.BlockedCommandIsDiscarded : Prop :=
  ∀ s : State, s.err = true →
    (s.pend ≠ 0xF0000000 → engineStep s = .next { s with busy := false }) ∧
    (s.pend = 0xF0000000 →
      engineStep s = .next { s with
        busy := false, err := false, errcode := 0, errcmd := 0, ovr := false })

/-- R203: whatever command leaves ERR newly set has changed the error record and nothing else, and ERRCMD is the word
in flight. The code is one its row of R205 lists: INTERNAL_CONSISTENCY (4) is never among them (R217). -/
def Obligations.FailingCommandChangesOnlyTheRecord : Prop :=
  ∀ (i : Instr) (s t : State), s.err = false → exec i s = .next t → t.err = true →
    t = { s with err := true, errcode := t.errcode, errcmd := s.pend } ∧
      t.errcode ∈ match i with
        | .nop | .clrerr => ([] : List (BitVec 4))
        | .clr _ | .bitat _ | .setbit _ | .rdidx _ | .wridx _ _ | .rdbyte _ | .wrbyte _ _ => [6]
        | .encsetup _ => [1, 3]
        | .encw _ => [6, 8]
        | .decsetup _ => [7]
        | .decw _ => [8, 2, 6]

/-- R200: at the engine's turn, or with nothing else left to happen, a step is the EngineStep of R200, and a command in
flight completes in one. R216, R253: when a run is over the machine holds all state. The word-list premise R71 is asked
for only where WL_READY = 1. That turns are a list, and that a run lasts while the list is not empty, is the model's choice
(log entries 4 and 24). -/
def Obligations.EngineCompletesThenIdles : Prop :=
  (∀ (s : State) (rest : List Input), s.engineNext rest → s.inFlightReady →
    step s = engineStep { s with inputs := rest }) ∧
  (∀ (s : State) (rest : List Input),
    s.Inv → (s.wlReady = true → s.WordListOk) → s.engineNext rest → s.inFlightReady →
    ∃ t, step s = .next t ∧ t.busy = false ∧ t.inputs = rest) ∧
  ∀ s : State, s.runOver → step s = .next s

/-! ### The commands: effect, completion and frame -/

/-- NOP (R180): exec answers the state itself, and executing 0x00000000 changes only BUSY, whatever ERR is. -/
def Obligations.NopChangesNothing : Prop :=
  ∀ s : State, exec .nop s = .next s ∧
    (s.pend = 0x00000000 → engineStep s = .next { s with busy := false })

/-- CLRERR (R181): exec clears the record and OVR and nothing else, and executing 0xF0000000 does so whatever ERR is. -/
def Obligations.ClrerrClearsTheRecordAndOverrun : Prop :=
  ∀ s : State,
    exec .clrerr s = .next { s with err := false, errcode := 0, errcmd := 0, ovr := false } ∧
    (s.pend = 0xF0000000 →
      engineStep s = .next { s with
        busy := false, err := false, errcode := 0, errcmd := 0, ovr := false })

/-- BITAT (R110): RESULT is the stream bit and nothing else changes, or BOUNDS. -/
def Obligations.BitatReturnsTheStreamBit : Prop :=
  ∀ (s : State) (pos : Nat), s.len.toNat ≤ s.params.bufBytes →
    (pos < 8 * s.len.toNat →
      exec (.bitat pos) s =
        .next { s with result := if (s.buf.read (pos / 8)).getLsbD (7 - pos % 8) then 1 else 0 }) ∧
    (8 * s.len.toNat ≤ pos → exec (.bitat pos) s = .next { s with err := true, errcode := 6, errcmd := s.pend })

/-- SETBIT (R111): one bit of one byte is ORed in, RESULT is 0, nothing else changes, or BOUNDS. -/
def Obligations.SetbitSetsOneBit : Prop :=
  ∀ (s : State) (pos : Nat), s.len.toNat ≤ s.params.bufBytes →
    (pos < 8 * s.len.toNat →
      ∃ t, exec (.setbit pos) s = .next t ∧ t = { s with buf := t.buf, result := 0 } ∧
        ∀ a, t.buf.read a =
          if a = pos / 8 then s.buf.read a ||| (0x80#8 >>> (pos % 8)) else s.buf.read a) ∧
    (8 * s.len.toNat ≤ pos → exec (.setbit pos) s = .next { s with err := true, errcode := 6, errcmd := s.pend })

/-- RDIDX (R112, R64): bit 10 - k of RESULT is stream position 11*WPOS + k and nothing else changes, or BOUNDS. -/
def Obligations.RdidxReturnsTheField : Prop :=
  ∀ (s : State) (w : Nat), s.len.toNat ≤ s.params.bufBytes →
    (11 * w + 11 ≤ 8 * s.len.toNat →
      ∃ t, exec (.rdidx w) s = .next t ∧ t = { s with result := t.result } ∧ t.result.toNat < 2048 ∧
        ∀ k, k < 11 →
          t.result.getLsbD (10 - k) = (s.buf.read ((11 * w + k) / 8)).getLsbD (7 - (11 * w + k) % 8)) ∧
    (8 * s.len.toNat < 11 * w + 11 → exec (.rdidx w) s = .next { s with err := true, errcode := 6, errcmd := s.pend })

/-- WRIDX (R113, R65): INDEX is ORed into positions 11*WPOS .. 11*WPOS+10, most significant bit first; no position
outside changes, no byte outside the field's bytes changes, RESULT is 0, nothing else changes; or BOUNDS. -/
def Obligations.WridxOrsTheFieldOnly : Prop :=
  ∀ (s : State) (w : Nat) (i : Index), s.len.toNat ≤ s.params.bufBytes →
    (11 * w + 11 ≤ 8 * s.len.toNat →
      ∃ t, exec (.wridx w i) s = .next t ∧ t = { s with buf := t.buf, result := 0 } ∧
        (∀ p, (t.buf.read (p / 8)).getLsbD (7 - p % 8) =
          ((s.buf.read (p / 8)).getLsbD (7 - p % 8) ||
            (decide (11 * w ≤ p ∧ p < 11 * w + 11) && i.getLsbD (10 - (p - 11 * w))))) ∧
        ∀ a, a < 11 * w / 8 ∨ (11 * w + 10) / 8 < a → t.buf.read a = s.buf.read a) ∧
    (8 * s.len.toNat < 11 * w + 11 → exec (.wridx w i) s = .next { s with err := true, errcode := 6, errcmd := s.pend })

/-- CLR (R130): the whole of BUF reads 0x00, LEN and RESULT are N, the counts and checksum fields are 0; DVALID,
DIGEST0, WIN, WINLEN, WOUT, WOUTLEN and every other field are unchanged; or BOUNDS. -/
def Obligations.ClrZeroesTheBuffer : Prop :=
  ∀ (s : State) (n : Nat), s.params.wf →
    (n ≤ s.params.bufBytes →
      ∃ t, exec (.clr n) s = .next t ∧
        t = { s with buf := t.buf, len := t.len, nwords := 0, entlen := 0, cslen := 0, csmask := 0, chk := 0,
                     result := t.result } ∧
        t.len.toNat = n ∧ t.result.toNat = n ∧ ∀ a, t.buf.read a = 0) ∧
    (s.params.bufBytes < n → exec (.clr n) s = .next { s with err := true, errcode := 6, errcmd := s.pend })

/-- RDBYTE (R131): RESULT is the byte and nothing else changes, or BOUNDS. -/
def Obligations.RdbyteReturnsTheByte : Prop :=
  ∀ (s : State) (a : Nat), s.len.toNat ≤ s.params.bufBytes →
    (a < s.len.toNat →
      ∃ t, exec (.rdbyte a) s = .next t ∧ t = { s with result := t.result } ∧
        t.result.toNat = (s.buf.read a).toNat) ∧
    (s.len.toNat ≤ a → exec (.rdbyte a) s = .next { s with err := true, errcode := 6, errcmd := s.pend })

/-- WRBYTE (R132): the byte at ADDR is DATA whatever it was, every other byte is as before, RESULT is 0, nothing else
changes; or BOUNDS. -/
def Obligations.WrbyteOverwritesOneByte : Prop :=
  ∀ (s : State) (a : Nat) (d : Byte), s.len.toNat ≤ s.params.bufBytes →
    (a < s.len.toNat →
      ∃ t, exec (.wrbyte a d) s = .next t ∧ t = { s with buf := t.buf, result := 0 } ∧
        ∀ b, t.buf.read b = if b = a then d else s.buf.read b) ∧
    (s.len.toNat ≤ a → exec (.wrbyte a d) s = .next { s with err := true, errcode := 6, errcmd := s.pend })

/-- ENCSETUP (R140), for the five rows of its results table: BUF[N] is overwritten with DIGEST0 & mask and every other
byte is as before; the counts, checksum fields, DVALID and RESULT are as the table says. Any other length raises
INVALID_ENTROPY_LENGTH whatever DVALID is; a valid length with DVALID = 0 raises DIGEST_UNAVAILABLE. -/
def Obligations.EncsetupAppendsTheChecksum : Prop :=
  ∀ s : State,
    (∀ (n cslen nwords : Nat) (mask : Byte),
      (n, cslen, mask, nwords) ∈
        [(16, 4, 0xF0#8, 12), (20, 5, 0xF8#8, 15), (24, 6, 0xFC#8, 18), (28, 7, 0xFE#8, 21), (32, 8, 0xFF#8, 24)] →
      s.params.wf → s.dvalid = true →
      ∃ t, exec (.encsetup n) s = .next t ∧
        t = { s with
          buf := t.buf, len := BitVec.ofNat 8 (n + 1), entlen := BitVec.ofNat 8 n, cslen := BitVec.ofNat 4 cslen,
          csmask := mask, chk := s.digest0 &&& mask, nwords := BitVec.ofNat 8 nwords, dvalid := false,
          result := BitVec.ofNat 32 nwords } ∧
        ∀ a, t.buf.read a = if a = n then s.digest0 &&& mask else s.buf.read a) ∧
    (∀ n, n ∉ [16, 20, 24, 28, 32] →
      exec (.encsetup n) s = .next { s with err := true, errcode := 1, errcmd := s.pend }) ∧
    (∀ n, n ∈ [16, 20, 24, 28, 32] → s.dvalid = false →
      exec (.encsetup n) s = .next { s with err := true, errcode := 3, errcmd := s.pend })

/-- ENCW (R141, R34, R64): under the word-list contract R71, RESULT is the field's index, WOUT its word padded with
0x00, WOUTLEN the word's length; BUF and every other field are unchanged. BOUNDS comes before WL_NOT_READY. -/
def Obligations.EncwReturnsIndexAndWord : Prop :=
  ∀ (s : State) (w : Nat), s.params.wf → s.len.toNat ≤ s.params.bufBytes →
    (s.WordListOk → s.wlReady = true → 11 * w + 11 ≤ 8 * s.len.toNat →
      ∃ (t : State) (idx : Index) (word : WlWord),
        exec (.encw w) s = .next t ∧
        (∀ k, k < 11 →
          idx.getLsbD (10 - k) = (s.buf.read ((11 * w + k) / 8)).getLsbD (7 - (11 * w + k) % 8)) ∧
        s.wl[idx.toNat]? = some word ∧
        t = { s with wout := t.wout, woutlen := t.woutlen, result := idx.setWidth 32 } ∧
        t.woutlen.toNat = word.length ∧
        t.wout = word ++ List.replicate (s.params.wmax - word.length) 0) ∧
    (8 * s.len.toNat < 11 * w + 11 → exec (.encw w) s = .next { s with err := true, errcode := 6, errcmd := s.pend }) ∧
    (11 * w + 11 ≤ 8 * s.len.toNat → s.wlReady = false →
      exec (.encw w) s = .next { s with err := true, errcode := 8, errcmd := s.pend })

/-- DECSETUP (R160): the whole of BUF reads 0x00, LEN = ceil(11N/8), NWORDS = N, ENTLEN = RESULT = LEN - 1, the
checksum fields are 0; every other field is unchanged. Zero words, or more than BUF holds, raise BAD_WORD_COUNT. -/
def Obligations.DecsetupSizesAndZeroes : Prop :=
  ∀ (s : State) (n : Nat), s.params.wf →
    (n ≠ 0 → (11 * n + 7) / 8 ≤ s.params.bufBytes →
      ∃ t, exec (.decsetup n) s = .next t ∧
        t = { s with buf := t.buf, len := t.len, nwords := t.nwords, entlen := t.entlen, cslen := 0, csmask := 0,
                     chk := 0, result := t.result } ∧
        t.len.toNat = (11 * n + 7) / 8 ∧ t.nwords.toNat = n ∧ t.entlen.toNat = (11 * n + 7) / 8 - 1 ∧
        t.result.toNat = (11 * n + 7) / 8 - 1 ∧ ∀ a, t.buf.read a = 0) ∧
    (n = 0 ∨ s.params.bufBytes < (11 * n + 7) / 8 →
      exec (.decsetup n) s = .next { s with err := true, errcode := 7, errcmd := s.pend })

/-- DECW (R161, R65), under the word-list contract R71: when the key in WIN is the word of index i, RESULT is i and i is
ORed into the field; no position outside changes; WIN, WINLEN and every other field are unchanged. -/
def Obligations.DecwOrsTheWordsIndex : Prop :=
  ∀ (s : State) (w : Nat) (i : Index) (word : WlWord), s.WordListOk → s.wlReady = true →
    s.wl[i.toNat]? = some word → s.winlen.toNat = word.length → s.win.take word.length = word →
    11 * w + 11 ≤ 8 * s.len.toNat → s.len.toNat ≤ s.params.bufBytes →
    ∃ t, exec (.decw w) s = .next t ∧ t = { s with buf := t.buf, result := i.setWidth 32 } ∧
      (∀ p, (t.buf.read (p / 8)).getLsbD (7 - p % 8) =
        ((s.buf.read (p / 8)).getLsbD (7 - p % 8) ||
          (decide (11 * w ≤ p ∧ p < 11 * w + 11) && i.getLsbD (10 - (p - 11 * w))))) ∧
      ∀ a, a < 11 * w / 8 ∨ (11 * w + 10) / 8 < a → t.buf.read a = s.buf.read a

/-- DECW's checks in the order of R161 and R205: WL_NOT_READY, then UNKNOWN_WORD (a key length outside 1..WMAX, or a CAM
miss), then BOUNDS. The store's contract R71 is asked for only where the lookup hits. -/
def Obligations.DecwErrorsInOrder : Prop :=
  ∀ (s : State) (w : Nat),
    (s.wlReady = false →
      exec (.decw w) s = .next { s with err := true, errcode := 8, errcmd := s.pend }) ∧
    (s.wlReady = true → s.winlen.toNat = 0 ∨ s.params.wmax < s.winlen.toNat →
      exec (.decw w) s = .next { s with err := true, errcode := 2, errcmd := s.pend }) ∧
    (s.wlReady = true → 1 ≤ s.winlen.toNat → s.winlen.toNat ≤ s.params.wmax →
      s.win.take s.winlen.toNat ∉ s.wl →
      exec (.decw w) s = .next { s with err := true, errcode := 2, errcmd := s.pend }) ∧
    (s.wlReady = true → s.WordListOk → 1 ≤ s.winlen.toNat → s.winlen.toNat ≤ s.params.wmax →
      s.win.take s.winlen.toNat ∈ s.wl → 8 * s.len.toNat < 11 * w + 11 →
      exec (.decw w) s = .next { s with err := true, errcode := 6, errcmd := s.pend })

/-! ### Laws between commands -/

/-- R65, R112, R113: RDIDX after WRIDX at the same position returns the OR of the old field and INDEX. -/
def Obligations.RdidxAfterWridxIsTheOr : Prop :=
  ∀ (s : State) (w : Nat) (i : Index), 11 * w + 11 ≤ 8 * s.len.toNat → s.len.toNat ≤ s.params.bufBytes →
    ∃ t u v, exec (.rdidx w) s = .next t ∧ exec (.wridx w i) s = .next u ∧ exec (.rdidx w) u = .next v ∧
      v.result = t.result ||| i.setWidth 32

/-- R113: WRIDX commands commute, at adjacent positions or any others: the same state in either order. -/
def Obligations.WridxCommute : Prop :=
  ∀ (s t u : State) (v w : Nat) (i j : Index), s.buf.wf →
    exec (.wridx v i) s = .next t → t.err = s.err → exec (.wridx w j) s = .next u → u.err = s.err →
    s.err = false →
    ∃ x, exec (.wridx w j) t = .next x ∧ exec (.wridx v i) u = .next x

/-- R63: a command that turns a 1 of BUF into a 0 is CLR, DECSETUP, WRBYTE or ENCSETUP. -/
def Obligations.OnlyFourCommandsClearBits : Prop :=
  ∀ (i : Instr) (s t : State) (p : Nat), exec i s = .next t →
    (s.buf.read (p / 8)).getLsbD (7 - p % 8) = true → (t.buf.read (p / 8)).getLsbD (7 - p % 8) = false →
    (∃ n, i = .clr n) ∨ (∃ n, i = .decsetup n) ∨ (∃ a d, i = .wrbyte a d) ∨ (∃ n, i = .encsetup n)

/-- R142: after a successful ENCSETUP, word position w is in bounds iff w < NWORDS, and ENCW w raises BOUNDS exactly for
w ≥ NWORDS. -/
def Obligations.EncwBoundsAfterEncsetup : Prop :=
  ∀ (s t : State) (n w : Nat), exec (.encsetup n) s = .next t → t.err = false →
    (11 * w + 11 ≤ 8 * (n + 1) ↔ w < t.nwords.toNat) ∧
    (exec (.encw w) t = .next { t with err := true, errcode := 6, errcmd := t.pend } ↔ t.nwords.toNat ≤ w)

/-- R160: after a successful DECSETUP N, DECW w is in bounds iff w < N. -/
def Obligations.DecwBoundsAfterDecsetup : Prop :=
  ∀ (s t : State) (n w : Nat), s.params.wf → exec (.decsetup n) s = .next t → t.err = false →
    (11 * w + 11 ≤ 8 * t.len.toNat ↔ w < n)

/-- R219, R242: ENCSETUP consumes the digest byte, so a second one without a new DIGEST0 raises DIGEST_UNAVAILABLE. -/
def Obligations.SecondEncsetupNeedsANewDigest : Prop :=
  ∀ (s t : State) (n m : Nat), exec (.encsetup n) s = .next t → t.err = false → m ∈ [16, 20, 24, 28, 32] →
    exec (.encsetup m) t = .next { t with err := true, errcode := 3, errcmd := t.pend }

/-- R164, the round trip: after a successful ENCSETUP n, let the words that ENCW returns for positions 0 .. NWORDS-1
be presented, each as the key of the DECW of its position, after DECSETUP NWORDS on any machine with the same store
and parameters. Every ENCW and DECW completes, and after the decode BUF[0..n-1] is the entropy that ENCSETUP found and
BUF[n] is its CHK. -/
def Obligations.DecodeOfEncodeGivesTheBufferBack : Prop :=
  ∀ (s t u : State) (n : Nat),
    s.params.wf → s.WordListOk → s.wlReady = true →
    exec (.encsetup n) s = .next t → t.err = false →
    u.params = s.params → u.wl = s.wl → u.wlReady = true →
    ∃ f : Nat → State,
      exec (.decsetup t.nwords.toNat) u = .next (f 0) ∧
      (∀ w, w < t.nwords.toNat →
        ∃ e, exec (.encw w) t = .next e ∧
          exec (.decw w) { f w with win := e.wout, winlen := e.woutlen } = .next (f (w + 1))) ∧
      (f t.nwords.toNat).entlen.toNat = n ∧
      (∀ a, a < n → (f t.nwords.toNat).buf.read a = s.buf.read a) ∧
      (f t.nwords.toNat).buf.read n = t.chk

/-! ### Whole-machine rules -/

/-- R56 with the canonical forms: every step keeps the invariant. -/
def Obligations.StepKeepsTheInvariant : Prop :=
  ∀ s t : State, s.Inv → step s = .next t → t.Inv

/-- The invariant holds right after reset, and at the launch state of every instance and store (R54, R252). -/
def Obligations.LaunchStateMeetsTheInvariant : Prop :=
  State.reset.Inv ∧
    ∀ (p : Params) (wl : List WlWord) (ready : Bool), p.wf → (State.launch p wl ready).Inv

/-- R24, R60, R66, R80: from a state that meets the invariant no step faults, and a step is refused only for a host access:
no command ever is, under the word-list premise R71. -/
def Obligations.OnlyHostAccessesStopTheMachine : Prop :=
  ∀ s : State, s.Inv → (s.wlReady = true → s.WordListOk) →
    (∀ f, step s ≠ .fault f) ∧ (∀ r, step s = .refused r → ∃ a rest, s.inputs = .host a :: rest)

/-- R6, R71 (vi), R73: no step changes the parameters, the store or WL_READY. -/
def Obligations.StoreAndParametersAreConstant : Prop :=
  ∀ s t : State, step s = .next t → t.params = s.params ∧ t.wl = s.wl ∧ t.wlReady = s.wlReady

/-- R24: LEN is only ever written by CLR, ENCSETUP and DECSETUP, each with its value, and stays at most BUF_BYTES. -/
def Obligations.LenHasThreeWriters : Prop :=
  ∀ (i : Instr) (s t : State), s.Inv → exec i s = .next t →
    t.len.toNat ≤ t.params.bufBytes ∧
    (t.len = s.len ∨ (∃ n, i = .clr n ∧ t.len.toNat = n) ∨ (∃ n, i = .encsetup n ∧ t.len.toNat = n + 1) ∨
      (∃ n, i = .decsetup n ∧ t.len.toNat = (11 * n + 7) / 8))

/-- R30, R208: the error record changes only by RST, by CLRERR, or by recording the word in flight while ERR = 0. -/
def Obligations.ErrorRecordWriters : Prop :=
  ∀ s t : State, step s = .next t → t.err ≠ s.err ∨ t.errcode ≠ s.errcode ∨ t.errcmd ≠ s.errcmd →
    (∃ level rest, s.inputs = .rst level :: rest) ∨
    (s.busy = true ∧ s.pend = 0xF0000000 ∧ t.err = false ∧ t.errcode = 0 ∧ t.errcmd = 0) ∨
    (s.busy = true ∧ s.err = false ∧ t.err = true ∧ t.errcmd = s.pend)

/-- R31, R218: OVR is set only by a host write to CMD, DIGEST0, WINLEN or WIN while BUSY = 1, and cleared only by CLRERR
and RST. -/
def Obligations.OverrunWriters : Prop :=
  ∀ s t : State, step s = .next t → t.ovr ≠ s.ovr →
    (∃ level rest, s.inputs = .rst level :: rest) ∨
    (t.ovr = false ∧ s.busy = true ∧ s.pend = 0xF0000000) ∨
    (t.ovr = true ∧ s.busy = true ∧ ∃ width off v rest, s.inputs = .host (.write width off v) :: rest ∧
      (off = 0x00 ∨ off = 0x24 ∨ off = 0x28 ∨ (0x40 ≤ off ∧ off ≤ 0x7C)))

/-- R28, R230: DVALID is set only by a host write to DIGEST0, and cleared only by a successful ENCSETUP and by RST. -/
def Obligations.DigestValidWriters : Prop :=
  ∀ s t : State, step s = .next t → t.dvalid ≠ s.dvalid →
    (∃ level rest, s.inputs = .rst level :: rest) ∨
    (t.dvalid = true ∧ s.busy = false ∧ ∃ width v rest, s.inputs = .host (.write width 0x24 v) :: rest) ∨
    (t.dvalid = false ∧ s.busy = true ∧ t.err = false ∧ ∃ n, decode s.pend = .ok (.encsetup n))

/-- R33, R34: WIN and WINLEN change only by RST and by host writes to them while BUSY = 0; WOUT and WOUTLEN only by RST
and by ENCW. -/
def Obligations.WordRegisterWriters : Prop :=
  ∀ s t : State, step s = .next t →
    ((t.win ≠ s.win ∨ t.winlen ≠ s.winlen) →
      (∃ level rest, s.inputs = .rst level :: rest) ∨
      (s.busy = false ∧ ∃ width off v rest, s.inputs = .host (.write width off v) :: rest ∧
        (off = 0x28 ∨ (0x40 ≤ off ∧ off ≤ 0x7C)))) ∧
    ((t.wout ≠ s.wout ∨ t.woutlen ≠ s.woutlen) →
      (∃ level rest, s.inputs = .rst level :: rest) ∨
      (s.busy = true ∧ ∃ w, decode s.pend = .ok (.encw w)))

/-- R23, R66: what BUF holds at and above LEN has no influence. A command run on two states that differ only there
answers alike: the same fault or refusal, or next states that agree in every field but BUF, and in BUF on every byte
that was below LEN. -/
def Obligations.BytesBeyondLenHaveNoInfluence : Prop :=
  ∀ (i : Instr) (s : State) (m : Memory), (∀ a, a < s.len.toNat → m.read a = s.buf.read a) →
    match exec i s, exec i { s with buf := m } with
    | .next t, .next t' =>
      t' = { t with buf := t'.buf } ∧ ∀ a, a < s.len.toNat → t'.buf.read a = t.buf.read a
    | .fault f, .fault f' => f = f'
    | .refused r, .refused r' => r = r'
    | _, _ => False

/-- R230, R54: asserting RST, and releasing it, puts every engine element at its reset value, whatever was in flight;
the store, WL_READY and the parameters stay. -/
def Obligations.ResetPutsEveryElementAtItsValue : Prop :=
  ∀ (s : State) (level : Bool) (rest : List Input),
    s.inputs = .rst level :: rest → level = true ∨ s.rst = true →
    ∃ t, step s = .next t ∧
      t = { s with
        buf := t.buf, len := 0, nwords := 0, entlen := 0, cslen := 0, csmask := 0, chk := 0, digest0 := 0,
        dvalid := false, result := 0, err := false, errcode := 0, errcmd := 0, ovr := false, busy := false,
        pend := 0, win := List.replicate s.params.wmax 0, winlen := 0, wout := List.replicate s.params.wmax 0,
        woutlen := 0, rst := level, inputs := rest } ∧
      ∀ a, t.buf.read a = 0

/-! ### The register window (spec/10_state.md) -/

/-- R38: CMD takes a word and sets BUSY, or drops it and sets OVR while BUSY = 1; whatever the value and whatever ERR is.
A read of CMD returns 0, while BUSY = 1 too (log entry 23 weighs R37 against this). -/
def Obligations.CmdWriteIsAcceptedOrDropped : Prop :=
  ∀ (s : State) (v : Word32) (rest : List Input), s.rst = false →
    (s.inputs = .host (.write 32 0x00 v) :: rest → s.busy = false →
      step s = .next { s with inputs := rest, pend := v, busy := true }) ∧
    (s.inputs = .host (.write 32 0x00 v) :: rest → s.busy = true →
      step s = .next { s with inputs := rest, ovr := true }) ∧
    (s.inputs = .host (.read 32 0x00) :: rest →
      step s = .next { s with inputs := rest, reads := 0 :: s.reads })

/-- R47: a host write to DIGEST0 stores v[7:0] and sets DVALID, or is dropped; a read returns zext_32(DIGEST0). -/
def Obligations.DigestWriteSetsValid : Prop :=
  ∀ (s : State) (v : Word32) (rest : List Input), s.rst = false →
    (s.inputs = .host (.write 32 0x24 v) :: rest → s.busy = false →
      step s = .next { s with inputs := rest, digest0 := BitVec.ofNat 8 (v.toNat % 256), dvalid := true }) ∧
    (s.inputs = .host (.write 32 0x24 v) :: rest → s.busy = true →
      step s = .next { s with inputs := rest, ovr := true }) ∧
    (s.inputs = .host (.read 32 0x24) :: rest → s.busy = false →
      ∃ r : Word32, step s = .next { s with inputs := rest, reads := r :: s.reads } ∧
        r.toNat = s.digest0.toNat)

/-- R48: a host write to WINLEN stores v[6:0], or is dropped; a read returns zext_32(WINLEN). -/
def Obligations.WinlenWriteAndRead : Prop :=
  ∀ (s : State) (v : Word32) (rest : List Input), s.rst = false →
    (s.inputs = .host (.write 32 0x28 v) :: rest → s.busy = false →
      step s = .next { s with inputs := rest, winlen := BitVec.ofNat 7 (v.toNat % 128) }) ∧
    (s.inputs = .host (.write 32 0x28 v) :: rest → s.busy = true →
      step s = .next { s with inputs := rest, ovr := true }) ∧
    (s.inputs = .host (.read 32 0x28) :: rest → s.busy = false →
      ∃ r : Word32, step s = .next { s with inputs := rest, reads := r :: s.reads } ∧
        r.toNat = s.winlen.toNat)

/-- R51: a host write to register j of the WIN window puts byte lane l into key byte 4j + l where that is below WMAX, or
is dropped; a read returns the bytes in the same lanes, 0 at and above WMAX. -/
def Obligations.WinWindowLanes : Prop :=
  ∀ (s : State) (j : Nat) (v : Word32) (rest : List Input), s.rst = false → j < 16 →
    s.win.length = s.params.wmax →
    (s.inputs = .host (.write 32 (0x40 + 4 * j) v) :: rest → s.busy = false →
      ∃ t, step s = .next t ∧ t = { s with inputs := rest, win := t.win } ∧ t.win.length = s.params.wmax ∧
        ∀ k, k < s.params.wmax →
          t.win.getD k 0 =
            if 4 * j ≤ k ∧ k < 4 * j + 4 then BitVec.ofNat 8 (v.toNat / 256 ^ (k - 4 * j)) else s.win.getD k 0) ∧
    (s.inputs = .host (.write 32 (0x40 + 4 * j) v) :: rest → s.busy = true →
      step s = .next { s with inputs := rest, ovr := true }) ∧
    (s.inputs = .host (.read 32 (0x40 + 4 * j)) :: rest → s.busy = false →
      ∃ r : Word32, step s = .next { s with inputs := rest, reads := r :: s.reads } ∧
        ∀ lane, lane < 4 → BitVec.ofNat 8 (r.toNat / 256 ^ lane) =
          if 4 * j + lane < s.params.wmax then s.win.getD (4 * j + lane) 0 else 0)

/-- R52: a read of register j of the WOUT window returns its bytes in the same lanes, 0 at and above WMAX; a write is
ignored. -/
def Obligations.WoutWindowLanes : Prop :=
  ∀ (s : State) (j : Nat) (v : Word32) (rest : List Input), s.rst = false → j < 16 →
    (s.inputs = .host (.read 32 (0x80 + 4 * j)) :: rest → s.busy = false →
      ∃ r : Word32, step s = .next { s with inputs := rest, reads := r :: s.reads } ∧
        ∀ lane, lane < 4 → BitVec.ofNat 8 (r.toNat / 256 ^ lane) =
          if 4 * j + lane < s.params.wmax then s.wout.getD (4 * j + lane) 0 else 0) ∧
    (s.inputs = .host (.write 32 (0x80 + 4 * j) v) :: rest → step s = .next { s with inputs := rest })

/-- R39: STATUS reads its five flags exactly, while BUSY = 1 too; bits 31:5 read 0. It is read-only: a write is ignored. -/
def Obligations.StatusIsAlwaysExact : Prop :=
  ∀ (s : State) (rest : List Input), s.rst = false →
    (s.inputs = .host (.read 32 0x04) :: rest →
      ∃ v : Word32, step s = .next { s with inputs := rest, reads := v :: s.reads } ∧
        v.getLsbD 0 = s.busy ∧ v.getLsbD 1 = s.err ∧ v.getLsbD 2 = s.ovr ∧ v.getLsbD 3 = s.dvalid ∧
        v.getLsbD 4 = s.wlReady ∧ ∀ i, 5 ≤ i → v.getLsbD i = false) ∧
    ∀ v, s.inputs = .host (.write 32 0x04 v) :: rest → step s = .next { s with inputs := rest }

/-- R50: PARAM reads BUF_BYTES and WMAX exactly, while BUSY = 1 too. It is read-only and constant: a write is ignored,
and no step changes what it reads. -/
def Obligations.ParamIsAlwaysExact : Prop :=
  ∀ (s : State) (rest : List Input), s.params.wf → s.rst = false →
    (s.inputs = .host (.read 32 0x30) :: rest →
      ∃ v : Word32, step s = .next { s with inputs := rest, reads := v :: s.reads } ∧
        v.toNat = s.params.bufBytes + 256 * s.params.wmax) ∧
    (∀ v, s.inputs = .host (.write 32 0x30 v) :: rest → step s = .next { s with inputs := rest }) ∧
    ∀ t, step s = .next t → t.params = s.params

/-- R40 to R46, R49: what the read-only result registers read while BUSY = 0. -/
def Obligations.ResultRegistersRead : Prop :=
  ∀ (s : State) (off value : Nat) (rest : List Input), s.rst = false → s.busy = false →
    s.inputs = .host (.read 32 off) :: rest →
    (off, value) ∈
      [(0x08, s.result.toNat), (0x0C, s.errcode.toNat), (0x10, s.errcmd.toNat), (0x14, s.len.toNat),
       (0x18, s.nwords.toNat), (0x1C, s.entlen.toNat),
       (0x20, s.cslen.toNat + 256 * s.csmask.toNat + 65536 * s.chk.toNat), (0x2C, s.woutlen.toNat)] →
    step s = .next { s with inputs := rest, reads := BitVec.ofNat 32 value :: s.reads }

/-- R55, R81: an admitted read answers some value and changes nothing but the host's own record of it, whether BUSY is 0
or 1; while BUSY = 0 a repeated read answers the same value. Nothing is said of the value of a read while BUSY = 1: it is
a free draw. -/
def Obligations.ReadsHaveNoSideEffect : Prop :=
  ∀ (s : State) (off : Nat) (rest : List Input), s.rst = false →
    off ≤ 0xFC → off % 4 = 0 → off ∉ [0x34, 0x38, 0x3C] → off < 0xC0 →
    (s.inputs = .host (.read 32 off) :: rest →
      ∃ t, step s = .next t ∧ t = { s with inputs := rest, reads := t.reads, draws := t.draws } ∧
        ∃ v, t.reads = v :: s.reads) ∧
    (s.inputs = .host (.read 32 off) :: .host (.read 32 off) :: rest → s.busy = false →
      ∃ v, core.run 2 s = .next { s with inputs := rest, reads := v :: v :: s.reads })

/-- R37, R40 to R46, R49, R50: writes to the read-only registers are ignored. -/
def Obligations.ReadOnlyWritesAreIgnored : Prop :=
  ∀ (s : State) (off : Nat) (v : Word32) (rest : List Input), s.rst = false →
    off ∈ [0x04, 0x08, 0x0C, 0x10, 0x14, 0x18, 0x1C, 0x20, 0x2C, 0x30] →
    s.inputs = .host (.write 32 off v) :: rest → step s = .next { s with inputs := rest }

/-- R80, R53, R230: an access is refused exactly when RST is asserted, or it is not 32 bits wide, beyond 0xFF, misaligned,
or at a reserved offset; every other access completes. -/
def Obligations.WhichAccessesAreRefused : Prop :=
  ∀ (s : State) (a : Access) (rest : List Input), s.inputs = .host a :: rest →
    if s.rst = true ∨ a.width ≠ 32 ∨ 0xFF < a.offset ∨ a.offset % 4 ≠ 0 ∨
        (0x34 ≤ a.offset ∧ a.offset ≤ 0x3C) ∨ 0xC0 ≤ a.offset
    then ∃ r, step s = .refused r
    else ∃ t, step s = .next t

/-- R23, R60: no host access reaches BUF or any other result of a command: only PEND, BUSY, OVR, DIGEST0, DVALID, WIN and
WINLEN, and the host's own record, can change. -/
def Obligations.HostAccessFrame : Prop :=
  ∀ (s t : State) (a : Access) (rest : List Input), s.inputs = .host a :: rest → step s = .next t →
    t = { s with
      pend := t.pend, busy := t.busy, ovr := t.ovr, digest0 := t.digest0, dvalid := t.dvalid, win := t.win,
      winlen := t.winlen, inputs := rest, reads := t.reads, draws := t.draws }

/-- R102, R38, R39, R200: a listed command line, W CMD then WAIT with any number of polls, from an idle machine with no
error: it runs to the end, executes exactly the command, and the polls read BUSY = 1 until the last, which reads 0. -/
def Obligations.CommandLineExecutesItsCommand : Prop :=
  ∀ (s t : State) (i : Instr) (polls : Nat) (rest : List Input),
    s.rst = false → s.busy = false → s.err = false → i.wellFormed = true →
    s.inputs = commandLine polls i ++ rest →
    exec i { s with inputs := rest, pend := encode i, busy := true } = .next t →
    ∃ (busyReads : List Word32) (last : Word32),
      core.run (polls + 3) s =
        .next { t with busy := false, reads := last :: (busyReads ++ s.reads) } ∧
      busyReads.length = polls ∧ (∀ v ∈ busyReads, v.getLsbD 0 = true) ∧ last.getLsbD 0 = false

/-- R102, R33, R48, R51: after WKEY the key in WIN is its bytes, and nothing but WIN and WINLEN has changed. Bytes that
are no Word leave a key length that is none, so that DECW reports UNKNOWN_WORD (what is written of a token longer than the
window is the model's choice: log entry 25). -/
def Obligations.WkeyPresentsTheKey : Prop :=
  ∀ (s : State) (bytes : WlWord) (rest : List Input),
    s.rst = false → s.busy = false → s.params.wf → s.win.length = s.params.wmax → s.inputs = wkey bytes ++ rest →
    ∃ t, core.run (wkey bytes).length s = .next t ∧
      t = { s with inputs := rest, win := t.win, winlen := t.winlen } ∧
      (1 ≤ bytes.length → bytes.length ≤ s.params.wmax →
        t.winlen.toNat = bytes.length ∧ t.win.take bytes.length = bytes) ∧
      (bytes.length = 0 ∨ s.params.wmax < bytes.length → t.winlen.toNat = 0 ∨ s.params.wmax < t.winlen.toNat)

/-- R163: under the word-list contract R71, the decode procedure on words of the store returns ENTLEN bytes, whose stream
positions are those of the words' indices, eleven to a word, most significant bit first; with a token that is no word of the
store it returns nothing. How the host's run is cut into commands is the model's choice (log entry 26). -/
def Obligations.DecodeProcedureReturnsTheEntropy : Prop :=
  ∀ (s : State) (polls : Nat) (ws : List WlWord),
    s.rst = false → s.busy = false → s.err = false → s.params.wf → s.win.length = s.params.wmax → s.WordListOk →
    (∀ idx : List Index, s.wlReady = true → ws ≠ [] → (11 * ws.length + 7) / 8 ≤ s.params.bufBytes →
      idx.map (fun i => s.wl[i.toNat]?) = ws.map some →
      ∃ out, decodeProcedure polls ws s = some out ∧ out.length = (11 * ws.length + 7) / 8 - 1 ∧
        ∀ p, p < 8 * out.length →
          (out.getD (p / 8) 0).getLsbD (7 - p % 8) = (idx.getD (p / 11) 0).getLsbD (10 - p % 11)) ∧
    ((∃ w ∈ ws, w ∉ s.wl) → decodeProcedure polls ws s = none)
end

