-- ==== Sys2Proof/Laws/State.lean ====
section
/-! SUPPORT. One lemma per field per named update of State, each true by rfl, so that no proof unfolds an update. -/

namespace Sys2Proof.Machine

/-! ### State.putResult -/

@[simp] theorem State.putResult_buf (s : State) (v : Word32) : (s.putResult v).buf = s.buf := rfl
@[simp] theorem State.putResult_len (s : State) (v : Word32) : (s.putResult v).len = s.len := rfl
@[simp] theorem State.putResult_nwords (s : State) (v : Word32) : (s.putResult v).nwords = s.nwords := rfl
@[simp] theorem State.putResult_entlen (s : State) (v : Word32) : (s.putResult v).entlen = s.entlen := rfl
@[simp] theorem State.putResult_cslen (s : State) (v : Word32) : (s.putResult v).cslen = s.cslen := rfl
@[simp] theorem State.putResult_csmask (s : State) (v : Word32) : (s.putResult v).csmask = s.csmask := rfl
@[simp] theorem State.putResult_chk (s : State) (v : Word32) : (s.putResult v).chk = s.chk := rfl
@[simp] theorem State.putResult_digest0 (s : State) (v : Word32) : (s.putResult v).digest0 = s.digest0 := rfl
@[simp] theorem State.putResult_dvalid (s : State) (v : Word32) : (s.putResult v).dvalid = s.dvalid := rfl
@[simp] theorem State.putResult_result (s : State) (v : Word32) : (s.putResult v).result = v := rfl
@[simp] theorem State.putResult_err (s : State) (v : Word32) : (s.putResult v).err = s.err := rfl
@[simp] theorem State.putResult_errcode (s : State) (v : Word32) : (s.putResult v).errcode = s.errcode := rfl
@[simp] theorem State.putResult_errcmd (s : State) (v : Word32) : (s.putResult v).errcmd = s.errcmd := rfl
@[simp] theorem State.putResult_ovr (s : State) (v : Word32) : (s.putResult v).ovr = s.ovr := rfl
@[simp] theorem State.putResult_busy (s : State) (v : Word32) : (s.putResult v).busy = s.busy := rfl
@[simp] theorem State.putResult_pend (s : State) (v : Word32) : (s.putResult v).pend = s.pend := rfl
@[simp] theorem State.putResult_win (s : State) (v : Word32) : (s.putResult v).win = s.win := rfl
@[simp] theorem State.putResult_winlen (s : State) (v : Word32) : (s.putResult v).winlen = s.winlen := rfl
@[simp] theorem State.putResult_wout (s : State) (v : Word32) : (s.putResult v).wout = s.wout := rfl
@[simp] theorem State.putResult_woutlen (s : State) (v : Word32) : (s.putResult v).woutlen = s.woutlen := rfl
@[simp] theorem State.putResult_rst (s : State) (v : Word32) : (s.putResult v).rst = s.rst := rfl
@[simp] theorem State.putResult_wlReady (s : State) (v : Word32) : (s.putResult v).wlReady = s.wlReady := rfl
@[simp] theorem State.putResult_wl (s : State) (v : Word32) : (s.putResult v).wl = s.wl := rfl
@[simp] theorem State.putResult_params (s : State) (v : Word32) : (s.putResult v).params = s.params := rfl
@[simp] theorem State.putResult_inputs (s : State) (v : Word32) : (s.putResult v).inputs = s.inputs := rfl
@[simp] theorem State.putResult_reads (s : State) (v : Word32) : (s.putResult v).reads = s.reads := rfl
@[simp] theorem State.putResult_draws (s : State) (v : Word32) : (s.putResult v).draws = s.draws := rfl

/-! ### State.putBuf -/

@[simp] theorem State.putBuf_buf (s : State) (m : Memory) : (s.putBuf m).buf = m := rfl
@[simp] theorem State.putBuf_len (s : State) (m : Memory) : (s.putBuf m).len = s.len := rfl
@[simp] theorem State.putBuf_nwords (s : State) (m : Memory) : (s.putBuf m).nwords = s.nwords := rfl
@[simp] theorem State.putBuf_entlen (s : State) (m : Memory) : (s.putBuf m).entlen = s.entlen := rfl
@[simp] theorem State.putBuf_cslen (s : State) (m : Memory) : (s.putBuf m).cslen = s.cslen := rfl
@[simp] theorem State.putBuf_csmask (s : State) (m : Memory) : (s.putBuf m).csmask = s.csmask := rfl
@[simp] theorem State.putBuf_chk (s : State) (m : Memory) : (s.putBuf m).chk = s.chk := rfl
@[simp] theorem State.putBuf_digest0 (s : State) (m : Memory) : (s.putBuf m).digest0 = s.digest0 := rfl
@[simp] theorem State.putBuf_dvalid (s : State) (m : Memory) : (s.putBuf m).dvalid = s.dvalid := rfl
@[simp] theorem State.putBuf_result (s : State) (m : Memory) : (s.putBuf m).result = s.result := rfl
@[simp] theorem State.putBuf_err (s : State) (m : Memory) : (s.putBuf m).err = s.err := rfl
@[simp] theorem State.putBuf_errcode (s : State) (m : Memory) : (s.putBuf m).errcode = s.errcode := rfl
@[simp] theorem State.putBuf_errcmd (s : State) (m : Memory) : (s.putBuf m).errcmd = s.errcmd := rfl
@[simp] theorem State.putBuf_ovr (s : State) (m : Memory) : (s.putBuf m).ovr = s.ovr := rfl
@[simp] theorem State.putBuf_busy (s : State) (m : Memory) : (s.putBuf m).busy = s.busy := rfl
@[simp] theorem State.putBuf_pend (s : State) (m : Memory) : (s.putBuf m).pend = s.pend := rfl
@[simp] theorem State.putBuf_win (s : State) (m : Memory) : (s.putBuf m).win = s.win := rfl
@[simp] theorem State.putBuf_winlen (s : State) (m : Memory) : (s.putBuf m).winlen = s.winlen := rfl
@[simp] theorem State.putBuf_wout (s : State) (m : Memory) : (s.putBuf m).wout = s.wout := rfl
@[simp] theorem State.putBuf_woutlen (s : State) (m : Memory) : (s.putBuf m).woutlen = s.woutlen := rfl
@[simp] theorem State.putBuf_rst (s : State) (m : Memory) : (s.putBuf m).rst = s.rst := rfl
@[simp] theorem State.putBuf_wlReady (s : State) (m : Memory) : (s.putBuf m).wlReady = s.wlReady := rfl
@[simp] theorem State.putBuf_wl (s : State) (m : Memory) : (s.putBuf m).wl = s.wl := rfl
@[simp] theorem State.putBuf_params (s : State) (m : Memory) : (s.putBuf m).params = s.params := rfl
@[simp] theorem State.putBuf_inputs (s : State) (m : Memory) : (s.putBuf m).inputs = s.inputs := rfl
@[simp] theorem State.putBuf_reads (s : State) (m : Memory) : (s.putBuf m).reads = s.reads := rfl
@[simp] theorem State.putBuf_draws (s : State) (m : Memory) : (s.putBuf m).draws = s.draws := rfl

/-! ### State.recordError -/

@[simp] theorem State.recordError_buf (s : State) (e : ErrCode) : (s.recordError e).buf = s.buf := rfl
@[simp] theorem State.recordError_len (s : State) (e : ErrCode) : (s.recordError e).len = s.len := rfl
@[simp] theorem State.recordError_nwords (s : State) (e : ErrCode) : (s.recordError e).nwords = s.nwords := rfl
@[simp] theorem State.recordError_entlen (s : State) (e : ErrCode) : (s.recordError e).entlen = s.entlen := rfl
@[simp] theorem State.recordError_cslen (s : State) (e : ErrCode) : (s.recordError e).cslen = s.cslen := rfl
@[simp] theorem State.recordError_csmask (s : State) (e : ErrCode) : (s.recordError e).csmask = s.csmask := rfl
@[simp] theorem State.recordError_chk (s : State) (e : ErrCode) : (s.recordError e).chk = s.chk := rfl
@[simp] theorem State.recordError_digest0 (s : State) (e : ErrCode) : (s.recordError e).digest0 = s.digest0 := rfl
@[simp] theorem State.recordError_dvalid (s : State) (e : ErrCode) : (s.recordError e).dvalid = s.dvalid := rfl
@[simp] theorem State.recordError_result (s : State) (e : ErrCode) : (s.recordError e).result = s.result := rfl
@[simp] theorem State.recordError_err (s : State) (e : ErrCode) : (s.recordError e).err = true := rfl
@[simp] theorem State.recordError_errcode (s : State) (e : ErrCode) : (s.recordError e).errcode = e.code := rfl
@[simp] theorem State.recordError_errcmd (s : State) (e : ErrCode) : (s.recordError e).errcmd = s.pend := rfl
@[simp] theorem State.recordError_ovr (s : State) (e : ErrCode) : (s.recordError e).ovr = s.ovr := rfl
@[simp] theorem State.recordError_busy (s : State) (e : ErrCode) : (s.recordError e).busy = s.busy := rfl
@[simp] theorem State.recordError_pend (s : State) (e : ErrCode) : (s.recordError e).pend = s.pend := rfl
@[simp] theorem State.recordError_win (s : State) (e : ErrCode) : (s.recordError e).win = s.win := rfl
@[simp] theorem State.recordError_winlen (s : State) (e : ErrCode) : (s.recordError e).winlen = s.winlen := rfl
@[simp] theorem State.recordError_wout (s : State) (e : ErrCode) : (s.recordError e).wout = s.wout := rfl
@[simp] theorem State.recordError_woutlen (s : State) (e : ErrCode) : (s.recordError e).woutlen = s.woutlen := rfl
@[simp] theorem State.recordError_rst (s : State) (e : ErrCode) : (s.recordError e).rst = s.rst := rfl
@[simp] theorem State.recordError_wlReady (s : State) (e : ErrCode) : (s.recordError e).wlReady = s.wlReady := rfl
@[simp] theorem State.recordError_wl (s : State) (e : ErrCode) : (s.recordError e).wl = s.wl := rfl
@[simp] theorem State.recordError_params (s : State) (e : ErrCode) : (s.recordError e).params = s.params := rfl
@[simp] theorem State.recordError_inputs (s : State) (e : ErrCode) : (s.recordError e).inputs = s.inputs := rfl
@[simp] theorem State.recordError_reads (s : State) (e : ErrCode) : (s.recordError e).reads = s.reads := rfl
@[simp] theorem State.recordError_draws (s : State) (e : ErrCode) : (s.recordError e).draws = s.draws := rfl

/-! ### State.clearError -/

@[simp] theorem State.clearError_buf (s : State) : s.clearError.buf = s.buf := rfl
@[simp] theorem State.clearError_len (s : State) : s.clearError.len = s.len := rfl
@[simp] theorem State.clearError_nwords (s : State) : s.clearError.nwords = s.nwords := rfl
@[simp] theorem State.clearError_entlen (s : State) : s.clearError.entlen = s.entlen := rfl
@[simp] theorem State.clearError_cslen (s : State) : s.clearError.cslen = s.cslen := rfl
@[simp] theorem State.clearError_csmask (s : State) : s.clearError.csmask = s.csmask := rfl
@[simp] theorem State.clearError_chk (s : State) : s.clearError.chk = s.chk := rfl
@[simp] theorem State.clearError_digest0 (s : State) : s.clearError.digest0 = s.digest0 := rfl
@[simp] theorem State.clearError_dvalid (s : State) : s.clearError.dvalid = s.dvalid := rfl
@[simp] theorem State.clearError_result (s : State) : s.clearError.result = s.result := rfl
@[simp] theorem State.clearError_err (s : State) : s.clearError.err = false := rfl
@[simp] theorem State.clearError_errcode (s : State) : s.clearError.errcode = 0 := rfl
@[simp] theorem State.clearError_errcmd (s : State) : s.clearError.errcmd = 0 := rfl
@[simp] theorem State.clearError_ovr (s : State) : s.clearError.ovr = false := rfl
@[simp] theorem State.clearError_busy (s : State) : s.clearError.busy = s.busy := rfl
@[simp] theorem State.clearError_pend (s : State) : s.clearError.pend = s.pend := rfl
@[simp] theorem State.clearError_win (s : State) : s.clearError.win = s.win := rfl
@[simp] theorem State.clearError_winlen (s : State) : s.clearError.winlen = s.winlen := rfl
@[simp] theorem State.clearError_wout (s : State) : s.clearError.wout = s.wout := rfl
@[simp] theorem State.clearError_woutlen (s : State) : s.clearError.woutlen = s.woutlen := rfl
@[simp] theorem State.clearError_rst (s : State) : s.clearError.rst = s.rst := rfl
@[simp] theorem State.clearError_wlReady (s : State) : s.clearError.wlReady = s.wlReady := rfl
@[simp] theorem State.clearError_wl (s : State) : s.clearError.wl = s.wl := rfl
@[simp] theorem State.clearError_params (s : State) : s.clearError.params = s.params := rfl
@[simp] theorem State.clearError_inputs (s : State) : s.clearError.inputs = s.inputs := rfl
@[simp] theorem State.clearError_reads (s : State) : s.clearError.reads = s.reads := rfl
@[simp] theorem State.clearError_draws (s : State) : s.clearError.draws = s.draws := rfl

/-! ### State.complete -/

@[simp] theorem State.complete_buf (s : State) : s.complete.buf = s.buf := rfl
@[simp] theorem State.complete_len (s : State) : s.complete.len = s.len := rfl
@[simp] theorem State.complete_nwords (s : State) : s.complete.nwords = s.nwords := rfl
@[simp] theorem State.complete_entlen (s : State) : s.complete.entlen = s.entlen := rfl
@[simp] theorem State.complete_cslen (s : State) : s.complete.cslen = s.cslen := rfl
@[simp] theorem State.complete_csmask (s : State) : s.complete.csmask = s.csmask := rfl
@[simp] theorem State.complete_chk (s : State) : s.complete.chk = s.chk := rfl
@[simp] theorem State.complete_digest0 (s : State) : s.complete.digest0 = s.digest0 := rfl
@[simp] theorem State.complete_dvalid (s : State) : s.complete.dvalid = s.dvalid := rfl
@[simp] theorem State.complete_result (s : State) : s.complete.result = s.result := rfl
@[simp] theorem State.complete_err (s : State) : s.complete.err = s.err := rfl
@[simp] theorem State.complete_errcode (s : State) : s.complete.errcode = s.errcode := rfl
@[simp] theorem State.complete_errcmd (s : State) : s.complete.errcmd = s.errcmd := rfl
@[simp] theorem State.complete_ovr (s : State) : s.complete.ovr = s.ovr := rfl
@[simp] theorem State.complete_busy (s : State) : s.complete.busy = false := rfl
@[simp] theorem State.complete_pend (s : State) : s.complete.pend = s.pend := rfl
@[simp] theorem State.complete_win (s : State) : s.complete.win = s.win := rfl
@[simp] theorem State.complete_winlen (s : State) : s.complete.winlen = s.winlen := rfl
@[simp] theorem State.complete_wout (s : State) : s.complete.wout = s.wout := rfl
@[simp] theorem State.complete_woutlen (s : State) : s.complete.woutlen = s.woutlen := rfl
@[simp] theorem State.complete_rst (s : State) : s.complete.rst = s.rst := rfl
@[simp] theorem State.complete_wlReady (s : State) : s.complete.wlReady = s.wlReady := rfl
@[simp] theorem State.complete_wl (s : State) : s.complete.wl = s.wl := rfl
@[simp] theorem State.complete_params (s : State) : s.complete.params = s.params := rfl
@[simp] theorem State.complete_inputs (s : State) : s.complete.inputs = s.inputs := rfl
@[simp] theorem State.complete_reads (s : State) : s.complete.reads = s.reads := rfl
@[simp] theorem State.complete_draws (s : State) : s.complete.draws = s.draws := rfl

/-! ### State.newBuffer -/

@[simp] theorem State.newBuffer_buf (s : State) (l n e : Nat) : (s.newBuffer l n e).buf = [] := rfl
@[simp] theorem State.newBuffer_len (s : State) (l n e : Nat) : (s.newBuffer l n e).len = BitVec.ofNat 8 l := rfl
@[simp] theorem State.newBuffer_nwords (s : State) (l n e : Nat) : (s.newBuffer l n e).nwords = BitVec.ofNat 8 n := rfl
@[simp] theorem State.newBuffer_entlen (s : State) (l n e : Nat) : (s.newBuffer l n e).entlen = BitVec.ofNat 8 e := rfl
@[simp] theorem State.newBuffer_cslen (s : State) (l n e : Nat) : (s.newBuffer l n e).cslen = 0 := rfl
@[simp] theorem State.newBuffer_csmask (s : State) (l n e : Nat) : (s.newBuffer l n e).csmask = 0 := rfl
@[simp] theorem State.newBuffer_chk (s : State) (l n e : Nat) : (s.newBuffer l n e).chk = 0 := rfl
@[simp] theorem State.newBuffer_digest0 (s : State) (l n e : Nat) : (s.newBuffer l n e).digest0 = s.digest0 := rfl
@[simp] theorem State.newBuffer_dvalid (s : State) (l n e : Nat) : (s.newBuffer l n e).dvalid = s.dvalid := rfl
@[simp] theorem State.newBuffer_result (s : State) (l n e : Nat) : (s.newBuffer l n e).result = s.result := rfl
@[simp] theorem State.newBuffer_err (s : State) (l n e : Nat) : (s.newBuffer l n e).err = s.err := rfl
@[simp] theorem State.newBuffer_errcode (s : State) (l n e : Nat) : (s.newBuffer l n e).errcode = s.errcode := rfl
@[simp] theorem State.newBuffer_errcmd (s : State) (l n e : Nat) : (s.newBuffer l n e).errcmd = s.errcmd := rfl
@[simp] theorem State.newBuffer_ovr (s : State) (l n e : Nat) : (s.newBuffer l n e).ovr = s.ovr := rfl
@[simp] theorem State.newBuffer_busy (s : State) (l n e : Nat) : (s.newBuffer l n e).busy = s.busy := rfl
@[simp] theorem State.newBuffer_pend (s : State) (l n e : Nat) : (s.newBuffer l n e).pend = s.pend := rfl
@[simp] theorem State.newBuffer_win (s : State) (l n e : Nat) : (s.newBuffer l n e).win = s.win := rfl
@[simp] theorem State.newBuffer_winlen (s : State) (l n e : Nat) : (s.newBuffer l n e).winlen = s.winlen := rfl
@[simp] theorem State.newBuffer_wout (s : State) (l n e : Nat) : (s.newBuffer l n e).wout = s.wout := rfl
@[simp] theorem State.newBuffer_woutlen (s : State) (l n e : Nat) : (s.newBuffer l n e).woutlen = s.woutlen := rfl
@[simp] theorem State.newBuffer_rst (s : State) (l n e : Nat) : (s.newBuffer l n e).rst = s.rst := rfl
@[simp] theorem State.newBuffer_wlReady (s : State) (l n e : Nat) : (s.newBuffer l n e).wlReady = s.wlReady := rfl
@[simp] theorem State.newBuffer_wl (s : State) (l n e : Nat) : (s.newBuffer l n e).wl = s.wl := rfl
@[simp] theorem State.newBuffer_params (s : State) (l n e : Nat) : (s.newBuffer l n e).params = s.params := rfl
@[simp] theorem State.newBuffer_inputs (s : State) (l n e : Nat) : (s.newBuffer l n e).inputs = s.inputs := rfl
@[simp] theorem State.newBuffer_reads (s : State) (l n e : Nat) : (s.newBuffer l n e).reads = s.reads := rfl
@[simp] theorem State.newBuffer_draws (s : State) (l n e : Nat) : (s.newBuffer l n e).draws = s.draws := rfl

/-! ### State.appendChecksum -/

@[simp] theorem State.appendChecksum_buf (s : State) (n : Nat) (mask : Byte) : (s.appendChecksum n mask).buf = s.buf.write n (s.digest0 &&& mask) := rfl
@[simp] theorem State.appendChecksum_len (s : State) (n : Nat) (mask : Byte) : (s.appendChecksum n mask).len = BitVec.ofNat 8 (n + 1) := rfl
@[simp] theorem State.appendChecksum_nwords (s : State) (n : Nat) (mask : Byte) : (s.appendChecksum n mask).nwords = BitVec.ofNat 8 (wordCount (8 * n)) := rfl
@[simp] theorem State.appendChecksum_entlen (s : State) (n : Nat) (mask : Byte) : (s.appendChecksum n mask).entlen = BitVec.ofNat 8 n := rfl
@[simp] theorem State.appendChecksum_cslen (s : State) (n : Nat) (mask : Byte) : (s.appendChecksum n mask).cslen = BitVec.ofNat 4 (checksumLength (8 * n)) := rfl
@[simp] theorem State.appendChecksum_csmask (s : State) (n : Nat) (mask : Byte) : (s.appendChecksum n mask).csmask = mask := rfl
@[simp] theorem State.appendChecksum_chk (s : State) (n : Nat) (mask : Byte) : (s.appendChecksum n mask).chk = s.digest0 &&& mask := rfl
@[simp] theorem State.appendChecksum_digest0 (s : State) (n : Nat) (mask : Byte) : (s.appendChecksum n mask).digest0 = s.digest0 := rfl
@[simp] theorem State.appendChecksum_dvalid (s : State) (n : Nat) (mask : Byte) : (s.appendChecksum n mask).dvalid = false := rfl
@[simp] theorem State.appendChecksum_result (s : State) (n : Nat) (mask : Byte) : (s.appendChecksum n mask).result = BitVec.ofNat 32 (wordCount (8 * n)) := rfl
@[simp] theorem State.appendChecksum_err (s : State) (n : Nat) (mask : Byte) : (s.appendChecksum n mask).err = s.err := rfl
@[simp] theorem State.appendChecksum_errcode (s : State) (n : Nat) (mask : Byte) : (s.appendChecksum n mask).errcode = s.errcode := rfl
@[simp] theorem State.appendChecksum_errcmd (s : State) (n : Nat) (mask : Byte) : (s.appendChecksum n mask).errcmd = s.errcmd := rfl
@[simp] theorem State.appendChecksum_ovr (s : State) (n : Nat) (mask : Byte) : (s.appendChecksum n mask).ovr = s.ovr := rfl
@[simp] theorem State.appendChecksum_busy (s : State) (n : Nat) (mask : Byte) : (s.appendChecksum n mask).busy = s.busy := rfl
@[simp] theorem State.appendChecksum_pend (s : State) (n : Nat) (mask : Byte) : (s.appendChecksum n mask).pend = s.pend := rfl
@[simp] theorem State.appendChecksum_win (s : State) (n : Nat) (mask : Byte) : (s.appendChecksum n mask).win = s.win := rfl
@[simp] theorem State.appendChecksum_winlen (s : State) (n : Nat) (mask : Byte) : (s.appendChecksum n mask).winlen = s.winlen := rfl
@[simp] theorem State.appendChecksum_wout (s : State) (n : Nat) (mask : Byte) : (s.appendChecksum n mask).wout = s.wout := rfl
@[simp] theorem State.appendChecksum_woutlen (s : State) (n : Nat) (mask : Byte) : (s.appendChecksum n mask).woutlen = s.woutlen := rfl
@[simp] theorem State.appendChecksum_rst (s : State) (n : Nat) (mask : Byte) : (s.appendChecksum n mask).rst = s.rst := rfl
@[simp] theorem State.appendChecksum_wlReady (s : State) (n : Nat) (mask : Byte) : (s.appendChecksum n mask).wlReady = s.wlReady := rfl
@[simp] theorem State.appendChecksum_wl (s : State) (n : Nat) (mask : Byte) : (s.appendChecksum n mask).wl = s.wl := rfl
@[simp] theorem State.appendChecksum_params (s : State) (n : Nat) (mask : Byte) : (s.appendChecksum n mask).params = s.params := rfl
@[simp] theorem State.appendChecksum_inputs (s : State) (n : Nat) (mask : Byte) : (s.appendChecksum n mask).inputs = s.inputs := rfl
@[simp] theorem State.appendChecksum_reads (s : State) (n : Nat) (mask : Byte) : (s.appendChecksum n mask).reads = s.reads := rfl
@[simp] theorem State.appendChecksum_draws (s : State) (n : Nat) (mask : Byte) : (s.appendChecksum n mask).draws = s.draws := rfl

/-! ### State.putWout -/

@[simp] theorem State.putWout_buf (s : State) (w : WlWord) : (s.putWout w).buf = s.buf := rfl
@[simp] theorem State.putWout_len (s : State) (w : WlWord) : (s.putWout w).len = s.len := rfl
@[simp] theorem State.putWout_nwords (s : State) (w : WlWord) : (s.putWout w).nwords = s.nwords := rfl
@[simp] theorem State.putWout_entlen (s : State) (w : WlWord) : (s.putWout w).entlen = s.entlen := rfl
@[simp] theorem State.putWout_cslen (s : State) (w : WlWord) : (s.putWout w).cslen = s.cslen := rfl
@[simp] theorem State.putWout_csmask (s : State) (w : WlWord) : (s.putWout w).csmask = s.csmask := rfl
@[simp] theorem State.putWout_chk (s : State) (w : WlWord) : (s.putWout w).chk = s.chk := rfl
@[simp] theorem State.putWout_digest0 (s : State) (w : WlWord) : (s.putWout w).digest0 = s.digest0 := rfl
@[simp] theorem State.putWout_dvalid (s : State) (w : WlWord) : (s.putWout w).dvalid = s.dvalid := rfl
@[simp] theorem State.putWout_result (s : State) (w : WlWord) : (s.putWout w).result = s.result := rfl
@[simp] theorem State.putWout_err (s : State) (w : WlWord) : (s.putWout w).err = s.err := rfl
@[simp] theorem State.putWout_errcode (s : State) (w : WlWord) : (s.putWout w).errcode = s.errcode := rfl
@[simp] theorem State.putWout_errcmd (s : State) (w : WlWord) : (s.putWout w).errcmd = s.errcmd := rfl
@[simp] theorem State.putWout_ovr (s : State) (w : WlWord) : (s.putWout w).ovr = s.ovr := rfl
@[simp] theorem State.putWout_busy (s : State) (w : WlWord) : (s.putWout w).busy = s.busy := rfl
@[simp] theorem State.putWout_pend (s : State) (w : WlWord) : (s.putWout w).pend = s.pend := rfl
@[simp] theorem State.putWout_win (s : State) (w : WlWord) : (s.putWout w).win = s.win := rfl
@[simp] theorem State.putWout_winlen (s : State) (w : WlWord) : (s.putWout w).winlen = s.winlen := rfl
@[simp] theorem State.putWout_wout (s : State) (w : WlWord) : (s.putWout w).wout = padded s.params.wmax w := rfl
@[simp] theorem State.putWout_woutlen (s : State) (w : WlWord) : (s.putWout w).woutlen = BitVec.ofNat 7 w.length := rfl
@[simp] theorem State.putWout_rst (s : State) (w : WlWord) : (s.putWout w).rst = s.rst := rfl
@[simp] theorem State.putWout_wlReady (s : State) (w : WlWord) : (s.putWout w).wlReady = s.wlReady := rfl
@[simp] theorem State.putWout_wl (s : State) (w : WlWord) : (s.putWout w).wl = s.wl := rfl
@[simp] theorem State.putWout_params (s : State) (w : WlWord) : (s.putWout w).params = s.params := rfl
@[simp] theorem State.putWout_inputs (s : State) (w : WlWord) : (s.putWout w).inputs = s.inputs := rfl
@[simp] theorem State.putWout_reads (s : State) (w : WlWord) : (s.putWout w).reads = s.reads := rfl
@[simp] theorem State.putWout_draws (s : State) (w : WlWord) : (s.putWout w).draws = s.draws := rfl

/-! ### State.withInputs -/

@[simp] theorem State.withInputs_buf (s : State) (l : List Input) : (s.withInputs l).buf = s.buf := rfl
@[simp] theorem State.withInputs_len (s : State) (l : List Input) : (s.withInputs l).len = s.len := rfl
@[simp] theorem State.withInputs_nwords (s : State) (l : List Input) : (s.withInputs l).nwords = s.nwords := rfl
@[simp] theorem State.withInputs_entlen (s : State) (l : List Input) : (s.withInputs l).entlen = s.entlen := rfl
@[simp] theorem State.withInputs_cslen (s : State) (l : List Input) : (s.withInputs l).cslen = s.cslen := rfl
@[simp] theorem State.withInputs_csmask (s : State) (l : List Input) : (s.withInputs l).csmask = s.csmask := rfl
@[simp] theorem State.withInputs_chk (s : State) (l : List Input) : (s.withInputs l).chk = s.chk := rfl
@[simp] theorem State.withInputs_digest0 (s : State) (l : List Input) : (s.withInputs l).digest0 = s.digest0 := rfl
@[simp] theorem State.withInputs_dvalid (s : State) (l : List Input) : (s.withInputs l).dvalid = s.dvalid := rfl
@[simp] theorem State.withInputs_result (s : State) (l : List Input) : (s.withInputs l).result = s.result := rfl
@[simp] theorem State.withInputs_err (s : State) (l : List Input) : (s.withInputs l).err = s.err := rfl
@[simp] theorem State.withInputs_errcode (s : State) (l : List Input) : (s.withInputs l).errcode = s.errcode := rfl
@[simp] theorem State.withInputs_errcmd (s : State) (l : List Input) : (s.withInputs l).errcmd = s.errcmd := rfl
@[simp] theorem State.withInputs_ovr (s : State) (l : List Input) : (s.withInputs l).ovr = s.ovr := rfl
@[simp] theorem State.withInputs_busy (s : State) (l : List Input) : (s.withInputs l).busy = s.busy := rfl
@[simp] theorem State.withInputs_pend (s : State) (l : List Input) : (s.withInputs l).pend = s.pend := rfl
@[simp] theorem State.withInputs_win (s : State) (l : List Input) : (s.withInputs l).win = s.win := rfl
@[simp] theorem State.withInputs_winlen (s : State) (l : List Input) : (s.withInputs l).winlen = s.winlen := rfl
@[simp] theorem State.withInputs_wout (s : State) (l : List Input) : (s.withInputs l).wout = s.wout := rfl
@[simp] theorem State.withInputs_woutlen (s : State) (l : List Input) : (s.withInputs l).woutlen = s.woutlen := rfl
@[simp] theorem State.withInputs_rst (s : State) (l : List Input) : (s.withInputs l).rst = s.rst := rfl
@[simp] theorem State.withInputs_wlReady (s : State) (l : List Input) : (s.withInputs l).wlReady = s.wlReady := rfl
@[simp] theorem State.withInputs_wl (s : State) (l : List Input) : (s.withInputs l).wl = s.wl := rfl
@[simp] theorem State.withInputs_params (s : State) (l : List Input) : (s.withInputs l).params = s.params := rfl
@[simp] theorem State.withInputs_inputs (s : State) (l : List Input) : (s.withInputs l).inputs = l := rfl
@[simp] theorem State.withInputs_reads (s : State) (l : List Input) : (s.withInputs l).reads = s.reads := rfl
@[simp] theorem State.withInputs_draws (s : State) (l : List Input) : (s.withInputs l).draws = s.draws := rfl

/-! ### State.pushRead -/

@[simp] theorem State.pushRead_buf (s : State) (v : Word32) : (s.pushRead v).buf = s.buf := rfl
@[simp] theorem State.pushRead_len (s : State) (v : Word32) : (s.pushRead v).len = s.len := rfl
@[simp] theorem State.pushRead_nwords (s : State) (v : Word32) : (s.pushRead v).nwords = s.nwords := rfl
@[simp] theorem State.pushRead_entlen (s : State) (v : Word32) : (s.pushRead v).entlen = s.entlen := rfl
@[simp] theorem State.pushRead_cslen (s : State) (v : Word32) : (s.pushRead v).cslen = s.cslen := rfl
@[simp] theorem State.pushRead_csmask (s : State) (v : Word32) : (s.pushRead v).csmask = s.csmask := rfl
@[simp] theorem State.pushRead_chk (s : State) (v : Word32) : (s.pushRead v).chk = s.chk := rfl
@[simp] theorem State.pushRead_digest0 (s : State) (v : Word32) : (s.pushRead v).digest0 = s.digest0 := rfl
@[simp] theorem State.pushRead_dvalid (s : State) (v : Word32) : (s.pushRead v).dvalid = s.dvalid := rfl
@[simp] theorem State.pushRead_result (s : State) (v : Word32) : (s.pushRead v).result = s.result := rfl
@[simp] theorem State.pushRead_err (s : State) (v : Word32) : (s.pushRead v).err = s.err := rfl
@[simp] theorem State.pushRead_errcode (s : State) (v : Word32) : (s.pushRead v).errcode = s.errcode := rfl
@[simp] theorem State.pushRead_errcmd (s : State) (v : Word32) : (s.pushRead v).errcmd = s.errcmd := rfl
@[simp] theorem State.pushRead_ovr (s : State) (v : Word32) : (s.pushRead v).ovr = s.ovr := rfl
@[simp] theorem State.pushRead_busy (s : State) (v : Word32) : (s.pushRead v).busy = s.busy := rfl
@[simp] theorem State.pushRead_pend (s : State) (v : Word32) : (s.pushRead v).pend = s.pend := rfl
@[simp] theorem State.pushRead_win (s : State) (v : Word32) : (s.pushRead v).win = s.win := rfl
@[simp] theorem State.pushRead_winlen (s : State) (v : Word32) : (s.pushRead v).winlen = s.winlen := rfl
@[simp] theorem State.pushRead_wout (s : State) (v : Word32) : (s.pushRead v).wout = s.wout := rfl
@[simp] theorem State.pushRead_woutlen (s : State) (v : Word32) : (s.pushRead v).woutlen = s.woutlen := rfl
@[simp] theorem State.pushRead_rst (s : State) (v : Word32) : (s.pushRead v).rst = s.rst := rfl
@[simp] theorem State.pushRead_wlReady (s : State) (v : Word32) : (s.pushRead v).wlReady = s.wlReady := rfl
@[simp] theorem State.pushRead_wl (s : State) (v : Word32) : (s.pushRead v).wl = s.wl := rfl
@[simp] theorem State.pushRead_params (s : State) (v : Word32) : (s.pushRead v).params = s.params := rfl
@[simp] theorem State.pushRead_inputs (s : State) (v : Word32) : (s.pushRead v).inputs = s.inputs := rfl
@[simp] theorem State.pushRead_reads (s : State) (v : Word32) : (s.pushRead v).reads = v :: s.reads := rfl
@[simp] theorem State.pushRead_draws (s : State) (v : Word32) : (s.pushRead v).draws = s.draws := rfl

/-! ### State.inFlight -/

@[simp] theorem State.inFlight_buf (s : State) (c : Word32) : (s.inFlight c).buf = s.buf := rfl
@[simp] theorem State.inFlight_len (s : State) (c : Word32) : (s.inFlight c).len = s.len := rfl
@[simp] theorem State.inFlight_nwords (s : State) (c : Word32) : (s.inFlight c).nwords = s.nwords := rfl
@[simp] theorem State.inFlight_entlen (s : State) (c : Word32) : (s.inFlight c).entlen = s.entlen := rfl
@[simp] theorem State.inFlight_cslen (s : State) (c : Word32) : (s.inFlight c).cslen = s.cslen := rfl
@[simp] theorem State.inFlight_csmask (s : State) (c : Word32) : (s.inFlight c).csmask = s.csmask := rfl
@[simp] theorem State.inFlight_chk (s : State) (c : Word32) : (s.inFlight c).chk = s.chk := rfl
@[simp] theorem State.inFlight_digest0 (s : State) (c : Word32) : (s.inFlight c).digest0 = s.digest0 := rfl
@[simp] theorem State.inFlight_dvalid (s : State) (c : Word32) : (s.inFlight c).dvalid = s.dvalid := rfl
@[simp] theorem State.inFlight_result (s : State) (c : Word32) : (s.inFlight c).result = s.result := rfl
@[simp] theorem State.inFlight_err (s : State) (c : Word32) : (s.inFlight c).err = s.err := rfl
@[simp] theorem State.inFlight_errcode (s : State) (c : Word32) : (s.inFlight c).errcode = s.errcode := rfl
@[simp] theorem State.inFlight_errcmd (s : State) (c : Word32) : (s.inFlight c).errcmd = s.errcmd := rfl
@[simp] theorem State.inFlight_ovr (s : State) (c : Word32) : (s.inFlight c).ovr = s.ovr := rfl
@[simp] theorem State.inFlight_busy (s : State) (c : Word32) : (s.inFlight c).busy = true := rfl
@[simp] theorem State.inFlight_pend (s : State) (c : Word32) : (s.inFlight c).pend = c := rfl
@[simp] theorem State.inFlight_win (s : State) (c : Word32) : (s.inFlight c).win = s.win := rfl
@[simp] theorem State.inFlight_winlen (s : State) (c : Word32) : (s.inFlight c).winlen = s.winlen := rfl
@[simp] theorem State.inFlight_wout (s : State) (c : Word32) : (s.inFlight c).wout = s.wout := rfl
@[simp] theorem State.inFlight_woutlen (s : State) (c : Word32) : (s.inFlight c).woutlen = s.woutlen := rfl
@[simp] theorem State.inFlight_rst (s : State) (c : Word32) : (s.inFlight c).rst = false := rfl
@[simp] theorem State.inFlight_wlReady (s : State) (c : Word32) : (s.inFlight c).wlReady = s.wlReady := rfl
@[simp] theorem State.inFlight_wl (s : State) (c : Word32) : (s.inFlight c).wl = s.wl := rfl
@[simp] theorem State.inFlight_params (s : State) (c : Word32) : (s.inFlight c).params = s.params := rfl
@[simp] theorem State.inFlight_inputs (s : State) (c : Word32) : (s.inFlight c).inputs = .engine :: s.inputs := rfl
@[simp] theorem State.inFlight_reads (s : State) (c : Word32) : (s.inFlight c).reads = s.reads := rfl
@[simp] theorem State.inFlight_draws (s : State) (c : Word32) : (s.inFlight c).draws = s.draws := rfl

/-! ### State.underReset -/

@[simp] theorem State.underReset_buf (s : State) (level : Bool) : (s.underReset level).buf = [] := rfl
@[simp] theorem State.underReset_len (s : State) (level : Bool) : (s.underReset level).len = 0 := rfl
@[simp] theorem State.underReset_nwords (s : State) (level : Bool) : (s.underReset level).nwords = 0 := rfl
@[simp] theorem State.underReset_entlen (s : State) (level : Bool) : (s.underReset level).entlen = 0 := rfl
@[simp] theorem State.underReset_cslen (s : State) (level : Bool) : (s.underReset level).cslen = 0 := rfl
@[simp] theorem State.underReset_csmask (s : State) (level : Bool) : (s.underReset level).csmask = 0 := rfl
@[simp] theorem State.underReset_chk (s : State) (level : Bool) : (s.underReset level).chk = 0 := rfl
@[simp] theorem State.underReset_digest0 (s : State) (level : Bool) : (s.underReset level).digest0 = 0 := rfl
@[simp] theorem State.underReset_dvalid (s : State) (level : Bool) : (s.underReset level).dvalid = false := rfl
@[simp] theorem State.underReset_result (s : State) (level : Bool) : (s.underReset level).result = 0 := rfl
@[simp] theorem State.underReset_err (s : State) (level : Bool) : (s.underReset level).err = false := rfl
@[simp] theorem State.underReset_errcode (s : State) (level : Bool) : (s.underReset level).errcode = 0 := rfl
@[simp] theorem State.underReset_errcmd (s : State) (level : Bool) : (s.underReset level).errcmd = 0 := rfl
@[simp] theorem State.underReset_ovr (s : State) (level : Bool) : (s.underReset level).ovr = false := rfl
@[simp] theorem State.underReset_busy (s : State) (level : Bool) : (s.underReset level).busy = false := rfl
@[simp] theorem State.underReset_pend (s : State) (level : Bool) : (s.underReset level).pend = 0 := rfl
@[simp] theorem State.underReset_win (s : State) (level : Bool) : (s.underReset level).win = List.replicate s.params.wmax 0 := rfl
@[simp] theorem State.underReset_winlen (s : State) (level : Bool) : (s.underReset level).winlen = 0 := rfl
@[simp] theorem State.underReset_wout (s : State) (level : Bool) : (s.underReset level).wout = List.replicate s.params.wmax 0 := rfl
@[simp] theorem State.underReset_woutlen (s : State) (level : Bool) : (s.underReset level).woutlen = 0 := rfl
@[simp] theorem State.underReset_rst (s : State) (level : Bool) : (s.underReset level).rst = level := rfl
@[simp] theorem State.underReset_wlReady (s : State) (level : Bool) : (s.underReset level).wlReady = s.wlReady := rfl
@[simp] theorem State.underReset_wl (s : State) (level : Bool) : (s.underReset level).wl = s.wl := rfl
@[simp] theorem State.underReset_params (s : State) (level : Bool) : (s.underReset level).params = s.params := rfl
@[simp] theorem State.underReset_inputs (s : State) (level : Bool) : (s.underReset level).inputs = s.inputs := rfl
@[simp] theorem State.underReset_reads (s : State) (level : Bool) : (s.underReset level).reads = s.reads := rfl
@[simp] theorem State.underReset_draws (s : State) (level : Bool) : (s.underReset level).draws = s.draws := rfl

/-! ### The launch state -/

@[simp] theorem State.launch_buf (p : Params) (wl : List WlWord) (r : Bool) :
    (State.launch p wl r).buf = [] := rfl
@[simp] theorem State.launch_len (p : Params) (wl : List WlWord) (r : Bool) :
    (State.launch p wl r).len = 0 := rfl
@[simp] theorem State.launch_nwords (p : Params) (wl : List WlWord) (r : Bool) :
    (State.launch p wl r).nwords = 0 := rfl
@[simp] theorem State.launch_entlen (p : Params) (wl : List WlWord) (r : Bool) :
    (State.launch p wl r).entlen = 0 := rfl
@[simp] theorem State.launch_cslen (p : Params) (wl : List WlWord) (r : Bool) :
    (State.launch p wl r).cslen = 0 := rfl
@[simp] theorem State.launch_csmask (p : Params) (wl : List WlWord) (r : Bool) :
    (State.launch p wl r).csmask = 0 := rfl
@[simp] theorem State.launch_chk (p : Params) (wl : List WlWord) (r : Bool) :
    (State.launch p wl r).chk = 0 := rfl
@[simp] theorem State.launch_digest0 (p : Params) (wl : List WlWord) (r : Bool) :
    (State.launch p wl r).digest0 = 0 := rfl
@[simp] theorem State.launch_dvalid (p : Params) (wl : List WlWord) (r : Bool) :
    (State.launch p wl r).dvalid = false := rfl
@[simp] theorem State.launch_result (p : Params) (wl : List WlWord) (r : Bool) :
    (State.launch p wl r).result = 0 := rfl
@[simp] theorem State.launch_err (p : Params) (wl : List WlWord) (r : Bool) :
    (State.launch p wl r).err = false := rfl
@[simp] theorem State.launch_errcode (p : Params) (wl : List WlWord) (r : Bool) :
    (State.launch p wl r).errcode = 0 := rfl
@[simp] theorem State.launch_errcmd (p : Params) (wl : List WlWord) (r : Bool) :
    (State.launch p wl r).errcmd = 0 := rfl
@[simp] theorem State.launch_ovr (p : Params) (wl : List WlWord) (r : Bool) :
    (State.launch p wl r).ovr = false := rfl
@[simp] theorem State.launch_busy (p : Params) (wl : List WlWord) (r : Bool) :
    (State.launch p wl r).busy = false := rfl
@[simp] theorem State.launch_pend (p : Params) (wl : List WlWord) (r : Bool) :
    (State.launch p wl r).pend = 0 := rfl
@[simp] theorem State.launch_win (p : Params) (wl : List WlWord) (r : Bool) :
    (State.launch p wl r).win = List.replicate p.wmax 0 := rfl
@[simp] theorem State.launch_winlen (p : Params) (wl : List WlWord) (r : Bool) :
    (State.launch p wl r).winlen = 0 := rfl
@[simp] theorem State.launch_wout (p : Params) (wl : List WlWord) (r : Bool) :
    (State.launch p wl r).wout = List.replicate p.wmax 0 := rfl
@[simp] theorem State.launch_woutlen (p : Params) (wl : List WlWord) (r : Bool) :
    (State.launch p wl r).woutlen = 0 := rfl
@[simp] theorem State.launch_rst (p : Params) (wl : List WlWord) (r : Bool) :
    (State.launch p wl r).rst = false := rfl
@[simp] theorem State.launch_wlReady (p : Params) (wl : List WlWord) (r : Bool) :
    (State.launch p wl r).wlReady = r := rfl
@[simp] theorem State.launch_wl (p : Params) (wl : List WlWord) (r : Bool) :
    (State.launch p wl r).wl = wl := rfl
@[simp] theorem State.launch_params (p : Params) (wl : List WlWord) (r : Bool) :
    (State.launch p wl r).params = p := rfl
@[simp] theorem State.launch_inputs (p : Params) (wl : List WlWord) (r : Bool) :
    (State.launch p wl r).inputs = [] := rfl
@[simp] theorem State.launch_reads (p : Params) (wl : List WlWord) (r : Bool) :
    (State.launch p wl r).reads = [] := rfl
@[simp] theorem State.launch_draws (p : Params) (wl : List WlWord) (r : Bool) :
    (State.launch p wl r).draws = 0 := rfl

end Sys2Proof.Machine
end

