-- ==== Sys2Proof/Laws/Memory.lean ====
section
/-! SUPPORT. The laws of byte access: a read after a write, and that every operation keeps the canonical form. -/

namespace Sys2Proof.Machine

@[simp] theorem Memory.read_nil (a : Nat) : Memory.read [] a = 0 := rfl

theorem Memory.read_cons (b : Nat) (v : Byte) (m : Memory) (a : Nat) :
    Memory.read ((b, v) :: m) a = if a = b then v else Memory.read m a := rfl

theorem Memory.read_insert (m : Memory) (a : Nat) (v : Byte) (x : Nat) :
    (Memory.insert m a v).read x = if x = a then v else m.read x := by
  induction m with
  | nil => rfl
  | cons c m ih =>
    obtain ⟨b, u⟩ := c
    simp only [Memory.insert]
    by_cases hlt : a < b
    · simp only [hlt, if_true, Memory.read_cons]
    · by_cases heq : a = b
      · subst heq
        simp only [lt_irrefl, if_false, if_true, Memory.read_cons]
        split <;> rfl
      · simp only [hlt, heq, if_false, Memory.read_cons, ih]
        by_cases hx : x = b
        · subst hx
          simp [Ne.symm heq]
        · simp [hx]

theorem Memory.read_erase (m : Memory) (a x : Nat) :
    (Memory.erase m a).read x = if x = a then 0 else m.read x := by
  induction m with
  | nil => simp [Memory.erase]
  | cons c m ih =>
    obtain ⟨b, u⟩ := c
    simp only [Memory.erase] at ih ⊢
    by_cases hb : b = a
    · subst hb
      simp only [List.filter_cons, bne_self_eq_false, Bool.false_eq_true, if_false, ih, Memory.read_cons]
      split <;> rfl
    · simp only [List.filter_cons, bne_iff_ne, ne_eq, hb, not_false_eq_true, if_true, Memory.read_cons, ih]
      by_cases hx : x = b
      · subst hx
        simp [hb]
      · simp [hx]

/-- A read after a write: the value written at that address, and every other byte as before. -/
theorem Memory.read_write (m : Memory) (a : Nat) (v : Byte) (x : Nat) :
    (m.write a v).read x = if x = a then v else m.read x := by
  unfold Memory.write
  split
  · next h => rw [Memory.read_erase, h]
  · exact Memory.read_insert m a v x

theorem Memory.wf_nil : Memory.wf [] := ⟨List.Pairwise.nil, by simp⟩

theorem Memory.mem_insert {m : Memory} {a : Nat} {v : Byte} {c : Host.Cell}
    (h : c ∈ Memory.insert m a v) : c = (a, v) ∨ c ∈ m := by
  induction m with
  | nil => simpa [Memory.insert] using h
  | cons d m ih =>
    obtain ⟨b, u⟩ := d
    simp only [Memory.insert] at h
    split at h
    · simpa using h
    · split at h
      · rcases List.mem_cons.1 h with h | h
        · exact .inl h
        · exact .inr (List.mem_cons_of_mem _ h)
      · rcases List.mem_cons.1 h with h | h
        · exact .inr (h ▸ List.mem_cons_self)
        · exact (ih h).imp id (List.mem_cons_of_mem _)

theorem Memory.wf_insert {m : Memory} {a : Nat} {v : Byte} (h : Memory.wf m) (hv : v ≠ 0) :
    Memory.wf (Memory.insert m a v) := by
  refine ⟨?_, fun c hc => (Memory.mem_insert hc).elim (fun e => e ▸ hv) (h.2 c)⟩
  have hs := h.1
  clear h
  induction m with
  | nil => exact List.pairwise_singleton _ _
  | cons d m ih =>
    obtain ⟨b, u⟩ := d
    have hbm := (List.pairwise_cons.1 hs).1
    have hsm := (List.pairwise_cons.1 hs).2
    simp only [Memory.insert]
    split
    · next hlt =>
      refine List.pairwise_cons.2 ⟨fun c hc => ?_, hs⟩
      rcases List.mem_cons.1 hc with rfl | hc
      · exact hlt
      · exact lt_trans hlt (hbm c hc)
    · split
      · next heq =>
        subst heq
        exact List.pairwise_cons.2 ⟨hbm, hsm⟩
      · next hlt hne =>
        refine List.pairwise_cons.2 ⟨fun c hc => ?_, ih hsm⟩
        rcases Memory.mem_insert hc with rfl | hc
        · exact lt_of_le_of_ne (not_lt.1 hlt) (Ne.symm hne)
        · exact hbm c hc

/-- A write keeps the canonical form. -/
theorem Memory.wf_write {m : Memory} (h : Memory.wf m) (a : Nat) (v : Byte) : Memory.wf (m.write a v) := by
  unfold Memory.write
  split
  · exact ⟨h.1.filter _, fun c hc => h.2 c (List.mem_of_mem_filter hc)⟩
  · next hv => exact Memory.wf_insert h hv

/-- A write to an address that exists lists none that does not. -/
theorem Memory.below_write {m : Memory} {n : Nat} (h : Memory.below m n) {a : Nat} (ha : a < n) (v : Byte) :
    Memory.below (m.write a v) n := by
  unfold Memory.write
  split
  · exact fun c hc => h c (List.mem_of_mem_filter hc)
  · exact fun c hc => (Memory.mem_insert hc).elim (fun e => e ▸ ha) (h c)

theorem Memory.read_eq_zero_of_lt {m : Memory} {a : Nat} (h : ∀ c ∈ m, a < c.1) : m.read a = 0 := by
  induction m with
  | nil => rfl
  | cons d m ih =>
    obtain ⟨b, u⟩ := d
    have hb : a < b := h (b, u) List.mem_cons_self
    rw [Memory.read_cons, if_neg (Nat.ne_of_lt hb)]
    exact ih fun c hc => h c (List.mem_cons_of_mem _ hc)

/-- A byte at or above every listed address reads 0x00. -/
theorem Memory.read_eq_zero_of_below {m : Memory} {n a : Nat} (h : m.below n) (ha : n ≤ a) : m.read a = 0 := by
  induction m with
  | nil => rfl
  | cons d m ih =>
    obtain ⟨b, u⟩ := d
    have hb : b < n := h (b, u) List.mem_cons_self
    rw [Memory.read_cons, if_neg (by omega)]
    exact ih fun c hc => h c (List.mem_cons_of_mem _ hc)

/-- Equal contents in canonical form are equal data. -/
theorem Memory.ext_of_wf {m m' : Memory} (h : m.wf) (h' : m'.wf) (he : ∀ a, m.read a = m'.read a) : m = m' := by
  induction m generalizing m' with
  | nil =>
    cases m' with
    | nil => rfl
    | cons d l =>
      obtain ⟨b, u⟩ := d
      have := he b
      simp only [Memory.read_nil, Memory.read_cons, if_true] at this
      exact absurd this.symm (h'.2 (b, u) List.mem_cons_self)
  | cons c m ih =>
    obtain ⟨a, v⟩ := c
    have hv : v ≠ 0 := h.2 (a, v) List.mem_cons_self
    cases m' with
    | nil =>
      have := he a
      simp only [Memory.read_nil, Memory.read_cons, if_true] at this
      exact absurd this hv
    | cons d l =>
      obtain ⟨b, u⟩ := d
      have hu : u ≠ 0 := h'.2 (b, u) List.mem_cons_self
      have hm := (List.pairwise_cons.1 h.1).1
      have hl := (List.pairwise_cons.1 h'.1).1
      have hab : a = b := by
        rcases lt_trichotomy a b with hlt | heq | hgt
        · have h0 : Memory.read ((b, u) :: l) a = 0 := by
            refine Memory.read_eq_zero_of_lt fun c hc => ?_
            rcases List.mem_cons.1 hc with rfl | hc
            · exact hlt
            · exact lt_trans hlt (hl c hc)
          have := he a
          rw [h0, Memory.read_cons, if_pos rfl] at this
          exact absurd this hv
        · exact heq
        · have h0 : Memory.read ((a, v) :: m) b = 0 := by
            refine Memory.read_eq_zero_of_lt fun c hc => ?_
            rcases List.mem_cons.1 hc with rfl | hc
            · exact hgt
            · exact lt_trans hgt (hm c hc)
          have := he b
          rw [h0, Memory.read_cons, if_pos rfl] at this
          exact absurd this.symm hu
      subst hab
      have hvu : v = u := by
        have := he a
        simpa only [Memory.read_cons, if_true] using this
      subst hvu
      have hm0 : Memory.read m a = 0 := Memory.read_eq_zero_of_lt fun c hc => hm c hc
      have hl0 : Memory.read l a = 0 := Memory.read_eq_zero_of_lt fun c hc => hl c hc
      have : m = l := by
        refine ih ⟨(List.pairwise_cons.1 h.1).2, fun c hc => h.2 c (List.mem_cons_of_mem _ hc)⟩
          ⟨(List.pairwise_cons.1 h'.1).2, fun c hc => h'.2 c (List.mem_cons_of_mem _ hc)⟩ fun x => ?_
        by_cases hx : x = a
        · rw [hx, hm0, hl0]
        · have := he x
          simpa only [Memory.read_cons, if_neg hx] using this
      rw [this]

end Sys2Proof.Machine
end

