-- ==== Sys2Proof/Laws/Bits.lean ====
section
/-! SUPPORT. The bit primitives in terms of single stream positions: what a bit of BUF is after setBit and writeIndex,
which bits readIndex collects, and that the writing primitives keep the canonical form. -/

namespace Sys2Proof.Machine

theorem bitAt_def (m : Memory) (p : Nat) : bitAt m p = (m.read (p / 8)).getLsbD (7 - p % 8) := rfl

@[simp] theorem bitAt_nil (p : Nat) : bitAt [] p = false := by
  simp [bitAt_def]

/-- Bit i of byte a is stream position 8a + 7 - i (spec/20_memory.md R67). -/
theorem read_getLsbD (m : Memory) (a i : Nat) (hi : i < 8) : (m.read a).getLsbD i = bitAt m (8 * a + (7 - i)) := by
  rw [bitAt_def, show (8 * a + (7 - i)) / 8 = a by omega, show 7 - (8 * a + (7 - i)) % 8 = i by omega]

/-- Bytes whose eight stream positions agree are equal. -/
theorem read_eq_of_bits {m m' : Memory} {a : Nat} (h : ∀ p, p / 8 = a → bitAt m p = bitAt m' p) :
    m.read a = m'.read a := by
  refine BitVec.eq_of_getLsbD_eq fun i hi => ?_
  rw [read_getLsbD m a i hi, read_getLsbD m' a i hi]
  exact h _ (by omega)

/-- Equal bytes have equal stream positions. -/
theorem bitAt_eq_of_read {m m' : Memory} {p : Nat} (h : m.read (p / 8) = m'.read (p / 8)) :
    bitAt m p = bitAt m' p := by
  rw [bitAt_def, bitAt_def, h]

theorem getLsbD_one_shiftLeft (i j : Nat) (hj : j < 8) : (1#8 <<< i).getLsbD j = decide (j = i) := by
  rw [BitVec.getLsbD_shiftLeft, BitVec.getLsbD_one]
  by_cases h : j = i <;> simp [h, hj] <;> omega

/-- setBit ORs a 1 into one position and leaves every other (R63). -/
theorem bitAt_setBit (m : Memory) (p q : Nat) : bitAt (setBit m p) q = (bitAt m q || decide (q = p)) := by
  rw [bitAt_def, setBit, Memory.read_write]
  by_cases hb : q / 8 = posByte p
  · rw [if_pos hb, BitVec.getLsbD_or, getLsbD_one_shiftLeft _ _ (by omega), bitAt_def, hb]
    congr 1
    unfold posByte at hb
    unfold posBit
    exact decide_eq_decide.2 (by omega)
  · rw [if_neg hb, bitAt_def]
    have : q ≠ p := fun h => hb (by rw [h]; rfl)
    simp [this]

theorem bitAt_writeIndex_aux (m : Memory) (w : Nat) (idx : Index) (n p : Nat) :
    bitAt ((List.range n).foldl (fun m k => if idx.getLsbD (10 - k) then setBit m (11 * w + k) else m) m) p =
      (bitAt m p || (decide (11 * w ≤ p ∧ p < 11 * w + n) && idx.getLsbD (10 - (p - 11 * w)))) := by
  induction n with
  | zero =>
    simp
  | succ n ih =>
    rw [List.range_succ, List.foldl_append, List.foldl_cons, List.foldl_nil]
    by_cases hp : p = 11 * w + n
    · have h1 : ¬ (11 * w ≤ p ∧ p < 11 * w + n) := by omega
      have h2 : 11 * w ≤ p ∧ p < 11 * w + (n + 1) := by omega
      have h3 : p - 11 * w = n := by omega
      rw [h3] at ih ⊢
      split
      · next h => simp [bitAt_setBit, hp, h]
      · next h => simp [ih, h]
    · have h1 : (11 * w ≤ p ∧ p < 11 * w + (n + 1)) ↔ (11 * w ≤ p ∧ p < 11 * w + n) := by omega
      split
      · next h => simp only [bitAt_setBit, ih, hp, h1, decide_false, Bool.or_false]
      · next h => simp only [ih, h1]

/-- writeIndex ORs idx into [11w, 11w+11), most significant bit first, and leaves every other position (R65). -/
theorem bitAt_writeIndex (m : Memory) (w : Nat) (idx : Index) (p : Nat) :
    bitAt (writeIndex m w idx) p =
      (bitAt m p || (decide (11 * w ≤ p ∧ p < 11 * w + 11) && idx.getLsbD (10 - (p - 11 * w)))) :=
  bitAt_writeIndex_aux m w idx 11 p

theorem readIndex_aux (m : Memory) (w n : Nat) (hn : n ≤ 11) (i : Nat) :
    ((List.range n).foldl
      (fun (acc : Index) k => (acc <<< 1) ||| (BitVec.ofBool (bitAt m (11 * w + k))).setWidth 11) 0).getLsbD i =
      (decide (i < n) && bitAt m (11 * w + (n - 1 - i))) := by
  induction n generalizing i with
  | zero => simp
  | succ n ih =>
    rw [List.range_succ, List.foldl_append, List.foldl_cons, List.foldl_nil, BitVec.getLsbD_or,
      BitVec.getLsbD_shiftLeft, ih (by omega), BitVec.getLsbD_setWidth, BitVec.getLsbD_ofBool]
    by_cases hi0 : i = 0
    · subst hi0
      simp
    · by_cases hin : i < n + 1
      · have h1 : i - 1 < n := by omega
        have h2 : n - 1 - (i - 1) = n - i := by omega
        have h3 : i < 11 := by omega
        have h4 : 1 ≤ i := by omega
        simp [hi0, hin, h1, h2, h3]
      · have h1 : ¬ i - 1 < n := by omega
        simp [hi0, hin, h1]

/-- Bit i of readIndex w is stream position 11w + 10 - i (R64). -/
theorem readIndex_getLsbD (m : Memory) (w i : Nat) :
    (readIndex m w).getLsbD i = (decide (i < 11) && bitAt m (11 * w + (10 - i))) :=
  readIndex_aux m w 11 (le_refl _) i

/-- Fields whose eleven positions agree are equal. -/
theorem readIndex_eq_of_bits {m m' : Memory} {w : Nat}
    (h : ∀ p, 11 * w ≤ p → p < 11 * w + 11 → bitAt m p = bitAt m' p) : readIndex m w = readIndex m' w := by
  refine BitVec.eq_of_getLsbD_eq fun i hi => ?_
  rw [readIndex_getLsbD, readIndex_getLsbD, h _ (by omega) (by omega)]

/-- readIndex after writeIndex at the same position is the OR of old and new (R65). -/
theorem readIndex_writeIndex (m : Memory) (w : Nat) (idx : Index) :
    readIndex (writeIndex m w idx) w = readIndex m w ||| idx := by
  refine BitVec.eq_of_getLsbD_eq fun i hi => ?_
  have h1 : 11 * w ≤ 11 * w + (10 - i) ∧ 11 * w + (10 - i) < 11 * w + 11 := by omega
  have h2 : 10 - (11 * w + (10 - i) - 11 * w) = i := by omega
  rw [BitVec.getLsbD_or, readIndex_getLsbD, readIndex_getLsbD, bitAt_writeIndex, h2]
  simp [h1, hi]

/-! ### The canonical form -/

theorem wf_setBit {m : Memory} (h : m.wf) (p : Nat) : (setBit m p).wf := Memory.wf_write h _ _

theorem wf_writeIndex {m : Memory} (h : m.wf) (w : Nat) (idx : Index) : (writeIndex m w idx).wf := by
  unfold writeIndex
  generalize List.range 11 = l
  induction l generalizing m with
  | nil => exact h
  | cons k l ih =>
    rw [List.foldl_cons]
    split
    · exact ih (wf_setBit h _)
    · exact ih h

theorem below_setBit {m : Memory} {n p : Nat} (h : m.below n) (hp : posByte p < n) : (setBit m p).below n :=
  Memory.below_write h hp _

theorem below_writeIndex {m : Memory} {n w : Nat} (h : m.below n) (hw : fieldLastByte w < n) (idx : Index) :
    (writeIndex m w idx).below n := by
  unfold writeIndex
  have hl : ∀ k ∈ List.range 11, k < 11 := fun k hk => List.mem_range.1 hk
  revert hl
  generalize List.range 11 = l
  intro hl
  induction l generalizing m with
  | nil => exact h
  | cons k l ih =>
    have hk : k < 11 := hl k List.mem_cons_self
    rw [List.foldl_cons]
    refine ih ?_ fun j hj => hl j (List.mem_cons_of_mem _ hj)
    split
    · refine below_setBit h ?_
      unfold fieldLastByte posByte at hw
      unfold posByte
      omega
    · exact h

/-- A byte that holds no position of the field is not written by writeIndex (R65). -/
theorem read_writeIndex_of_outside (m : Memory) (w : Nat) (idx : Index) {a : Nat}
    (h : a < posByte (11 * w) ∨ fieldLastByte w < a) : (writeIndex m w idx).read a = m.read a := by
  refine read_eq_of_bits fun p hp => ?_
  rw [bitAt_writeIndex]
  unfold fieldLastByte posByte at h
  have : ¬ (11 * w ≤ p ∧ p < 11 * w + 11) := by omega
  simp [this]

/-- A byte other than the position's is not written by setBit (R63). -/
theorem read_setBit (m : Memory) (p a : Nat) :
    (setBit m p).read a = if a = posByte p then m.read a ||| (1#8 <<< posBit p) else m.read a := by
  rw [setBit, Memory.read_write]
  split
  · next h => rw [h]
  · rfl

end Sys2Proof.Machine
end

