-- ==== Sys2Proof/Laws/Exec.lean ====
section
/-! SUPPORT. What each shared operation and each meaning can answer: if it answers a next state, then it is one of the
states listed. Proofs cite these instead of unfolding a meaning. -/

namespace Sys2Proof.Machine

theorem raise_next {s t : State} {e : ErrCode} : raise s e = .next t ↔ t = s.recordError e := by
  unfold raise
  constructor
  · intro h; cases h; rfl
  · rintro rfl; rfl

theorem reach_of_lt {s : State} {a : Nat} (h : a < s.params.bufBytes) (k : Outcome) : reach s a k = k :=
  if_pos h

/-- `reach` goes on exactly where the byte exists. -/
theorem reach_next {s t : State} {a : Nat} {k : Outcome} :
    reach s a k = .next t ↔ a < s.params.bufBytes ∧ k = .next t := by
  unfold reach
  split
  · next h => simp [h]
  · next h => simp [h]

theorem finish_next {o : Outcome} {t : State} : finish o = .next t ↔ ∃ u, o = .next u ∧ t = u.complete := by
  cases o with
  | next u =>
    constructor
    · intro h; cases h; exact ⟨u, rfl, rfl⟩
    · rintro ⟨v, hv, rfl⟩; cases hv; rfl
  | fault f =>
    constructor
    · intro h; cases h
    · rintro ⟨v, hv, -⟩; cases hv
  | refused r =>
    constructor
    · intro h; cases h
    · rintro ⟨v, hv, -⟩; cases hv

theorem next_inj {s t : State} : (Host.Outcome.next s : Outcome) = .next t ↔ t = s := by
  constructor
  · intro h; cases h; rfl
  · rintro rfl; rfl

/-! ### The bounds -/

theorem posInBounds_iff {s : State} {p : Nat} : posInBounds s p = true ↔ p < 8 * s.len.toNat := by
  simp [posInBounds]

theorem wordInBounds_iff {s : State} {w : Nat} : wordInBounds s w = true ↔ 11 * w + 11 ≤ 8 * s.len.toNat := by
  simp [wordInBounds]

theorem addrInBounds_iff {s : State} {a : Nat} : addrInBounds s a = true ↔ a < s.len.toNat := by
  simp [addrInBounds]

theorem posByte_lt_of_inBounds {s : State} {p : Nat} (hp : p < 8 * s.len.toNat)
    (hl : s.len.toNat ≤ s.params.bufBytes) : posByte p < s.params.bufBytes := by
  unfold posByte; omega

theorem fieldLastByte_lt_of_inBounds {s : State} {w : Nat} (hw : 11 * w + 11 ≤ 8 * s.len.toNat)
    (hl : s.len.toNat ≤ s.params.bufBytes) : fieldLastByte w < s.params.bufBytes := by
  unfold fieldLastByte posByte; omega

/-! ### One inversion per meaning -/

theorem execNop_next {s t : State} (h : execNop s = .next t) : t = s := next_inj.1 h

theorem execClrerr_next {s t : State} (h : execClrerr s = .next t) : t = s.clearError := next_inj.1 h

theorem execBitat_next {s t : State} {p : Nat} (h : execBitat p s = .next t) :
    (p < 8 * s.len.toNat ∧ posByte p < s.params.bufBytes ∧
      t = s.putResult ((BitVec.ofBool (bitAt s.buf p)).setWidth 32)) ∨
    (8 * s.len.toNat ≤ p ∧ t = s.recordError .bounds) := by
  unfold execBitat at h
  split at h
  · next hb =>
    obtain ⟨ha, hk⟩ := reach_next.1 h
    exact .inl ⟨posInBounds_iff.1 hb, ha, next_inj.1 hk⟩
  · next hb => exact .inr ⟨not_lt.1 fun hl => hb (posInBounds_iff.2 hl), raise_next.1 h⟩

theorem execSetbit_next {s t : State} {p : Nat} (h : execSetbit p s = .next t) :
    (p < 8 * s.len.toNat ∧ posByte p < s.params.bufBytes ∧
      t = (s.putBuf (setBit s.buf p)).putResult 0) ∨
    (8 * s.len.toNat ≤ p ∧ t = s.recordError .bounds) := by
  unfold execSetbit at h
  split at h
  · next hb =>
    obtain ⟨ha, hk⟩ := reach_next.1 h
    exact .inl ⟨posInBounds_iff.1 hb, ha, next_inj.1 hk⟩
  · next hb => exact .inr ⟨not_lt.1 fun hl => hb (posInBounds_iff.2 hl), raise_next.1 h⟩

theorem execRdidx_next {s t : State} {w : Nat} (h : execRdidx w s = .next t) :
    (11 * w + 11 ≤ 8 * s.len.toNat ∧ fieldLastByte w < s.params.bufBytes ∧
      t = s.putResult ((readIndex s.buf w).setWidth 32)) ∨
    (8 * s.len.toNat < 11 * w + 11 ∧ t = s.recordError .bounds) := by
  unfold execRdidx at h
  split at h
  · next hb =>
    obtain ⟨ha, hk⟩ := reach_next.1 h
    exact .inl ⟨wordInBounds_iff.1 hb, ha, next_inj.1 hk⟩
  · next hb => exact .inr ⟨not_le.1 fun hl => hb (wordInBounds_iff.2 hl), raise_next.1 h⟩

theorem execWridx_next {s t : State} {w : Nat} {i : Index} (h : execWridx w i s = .next t) :
    (11 * w + 11 ≤ 8 * s.len.toNat ∧ fieldLastByte w < s.params.bufBytes ∧
      t = (s.putBuf (writeIndex s.buf w i)).putResult 0) ∨
    (8 * s.len.toNat < 11 * w + 11 ∧ t = s.recordError .bounds) := by
  unfold execWridx at h
  split at h
  · next hb =>
    obtain ⟨ha, hk⟩ := reach_next.1 h
    exact .inl ⟨wordInBounds_iff.1 hb, ha, next_inj.1 hk⟩
  · next hb => exact .inr ⟨not_le.1 fun hl => hb (wordInBounds_iff.2 hl), raise_next.1 h⟩

theorem execClr_next {s t : State} {n : Nat} (h : execClr n s = .next t) :
    (n ≤ s.params.bufBytes ∧ t = (s.newBuffer n 0 0).putResult (BitVec.ofNat 32 n)) ∨
    (s.params.bufBytes < n ∧ t = s.recordError .bounds) := by
  unfold execClr at h
  split at h
  · next hb => exact .inl ⟨hb, next_inj.1 h⟩
  · next hb => exact .inr ⟨not_le.1 hb, raise_next.1 h⟩

theorem execRdbyte_next {s t : State} {a : Nat} (h : execRdbyte a s = .next t) :
    (a < s.len.toNat ∧ a < s.params.bufBytes ∧ t = s.putResult ((s.buf.read a).setWidth 32)) ∨
    (s.len.toNat ≤ a ∧ t = s.recordError .bounds) := by
  unfold execRdbyte at h
  split at h
  · next hb =>
    obtain ⟨ha, hk⟩ := reach_next.1 h
    exact .inl ⟨addrInBounds_iff.1 hb, ha, next_inj.1 hk⟩
  · next hb => exact .inr ⟨not_lt.1 fun hl => hb (addrInBounds_iff.2 hl), raise_next.1 h⟩

theorem execWrbyte_next {s t : State} {a : Nat} {d : Byte} (h : execWrbyte a d s = .next t) :
    (a < s.len.toNat ∧ a < s.params.bufBytes ∧ t = (s.putBuf (s.buf.write a d)).putResult 0) ∨
    (s.len.toNat ≤ a ∧ t = s.recordError .bounds) := by
  unfold execWrbyte at h
  split at h
  · next hb =>
    obtain ⟨ha, hk⟩ := reach_next.1 h
    exact .inl ⟨addrInBounds_iff.1 hb, ha, next_inj.1 hk⟩
  · next hb => exact .inr ⟨not_lt.1 fun hl => hb (addrInBounds_iff.2 hl), raise_next.1 h⟩

/-- The five valid lengths are the only ones ENCSETUP's first check admits (R140). -/
theorem entropyLengthValid_iff {n : Nat} :
    entropyLengthValid n = true ↔ n = 16 ∨ n = 20 ∨ n = 24 ∨ n = 28 ∨ n = 32 := by
  simp only [entropyLengthValid, decide_eq_true_eq]
  omega

theorem execEncsetup_next {s t : State} {n : Nat} (h : execEncsetup n s = .next t) :
    (entropyLengthValid n = true ∧ n < s.params.bufBytes ∧ s.dvalid = true ∧
      ∃ mask, checksumMask (8 * n) = some mask ∧ t = s.appendChecksum n mask) ∨
    (entropyLengthValid n = true ∧ s.dvalid = false ∧ t = s.recordError .digestUnavailable) ∨
    (entropyLengthValid n = false ∧ t = s.recordError .invalidEntropyLength) := by
  unfold execEncsetup at h
  split at h
  · next hv =>
    split at h
    · next mask hm =>
      split at h
      · next hd =>
        obtain ⟨ha, hk⟩ := reach_next.1 h
        exact .inl ⟨hv, ha, hd, mask, hm, next_inj.1 hk⟩
      · next hd => exact .inr (.inl ⟨hv, by simpa using hd, raise_next.1 h⟩)
    · next hm =>
      exfalso
      rcases entropyLengthValid_iff.1 hv with rfl | rfl | rfl | rfl | rfl <;> simp [checksumMask] at hm
  · next hv => exact .inr (.inr ⟨by simpa using hv, raise_next.1 h⟩)

theorem romWord_some {s : State} {i : Index} {w : WlWord} (h : romWord s i = some w) :
    s.wl[i.toNat]? = some w ∧ 1 ≤ w.length ∧ w.length ≤ s.params.wmax := by
  unfold romWord at h
  split at h
  · next v hv =>
    split at h
    · next hl => cases h; exact ⟨hv, hl.1, hl.2⟩
    · cases h
  · cases h

theorem execEncw_next {s t : State} {w : Nat} (h : execEncw w s = .next t) :
    (11 * w + 11 ≤ 8 * s.len.toNat ∧ fieldLastByte w < s.params.bufBytes ∧ s.wlReady = true ∧
      ∃ v, romWord s (readIndex s.buf w) = some v ∧
        t = (s.putWout v).putResult ((readIndex s.buf w).setWidth 32)) ∨
    (11 * w + 11 ≤ 8 * s.len.toNat ∧ s.wlReady = false ∧ t = s.recordError .wlNotReady) ∨
    (8 * s.len.toNat < 11 * w + 11 ∧ t = s.recordError .bounds) := by
  unfold execEncw at h
  split at h
  · next hb =>
    obtain ⟨ha, hk⟩ := reach_next.1 h
    split at hk
    · next hr =>
      split at hk
      · next v hv => exact .inl ⟨wordInBounds_iff.1 hb, ha, hr, v, hv, next_inj.1 hk⟩
      · cases hk
    · next hr => exact .inr (.inl ⟨wordInBounds_iff.1 hb, by simpa using hr, raise_next.1 hk⟩)
  · next hb => exact .inr (.inr ⟨not_le.1 fun hl => hb (wordInBounds_iff.2 hl), raise_next.1 h⟩)

theorem execDecsetup_next {s t : State} {n : Nat} (h : execDecsetup n s = .next t) :
    (n ≠ 0 ∧ dataSize n ≤ s.params.bufBytes ∧
      t = (s.newBuffer (dataSize n) n (dataSize n - 1)).putResult (BitVec.ofNat 32 (dataSize n - 1))) ∨
    ((n = 0 ∨ s.params.bufBytes < dataSize n) ∧ t = s.recordError .badWordCount) := by
  unfold execDecsetup at h
  split at h
  · next hn => exact .inr ⟨.inl hn, raise_next.1 h⟩
  · next hn =>
    split at h
    · next hb => exact .inr ⟨.inr hb, raise_next.1 h⟩
    · next hb => exact .inl ⟨hn, not_lt.1 hb, next_inj.1 h⟩

theorem execDecw_next {s t : State} {w : Nat} (h : execDecw w s = .next t) :
    (s.wlReady = true ∧ 11 * w + 11 ≤ 8 * s.len.toNat ∧ fieldLastByte w < s.params.bufBytes ∧
      ∃ key i, wordKey s = some key ∧ camIndex s key = some i ∧
        t = (s.putBuf (writeIndex s.buf w i)).putResult (i.setWidth 32)) ∨
    (s.wlReady = true ∧ (wordKey s = none ∨ ∃ key, wordKey s = some key ∧ camIndex s key = none) ∧
      t = s.recordError .unknownWord) ∨
    (s.wlReady = true ∧ 8 * s.len.toNat < 11 * w + 11 ∧
      (∃ key i, wordKey s = some key ∧ camIndex s key = some i) ∧ t = s.recordError .bounds) ∨
    (s.wlReady = false ∧ t = s.recordError .wlNotReady) := by
  unfold execDecw at h
  split at h
  · next hr =>
    split at h
    · next hk => exact .inr (.inl ⟨hr, .inl hk, raise_next.1 h⟩)
    · next key hk =>
      split at h
      · next hi => exact .inr (.inl ⟨hr, .inr ⟨key, hk, hi⟩, raise_next.1 h⟩)
      · next i hi =>
        split at h
        · next hb =>
          obtain ⟨ha, hn⟩ := reach_next.1 h
          exact .inl ⟨hr, wordInBounds_iff.1 hb, ha, key, i, hk, hi, next_inj.1 hn⟩
        · next hb =>
          exact .inr (.inr (.inl ⟨hr, not_le.1 fun hl => hb (wordInBounds_iff.2 hl), ⟨key, i, hk, hi⟩,
            raise_next.1 h⟩))
  · next hr => exact .inr (.inr (.inr ⟨by simpa using hr, raise_next.1 h⟩))

/-! ### The word-list ports under the contract R71 -/

/-- Every index has a word that fits (R71, "Every idx in 0..2047 has a word"). -/
theorem romWord_isSome {s : State} (h : s.WordListOk) (i : Index) : ∃ v, romWord s i = some v := by
  have hi : i.toNat < s.wl.length := by rw [h.size]; exact i.isLt
  have hf := h.fits _ (List.getElem_mem hi)
  refine ⟨s.wl[i.toNat], ?_⟩
  unfold romWord
  rw [List.getElem?_eq_getElem hi]
  exact if_pos hf

/-- R71 (iii) and (iv): the CAM answers i exactly for the word of index i. -/
theorem camIndex_eq_some_iff {s : State} (h : s.WordListOk) (key : WlWord) (i : Index) :
    camIndex s key = some i ↔ s.wl[i.toNat]? = some key := by
  have ht : s.wl.take Config.nwl = s.wl := List.take_of_length_le (by rw [h.size]; rfl)
  unfold camIndex
  rw [ht]
  constructor
  · intro hc
    obtain ⟨j, hj, rfl⟩ := Option.map_eq_some_iff.1 hc
    obtain ⟨hlt, heq, -⟩ := List.findIdx?_eq_some_iff_getElem.1 hj
    have hj2 : j < 2048 := h.size ▸ hlt
    rw [BitVec.toNat_ofNat, Nat.mod_eq_of_lt (by omega), List.getElem?_eq_getElem hlt]
    simpa using heq
  · intro hk
    have hi : i.toNat < s.wl.length := by rw [h.size]; exact i.isLt
    rw [List.getElem?_eq_getElem hi] at hk
    have hkey : s.wl[i.toNat] = key := by simpa using hk
    refine Option.map_eq_some_iff.2 ⟨i.toNat, ?_, by simp⟩
    refine List.findIdx?_eq_some_iff_getElem.2 ⟨hi, by simp [hkey], fun j hj => ?_⟩
    have hne : s.wl[j] ≠ s.wl[i.toNat] := fun he => by
      have := (List.Nodup.getElem_inj_iff h.unique).1 he
      omega
    simpa [hkey] using hne

/-- WOUT's padding (spec/10_state.md R34), for a word that fits. -/
theorem padded_eq_append {n : Nat} {w : WlWord} (h : w.length ≤ n) :
    padded n w = w ++ List.replicate (n - w.length) 0 := by
  apply List.ext_getElem
  · simp [padded]; omega
  · intro k h1 h2
    simp only [padded, List.getElem_map, List.getElem_range, List.getD_eq_getElem?_getD]
    by_cases hk : k < w.length
    · rw [List.getElem_append_left hk]; simp [hk]
    · rw [List.getElem_append_right (by omega)]; simp [hk]

end Sys2Proof.Machine
end

