-- ==== Sys2Proof/Laws/Decode.lean ====
section
/-! SUPPORT. What the decoder can answer (spec/30_encoding.md R99), and the fields of the encoder's formats (R92). -/

namespace Sys2Proof

theorem whenZ_ok {z : Bool} {i j : Instr} : whenZ z i = .ok j ↔ z = true ∧ j = i := by
  unfold whenZ
  split
  · next h =>
    constructor
    · intro hj; cases hj; exact ⟨h, rfl⟩
    · rintro ⟨-, rfl⟩; rfl
  · next h =>
    constructor
    · intro hj; cases hj
    · rintro ⟨hz, -⟩; exact absurd hz h

/-- A decoded command is the one its opcode selects, with its fields read from the word and its Z bits all 0. -/
theorem decode_ok {c : Word32} {i : Instr} (h : decode c = .ok i) :
    ((opField c).toNat = 0x0 ∧ zBitsN c = true ∧ i = .nop) ∨
    ((opField c).toNat = 0x1 ∧ zBitsL c = true ∧ i = .clr (nField c)) ∨
    ((opField c).toNat = 0x2 ∧ zBitsP c = true ∧ i = .bitat (posField c)) ∨
    ((opField c).toNat = 0x3 ∧ zBitsP c = true ∧ i = .setbit (posField c)) ∨
    ((opField c).toNat = 0x4 ∧ zBitsW c = true ∧ i = .rdidx (byteOperandField c)) ∨
    ((opField c).toNat = 0x5 ∧ zBitsWI c = true ∧ i = .wridx (byteOperandField c) (indexField c)) ∨
    ((opField c).toNat = 0x6 ∧ zBitsW c = true ∧ i = .rdbyte (byteOperandField c)) ∨
    ((opField c).toNat = 0x7 ∧ zBitsB c = true ∧ i = .wrbyte (byteOperandField c) (dataField c)) ∨
    ((opField c).toNat = 0x8 ∧ zBitsL c = true ∧ i = .encsetup (nField c)) ∨
    ((opField c).toNat = 0x9 ∧ zBitsW c = true ∧ i = .encw (byteOperandField c)) ∨
    ((opField c).toNat = 0xA ∧ zBitsL c = true ∧ i = .decsetup (nField c)) ∨
    ((opField c).toNat = 0xB ∧ zBitsW c = true ∧ i = .decw (byteOperandField c)) ∨
    ((opField c).toNat = 0xF ∧ zBitsN c = true ∧ i = .clrerr) := by
  unfold decode at h
  split at h <;> first
    | (next ho => simp [ho, whenZ_ok.1 h])
    | cases h

/-- A word whose top four bits are op and whose others are 0 is op in the top nibble. -/
theorem eq_of_op_and_zBitsN {c : Word32} {n : Nat} (ho : (opField c).toNat = n) (hz : zBitsN c = true) :
    c.toNat = n * 2 ^ 28 := by
  have h0 : (c.extractLsb' 0 28).toNat = 0 := by
    have := beq_iff_eq.1 hz
    rw [this]; rfl
  unfold opField at ho
  rw [BitVec.extractLsb'_toNat, Nat.shiftRight_eq_div_pow] at ho h0
  have := c.isLt
  omega

/-- CLRERR has one encoding (R181), so a word that decodes to it is 0xF0000000. -/
theorem eq_of_decode_clrerr {c : Word32} (h : decode c = .ok .clrerr) : c = 0xF0000000 := by
  rcases decode_ok h with h | h | h | h | h | h | h | h | h | h | h | h | h <;> first
    | exact BitVec.eq_of_toNat_eq (eq_of_op_and_zBitsN h.1 h.2.1)
    | exact absurd h.2.2 (by simp)

/-! ### The fields of a format -/

theorem formatN_fields (op : BitVec 4) :
    (formatN op).extractLsb' 28 4 = op ∧ (formatN op).extractLsb' 0 28 = 0 := by
  refine ⟨?_, ?_⟩ <;>
  · refine BitVec.eq_of_getLsbD_eq fun i hi => ?_
    simp only [formatN, BitVec.getLsbD_extractLsb', BitVec.getLsbD_append, hi, BitVec.getLsbD_zero]
    grind

theorem formatL_fields (op : BitVec 4) (n : Nat) :
    (formatL op n).extractLsb' 28 4 = op ∧ (formatL op n).extractLsb' 16 12 = 0 ∧
      (formatL op n).extractLsb' 0 16 = BitVec.ofNat 16 n := by
  refine ⟨?_, ?_, ?_⟩ <;>
  · refine BitVec.eq_of_getLsbD_eq fun i hi => ?_
    simp only [formatL, BitVec.getLsbD_extractLsb', BitVec.getLsbD_append, hi, BitVec.getLsbD_zero]
    grind

theorem formatP_fields (op : BitVec 4) (p : Nat) :
    (formatP op p).extractLsb' 28 4 = op ∧ (formatP op p).extractLsb' 9 19 = 0 ∧
      (formatP op p).extractLsb' 0 9 = BitVec.ofNat 9 p := by
  refine ⟨?_, ?_, ?_⟩ <;>
  · refine BitVec.eq_of_getLsbD_eq fun i hi => ?_
    simp only [formatP, BitVec.getLsbD_extractLsb', BitVec.getLsbD_append, hi, BitVec.getLsbD_zero]
    grind

theorem formatW_fields (op : BitVec 4) (w : Nat) :
    (formatW op w).extractLsb' 28 4 = op ∧ (formatW op w).extractLsb' 24 4 = 0 ∧
      (formatW op w).extractLsb' 0 16 = 0 ∧ (formatW op w).extractLsb' 16 8 = BitVec.ofNat 8 w := by
  refine ⟨?_, ?_, ?_, ?_⟩ <;>
  · refine BitVec.eq_of_getLsbD_eq fun i hi => ?_
    simp only [formatW, BitVec.getLsbD_extractLsb', BitVec.getLsbD_append, hi, BitVec.getLsbD_zero]
    grind

theorem formatWI_fields (op : BitVec 4) (w : Nat) (x : Index) :
    (formatWI op w x).extractLsb' 28 4 = op ∧ (formatWI op w x).extractLsb' 24 4 = 0 ∧
      (formatWI op w x).extractLsb' 11 5 = 0 ∧ (formatWI op w x).extractLsb' 16 8 = BitVec.ofNat 8 w ∧
      (formatWI op w x).extractLsb' 0 11 = x := by
  refine ⟨?_, ?_, ?_, ?_, ?_⟩ <;>
  · refine BitVec.eq_of_getLsbD_eq fun i hi => ?_
    simp only [formatWI, BitVec.getLsbD_extractLsb', BitVec.getLsbD_append, hi, BitVec.getLsbD_zero]
    grind

theorem formatB_fields (op : BitVec 4) (a : Nat) (d : Byte) :
    (formatB op a d).extractLsb' 28 4 = op ∧ (formatB op a d).extractLsb' 24 4 = 0 ∧
      (formatB op a d).extractLsb' 8 8 = 0 ∧ (formatB op a d).extractLsb' 16 8 = BitVec.ofNat 8 a ∧
      (formatB op a d).extractLsb' 0 8 = d := by
  refine ⟨?_, ?_, ?_, ?_, ?_⟩ <;>
  · refine BitVec.eq_of_getLsbD_eq fun i hi => ?_
    simp only [formatB, BitVec.getLsbD_extractLsb', BitVec.getLsbD_append, hi, BitVec.getLsbD_zero]
    grind

/-! ### The value of a format -/

theorem toNat_append_eq_add {m n : Nat} (x : BitVec m) (y : BitVec n) :
    (x ++ y).toNat = 2 ^ n * x.toNat + y.toNat := by
  rw [BitVec.toNat_append, Nat.shiftLeft_eq, Nat.mul_comm, Nat.two_pow_add_eq_or_of_lt y.isLt]

theorem formatN_toNat (op : BitVec 4) : (formatN op).toNat = 2 ^ 28 * op.toNat := by
  simp only [formatN, toNat_append_eq_add, BitVec.toNat_ofNat]; omega

theorem formatL_toNat (op : BitVec 4) (n : Nat) : (formatL op n).toNat = 2 ^ 28 * op.toNat + n % 2 ^ 16 := by
  simp only [formatL, toNat_append_eq_add, BitVec.toNat_ofNat]; omega

theorem formatP_toNat (op : BitVec 4) (p : Nat) : (formatP op p).toNat = 2 ^ 28 * op.toNat + p % 2 ^ 9 := by
  simp only [formatP, toNat_append_eq_add, BitVec.toNat_ofNat]; omega

theorem formatW_toNat (op : BitVec 4) (w : Nat) :
    (formatW op w).toNat = 2 ^ 28 * op.toNat + 2 ^ 16 * (w % 2 ^ 8) := by
  simp only [formatW, toNat_append_eq_add, BitVec.toNat_ofNat]; omega

theorem formatWI_toNat (op : BitVec 4) (w : Nat) (i : Index) :
    (formatWI op w i).toNat = 2 ^ 28 * op.toNat + 2 ^ 16 * (w % 2 ^ 8) + i.toNat := by
  simp only [formatWI, toNat_append_eq_add, BitVec.toNat_ofNat]; omega

theorem formatB_toNat (op : BitVec 4) (a : Nat) (d : Byte) :
    (formatB op a d).toNat = 2 ^ 28 * op.toNat + 2 ^ 16 * (a % 2 ^ 8) + d.toNat := by
  simp only [formatB, toNat_append_eq_add, BitVec.toNat_ofNat]; omega

end Sys2Proof
end

