-- ==== Sys2Proof/Laws/PerInstr.lean ====
section
/-! SUPPORT. Facts about every command as syntax, one lemma per constructor. Family OwnRow: the word of a command
selects the command's own row of the opcode map (spec/30_encoding.md R95), whatever its operands. -/

namespace Sys2Proof.Laws.OwnRow

/-- The row of this command's mnemonic stands in the map, and the command's word selects it. -/
def Statement (i : Instr) : Prop := ∃ r ∈ opcodeMap, r.mnemonic = i.mnemonic ∧ r.selects (encode i) = true

/-! ### A mask keeps a format's fixed bits and clears its operands -/

theorem formatL_and_mask (op : BitVec 4) (n : Nat) : formatL op n &&& 0xFFFF0000#32 = formatL op 0 := by
  have hm : (0xFFFF0000#32) = ((0xF#4 ++ 0xFFF#12 ++ 0#16 : BitVec (4 + 12 + 16))) := by decide
  unfold formatL
  rw [hm, BitVec.and_append, BitVec.and_append, show (0xF#4) = BitVec.allOnes 4 from rfl, BitVec.and_allOnes]
  simp

theorem formatP_and_mask (op : BitVec 4) (p : Nat) : formatP op p &&& 0xFFFFFE00#32 = formatP op 0 := by
  have hm : (0xFFFFFE00#32) = ((0xF#4 ++ 0x7FFFF#19 ++ 0#9 : BitVec (4 + 19 + 9))) := by decide
  unfold formatP
  rw [hm, BitVec.and_append, BitVec.and_append, show (0xF#4) = BitVec.allOnes 4 from rfl, BitVec.and_allOnes]
  simp

theorem formatW_and_mask (op : BitVec 4) (w : Nat) : formatW op w &&& 0xFF00FFFF#32 = formatW op 0 := by
  have hm : (0xFF00FFFF#32) = ((0xF#4 ++ 0xF#4 ++ 0#8 ++ 0xFFFF#16 : BitVec (4 + 4 + 8 + 16))) := by decide
  unfold formatW
  rw [hm, BitVec.and_append, BitVec.and_append, BitVec.and_append, show (0xF#4) = BitVec.allOnes 4 from rfl,
    BitVec.and_allOnes]
  simp

theorem formatWI_and_mask (op : BitVec 4) (w : Nat) (i : Index) :
    formatWI op w i &&& 0xFF00F800#32 = formatWI op 0 0 := by
  have hm : (0xFF00F800#32) = ((0xF#4 ++ 0xF#4 ++ 0#8 ++ 0x1F#5 ++ 0#11 : BitVec (4 + 4 + 8 + 5 + 11))) := by decide
  unfold formatWI
  rw [hm, BitVec.and_append, BitVec.and_append, BitVec.and_append, BitVec.and_append,
    show (0xF#4) = BitVec.allOnes 4 from rfl, BitVec.and_allOnes]
  simp

theorem formatB_and_mask (op : BitVec 4) (a : Nat) (d : Byte) :
    formatB op a d &&& 0xFF00FF00#32 = formatB op 0 0 := by
  have hm : (0xFF00FF00#32) = ((0xF#4 ++ 0xF#4 ++ 0#8 ++ 0xFF#8 ++ 0#8 : BitVec (4 + 4 + 8 + 8 + 8))) := by decide
  unfold formatB
  rw [hm, BitVec.and_append, BitVec.and_append, BitVec.and_append, BitVec.and_append,
    show (0xF#4) = BitVec.allOnes 4 from rfl, BitVec.and_allOnes]
  simp

/-! ### The thirteen commands -/

theorem nop : Statement .nop := ⟨_, List.mem_of_getElem? (i := 0) rfl, rfl, by decide⟩

theorem clr (n : Nat) : Statement (.clr n) :=
  ⟨_, List.mem_of_getElem? (i := 1) rfl, rfl, beq_iff_eq.2 ((formatL_and_mask 0x1 n).trans (by decide))⟩

theorem bitat (p : Nat) : Statement (.bitat p) :=
  ⟨_, List.mem_of_getElem? (i := 2) rfl, rfl, beq_iff_eq.2 ((formatP_and_mask 0x2 p).trans (by decide))⟩

theorem setbit (p : Nat) : Statement (.setbit p) :=
  ⟨_, List.mem_of_getElem? (i := 3) rfl, rfl, beq_iff_eq.2 ((formatP_and_mask 0x3 p).trans (by decide))⟩

theorem rdidx (w : Nat) : Statement (.rdidx w) :=
  ⟨_, List.mem_of_getElem? (i := 4) rfl, rfl, beq_iff_eq.2 ((formatW_and_mask 0x4 w).trans (by decide))⟩

theorem wridx (w : Nat) (i : Index) : Statement (.wridx w i) :=
  ⟨_, List.mem_of_getElem? (i := 5) rfl, rfl, beq_iff_eq.2 ((formatWI_and_mask 0x5 w i).trans (by decide))⟩

theorem rdbyte (a : Nat) : Statement (.rdbyte a) :=
  ⟨_, List.mem_of_getElem? (i := 6) rfl, rfl, beq_iff_eq.2 ((formatW_and_mask 0x6 a).trans (by decide))⟩

theorem wrbyte (a : Nat) (d : Byte) : Statement (.wrbyte a d) :=
  ⟨_, List.mem_of_getElem? (i := 7) rfl, rfl, beq_iff_eq.2 ((formatB_and_mask 0x7 a d).trans (by decide))⟩

theorem encsetup (n : Nat) : Statement (.encsetup n) :=
  ⟨_, List.mem_of_getElem? (i := 8) rfl, rfl, beq_iff_eq.2 ((formatL_and_mask 0x8 n).trans (by decide))⟩

theorem encw (w : Nat) : Statement (.encw w) :=
  ⟨_, List.mem_of_getElem? (i := 9) rfl, rfl, beq_iff_eq.2 ((formatW_and_mask 0x9 w).trans (by decide))⟩

theorem decsetup (n : Nat) : Statement (.decsetup n) :=
  ⟨_, List.mem_of_getElem? (i := 10) rfl, rfl, beq_iff_eq.2 ((formatL_and_mask 0xA n).trans (by decide))⟩

theorem decw (w : Nat) : Statement (.decw w) :=
  ⟨_, List.mem_of_getElem? (i := 11) rfl, rfl, beq_iff_eq.2 ((formatW_and_mask 0xB w).trans (by decide))⟩

theorem clrerr : Statement .clrerr := ⟨_, List.mem_of_getElem? (i := 12) rfl, rfl, by decide⟩

end Sys2Proof.Laws.OwnRow
end

