-- ==== Sys2Proof/Laws/Procedure.lean ====
section
/-! SUPPORT. How a served list of inputs composes, and when a procedure goes on and when it stops. -/

namespace Sys2Proof.Machine

theorem serveAll_append {s t : State} {l : List Input} (h : serveAll s l = .next t) (l' : List Input) :
    serveAll s (l ++ l') = serveAll t l' := by
  induction l generalizing s with
  | nil => cases h; rfl
  | cons i l ih =>
    rw [List.cons_append, serveAll]
    rw [serveAll] at h
    split at h
    · next u hu => exact ih h
    · cases h
    · cases h

/-- A procedure goes on past a command that completes without an error. -/
theorem runStages_cons {s t : State} {l : List Input} (h : serveAll s l = .next t) (he : t.err = false)
    (ls : List (List Input)) :
    runStages s (l :: ls) = (runStages t ls).map (fun r => (r.1, readsSince s t :: r.2)) := by
  rw [runStages, h]
  simp [he]

/-- A procedure stops at a command that leaves ERR = 1. -/
theorem runStages_cons_err {s t : State} {l : List Input} (h : serveAll s l = .next t) (he : t.err = true)
    (ls : List (List Input)) : runStages s (l :: ls) = none := by
  rw [runStages, h]
  simp [he]

theorem readsSince_of_append {s t : State} {l : List Word32} (h : t.reads = l ++ s.reads) :
    readsSince s t = l.reverse := by
  simp [readsSince, h]

end Sys2Proof.Machine
end

