-- ==== Sys2Proof/Laws/Step.lean ====
section
/-! SUPPORT. What a step can be: the four ways it answers a next state, what a performed access can change, and what
every command keeps. Proofs about every step cite these instead of unfolding step. -/

namespace Sys2Proof.Machine

/-! ### Every command -/

/-- A command records an error, or keeps the record and OVR, or is CLRERR. -/
theorem exec_record {i : Instr} {s t : State} (h : exec i s = .next t) : (∃ e, t = s.recordError e) ∨ (t.err = s.err ∧ t.errcode = s.errcode ∧ t.errcmd = s.errcmd ∧ t.ovr = s.ovr) ∨ (i = .clrerr ∧ t = s.clearError) := by
  cases i <;> simp only [exec] at h
  · rw [execNop_next h]; simp
  · rcases execClr_next h with ⟨-, h⟩ | ⟨-, h⟩ <;> rw [h] <;> first | exact .inl ⟨_, rfl⟩ | exact .inr (.inl ⟨rfl,rfl,rfl,rfl⟩)
  · rcases execBitat_next h with ⟨-, -, h⟩ | ⟨-, h⟩ <;> rw [h] <;> first | exact .inl ⟨_, rfl⟩ | exact .inr (.inl ⟨rfl,rfl,rfl,rfl⟩)
  · rcases execSetbit_next h with ⟨-, -, h⟩ | ⟨-, h⟩ <;> rw [h] <;> first | exact .inl ⟨_, rfl⟩ | exact .inr (.inl ⟨rfl,rfl,rfl,rfl⟩)
  · rcases execRdidx_next h with ⟨-, -, h⟩ | ⟨-, h⟩ <;> rw [h] <;> first | exact .inl ⟨_, rfl⟩ | exact .inr (.inl ⟨rfl,rfl,rfl,rfl⟩)
  · rcases execWridx_next h with ⟨-, -, h⟩ | ⟨-, h⟩ <;> rw [h] <;> first | exact .inl ⟨_, rfl⟩ | exact .inr (.inl ⟨rfl,rfl,rfl,rfl⟩)
  · rcases execRdbyte_next h with ⟨-, -, h⟩ | ⟨-, h⟩ <;> rw [h] <;> first | exact .inl ⟨_, rfl⟩ | exact .inr (.inl ⟨rfl,rfl,rfl,rfl⟩)
  · rcases execWrbyte_next h with ⟨-, -, h⟩ | ⟨-, h⟩ <;> rw [h] <;> first | exact .inl ⟨_, rfl⟩ | exact .inr (.inl ⟨rfl,rfl,rfl,rfl⟩)
  · rcases execEncsetup_next h with ⟨-, -, -, m, -, h⟩ | ⟨-, -, h⟩ | ⟨-, h⟩ <;> rw [h] <;> first | exact .inl ⟨_, rfl⟩ | exact .inr (.inl ⟨rfl,rfl,rfl,rfl⟩)
  · rcases execEncw_next h with ⟨-, -, -, m, -, h⟩ | ⟨-, -, h⟩ | ⟨-, h⟩ <;> rw [h] <;> first | exact .inl ⟨_, rfl⟩ | exact .inr (.inl ⟨rfl,rfl,rfl,rfl⟩)
  · rcases execDecsetup_next h with ⟨-, -, h⟩ | ⟨-, h⟩ <;> rw [h] <;> first | exact .inl ⟨_, rfl⟩ | exact .inr (.inl ⟨rfl,rfl,rfl,rfl⟩)
  · rcases execDecw_next h with ⟨-, -, -, _, _, -, -, h⟩ | ⟨-, -, h⟩ | ⟨-, -, -, h⟩ | ⟨-, h⟩ <;> rw [h] <;> first | exact .inl ⟨_, rfl⟩ | exact .inr (.inl ⟨rfl,rfl,rfl,rfl⟩)
  · exact .inr (.inr ⟨rfl, execClrerr_next h⟩)

/-- What every command keeps. -/
theorem exec_keeps {i : Instr} {s t : State} (h : exec i s = .next t) :
   t.params = s.params ∧ t.wl = s.wl ∧ t.wlReady = s.wlReady ∧ t.rst = s.rst ∧ t.inputs = s.inputs ∧ t.reads = s.reads ∧ t.draws = s.draws ∧ t.win = s.win ∧ t.winlen = s.winlen ∧ t.digest0 = s.digest0 ∧ t.busy = s.busy ∧ t.pend = s.pend := by
  cases i <;> simp only [exec] at h
  · rw [execNop_next h]; simp
  · rcases execClr_next h with ⟨-, h⟩ | ⟨-, h⟩ <;> rw [h] <;> simp
  · rcases execBitat_next h with ⟨-, -, h⟩ | ⟨-, h⟩ <;> rw [h] <;> simp
  · rcases execSetbit_next h with ⟨-, -, h⟩ | ⟨-, h⟩ <;> rw [h] <;> simp
  · rcases execRdidx_next h with ⟨-, -, h⟩ | ⟨-, h⟩ <;> rw [h] <;> simp
  · rcases execWridx_next h with ⟨-, -, h⟩ | ⟨-, h⟩ <;> rw [h] <;> simp
  · rcases execRdbyte_next h with ⟨-, -, h⟩ | ⟨-, h⟩ <;> rw [h] <;> simp
  · rcases execWrbyte_next h with ⟨-, -, h⟩ | ⟨-, h⟩ <;> rw [h] <;> simp
  · rcases execEncsetup_next h with ⟨-, -, -, m, -, h⟩ | ⟨-, -, h⟩ | ⟨-, h⟩ <;> rw [h] <;> simp
  · rcases execEncw_next h with ⟨-, -, -, m, -, h⟩ | ⟨-, -, h⟩ | ⟨-, h⟩ <;> rw [h] <;> simp
  · rcases execDecsetup_next h with ⟨-, -, h⟩ | ⟨-, h⟩ <;> rw [h] <;> simp
  · rcases execDecw_next h with ⟨-, -, -, _, _, -, -, h⟩ | ⟨-, -, h⟩ | ⟨-, -, -, h⟩ | ⟨-, h⟩ <;> rw [h] <;> simp
  · rw [execClrerr_next h]; simp

/-- DVALID is cleared by a successful ENCSETUP only. -/
theorem exec_dvalid {i : Instr} {s t : State} (h : exec i s = .next t) : t.dvalid = s.dvalid ∨ (t.dvalid = false ∧ t.err = s.err ∧ ∃ n, i = .encsetup n) := by
  cases i <;> simp only [exec] at h
  · rw [execNop_next h]; simp
  · rcases execClr_next h with ⟨-, h⟩ | ⟨-, h⟩ <;> rw [h] <;> simp
  · rcases execBitat_next h with ⟨-, -, h⟩ | ⟨-, h⟩ <;> rw [h] <;> simp
  · rcases execSetbit_next h with ⟨-, -, h⟩ | ⟨-, h⟩ <;> rw [h] <;> simp
  · rcases execRdidx_next h with ⟨-, -, h⟩ | ⟨-, h⟩ <;> rw [h] <;> simp
  · rcases execWridx_next h with ⟨-, -, h⟩ | ⟨-, h⟩ <;> rw [h] <;> simp
  · rcases execRdbyte_next h with ⟨-, -, h⟩ | ⟨-, h⟩ <;> rw [h] <;> simp
  · rcases execWrbyte_next h with ⟨-, -, h⟩ | ⟨-, h⟩ <;> rw [h] <;> simp
  · rcases execEncsetup_next h with ⟨-, -, -, m, -, h⟩ | ⟨-, -, h⟩ | ⟨-, h⟩ <;> rw [h] <;> simp
  · rcases execEncw_next h with ⟨-, -, -, m, -, h⟩ | ⟨-, -, h⟩ | ⟨-, h⟩ <;> rw [h] <;> simp
  · rcases execDecsetup_next h with ⟨-, -, h⟩ | ⟨-, h⟩ <;> rw [h] <;> simp
  · rcases execDecw_next h with ⟨-, -, -, _, _, -, -, h⟩ | ⟨-, -, h⟩ | ⟨-, -, -, h⟩ | ⟨-, h⟩ <;> rw [h] <;> simp
  · rw [execClrerr_next h]; simp

/-- WOUT and WOUTLEN are written by ENCW only. -/
theorem exec_wout {i : Instr} {s t : State} (h : exec i s = .next t) : (t.wout = s.wout ∧ t.woutlen = s.woutlen) ∨ ∃ w, i = .encw w := by
  cases i <;> simp only [exec] at h
  · rw [execNop_next h]; simp
  · rcases execClr_next h with ⟨-, h⟩ | ⟨-, h⟩ <;> rw [h] <;> simp
  · rcases execBitat_next h with ⟨-, -, h⟩ | ⟨-, h⟩ <;> rw [h] <;> simp
  · rcases execSetbit_next h with ⟨-, -, h⟩ | ⟨-, h⟩ <;> rw [h] <;> simp
  · rcases execRdidx_next h with ⟨-, -, h⟩ | ⟨-, h⟩ <;> rw [h] <;> simp
  · rcases execWridx_next h with ⟨-, -, h⟩ | ⟨-, h⟩ <;> rw [h] <;> simp
  · rcases execRdbyte_next h with ⟨-, -, h⟩ | ⟨-, h⟩ <;> rw [h] <;> simp
  · rcases execWrbyte_next h with ⟨-, -, h⟩ | ⟨-, h⟩ <;> rw [h] <;> simp
  · rcases execEncsetup_next h with ⟨-, -, -, m, -, h⟩ | ⟨-, -, h⟩ | ⟨-, h⟩ <;> rw [h] <;> simp
  · simp
  · rcases execDecsetup_next h with ⟨-, -, h⟩ | ⟨-, h⟩ <;> rw [h] <;> simp
  · rcases execDecw_next h with ⟨-, -, -, _, _, -, -, h⟩ | ⟨-, -, h⟩ | ⟨-, -, -, h⟩ | ⟨-, h⟩ <;> rw [h] <;> simp
  · rw [execClrerr_next h]; simp

/-- With LEN, the parameters and the store as the invariant and R71 have them, every command answers a next state. -/
theorem exec_total (i : Instr) (s : State) (hi : s.len.toNat ≤ s.params.bufBytes) (hp : s.params.wf) (hw : s.wlReady = true → s.WordListOk) : ∃ t, exec i s = .next t := by
  cases i <;> simp only [exec]
  · exact ⟨_, rfl⟩
  · unfold execClr; split <;> exact ⟨_, rfl⟩
  · unfold execBitat; split
    · next h => rw [reach_of_lt (posByte_lt_of_inBounds (posInBounds_iff.1 h) hi)]; exact ⟨_, rfl⟩
    · exact ⟨_, rfl⟩
  · unfold execSetbit; split
    · next h => rw [reach_of_lt (posByte_lt_of_inBounds (posInBounds_iff.1 h) hi)]; exact ⟨_, rfl⟩
    · exact ⟨_, rfl⟩
  · unfold execRdidx; split
    · next h => rw [reach_of_lt (fieldLastByte_lt_of_inBounds (wordInBounds_iff.1 h) hi)]; exact ⟨_, rfl⟩
    · exact ⟨_, rfl⟩
  · unfold execWridx; split
    · next h => rw [reach_of_lt (fieldLastByte_lt_of_inBounds (wordInBounds_iff.1 h) hi)]; exact ⟨_, rfl⟩
    · exact ⟨_, rfl⟩
  · unfold execRdbyte; split
    · next h => rw [reach_of_lt (lt_of_lt_of_le (addrInBounds_iff.1 h) hi)]; exact ⟨_, rfl⟩
    · exact ⟨_, rfl⟩
  · unfold execWrbyte; split
    · next h => rw [reach_of_lt (lt_of_lt_of_le (addrInBounds_iff.1 h) hi)]; exact ⟨_, rfl⟩
    · exact ⟨_, rfl⟩
  · unfold execEncsetup; split
    · next h =>
      split
      · split
        · rw [reach_of_lt (by have := entropyLengthValid_iff.1 h; obtain ⟨a,b,c,d⟩ := hp; omega)]; exact ⟨_, rfl⟩
        · exact ⟨_, rfl⟩
      · exact ⟨_, rfl⟩
    · exact ⟨_, rfl⟩
  · unfold execEncw; split
    · next h =>
      rw [reach_of_lt (fieldLastByte_lt_of_inBounds (wordInBounds_iff.1 h) hi)]
      split
      · next hr =>
        obtain ⟨v, hv⟩ := romWord_isSome (hw hr) (readIndex s.buf ‹_›)
        rw [hv]; exact ⟨_, rfl⟩
      · exact ⟨_, rfl⟩
    · exact ⟨_, rfl⟩
  · unfold execDecsetup; split
    · exact ⟨_, rfl⟩
    · split <;> exact ⟨_, rfl⟩
  · unfold execDecw; split
    · split
      · exact ⟨_, rfl⟩
      · split
        · exact ⟨_, rfl⟩
        · split
          · next h => rw [reach_of_lt (fieldLastByte_lt_of_inBounds (wordInBounds_iff.1 h) hi)]; exact ⟨_, rfl⟩
          · exact ⟨_, rfl⟩
    · exact ⟨_, rfl⟩
  · exact ⟨_, rfl⟩

/-- The codes of R201 are 1 to 8. -/
theorem ErrCode.code_range (e : ErrCode) : 1 ≤ e.code.toNat ∧ e.code.toNat ≤ 8 := by cases e <;> decide

/-! ### The engine -/

theorem engineStep_next {s t : State} (h : engineStep s = .next t) :
   (s.err = true ∧ s.pend ≠ clrerrWord ∧ t = s.complete) ∨ ((s.err = false ∨ s.pend = clrerrWord) ∧ 
     ((∃ i u, decode s.pend = .ok i ∧ exec i s = .next u ∧ t = u.complete) ∨ (∃ e, decode s.pend = .error e ∧ t = (s.recordError .illegalCommand).complete))) := by
  unfold engineStep at h
  split at h
  · next hb => simp at hb; exact .inl ⟨hb.1, hb.2, next_inj.1 h⟩
  · next hb =>
    refine .inr ⟨?_, ?_⟩
    · simp at hb; by_cases he : s.err = true
      · exact .inr (hb he)
      · exact .inl (by simpa using he)
    obtain ⟨u, hu, rfl⟩ := finish_next.1 h
    unfold executeWord at hu
    split at hu
    · next i hi => exact .inl ⟨i, u, hi, hu, rfl⟩
    · next e he => exact .inr ⟨e, he, by rw [raise_next.1 hu]⟩

theorem engineTurn_next {s t : State} (h : engineTurn s = .next t) : t = s ∨ (s.busy = true ∧ s.rst = false ∧ engineStep s = .next t) := by
  unfold engineTurn at h
  split at h
  · next hb => simp at hb; exact .inr ⟨hb.1, hb.2, h⟩
  · exact .inl (next_inj.1 h)

theorem eq_underReset_withInputs (s : State) (l : List Input) (h : s.rst = true → s = s.underReset true) : (s.withInputs l).rst = true → s.withInputs l = (s.withInputs l).underReset true := by
  intro hr
  have := h hr
  exact congrArg (fun x => State.withInputs x l) this

/-- The list of inputs is no part of the invariant. -/
theorem State.Inv.withInputs {s : State} (h : s.Inv) (l) : (s.withInputs l).Inv := by
  obtain ⟨h1,h2,h3,h4,h5,h6,h7,h8,h9,h10,h11,h12,h13,h14,h15,h16,h17⟩ := h
  exact ⟨h1,h2,h3,h4,h5,h6,h7,h8,h9,h10,h11,h12,h13,h14,h15,h16,eq_underReset_withInputs s l h17⟩

theorem wordListOk_withInputs {s : State} (h : s.wlReady = true → s.WordListOk) (l) : (s.withInputs l).wlReady = true → (s.withInputs l).WordListOk := by
  intro hr; obtain ⟨a,b,c⟩ := h hr; exact ⟨a,b,c⟩

/-- Under the invariant the engine completes any command. -/
theorem engineStep_total (s : State) (hi : s.Inv) (hw : s.wlReady = true → s.WordListOk) : ∃ t, engineStep s = .next t ∧ t.busy = false ∧ t.inputs = s.inputs := by
  unfold engineStep
  split
  · exact ⟨_, rfl, rfl, rfl⟩
  · unfold executeWord
    split
    · next i _ =>
      obtain ⟨t, ht⟩ := exec_total i s hi.len hi.params hw
      rw [ht]
      exact ⟨_, rfl, rfl, (exec_keeps ht).2.2.2.2.1⟩
    · exact ⟨_, rfl, rfl, rfl⟩

/-! ### Host accesses -/

theorem of_ite {α : Type} {c : Prop} [Decidable c] {a b r : α} (h : (if c then a else b) = r) :
    (c ∧ a = r) ∨ (¬ c ∧ b = r) := by
  by_cases hc : c
  · exact .inl ⟨hc, by rwa [if_pos hc] at h⟩
  · exact .inr ⟨hc, by rwa [if_neg hc] at h⟩

theorem offset_of_regAt_cmd {o : Nat} (h : regAt o = .cmd) : o = 0x00 := by
  unfold regAt at h
  iterate 15 (rcases of_ite h with ⟨hc, h'⟩ | ⟨-, h⟩; · first | exact hc | cases h')
  cases h

theorem offset_of_regAt_digest0 {o : Nat} (h : regAt o = .digest0) : o = 0x24 := by
  unfold regAt at h
  iterate 15 (rcases of_ite h with ⟨hc, h'⟩ | ⟨-, h⟩; · first | exact hc | cases h')
  cases h

theorem offset_of_regAt_winlen {o : Nat} (h : regAt o = .winlen) : o = 0x28 := by
  unfold regAt at h
  iterate 15 (rcases of_ite h with ⟨hc, h'⟩ | ⟨-, h⟩; · first | exact hc | cases h')
  cases h

theorem offset_of_regAt_win {o j : Nat} (h : regAt o = .win j) :
    0x40 ≤ o ∧ o ≤ 0x7C ∧ j = (o - 0x40) / 4 := by
  unfold regAt at h
  iterate 15 (rcases of_ite h with ⟨hc, h'⟩ | ⟨-, h⟩; · cases h'; try exact ⟨hc.1, hc.2, rfl⟩)
  cases h

/-- What a performed access can do: a read appends to the host's record; a write is ignored, or dropped with OVR set,
or has its effect at CMD, DIGEST0, WINLEN or the WIN window. -/
inductive Performed (s : State) : Access → State → Prop
  | read (w o : Nat) (v : Word32) (d : Nat) : Performed s (.read w o) { s.pushRead v with draws := d }
  | ignored (w o : Nat) (v : Word32) : Performed s (.write w o v) s
  | dropped (w o : Nat) (v : Word32) (hb : s.busy = true)
      (ho : o = 0x00 ∨ o = 0x24 ∨ o = 0x28 ∨ (0x40 ≤ o ∧ o ≤ 0x7C)) : Performed s (.write w o v) { s with ovr := true }
  | cmd (w : Nat) (v : Word32) (hb : s.busy = false) :
      Performed s (.write w 0x00 v) { s with pend := v, busy := true }
  | digest0 (w : Nat) (v : Word32) (hb : s.busy = false) :
      Performed s (.write w 0x24 v) { s with digest0 := v.extractLsb' 0 8, dvalid := true }
  | winlen (w : Nat) (v : Word32) (hb : s.busy = false) :
      Performed s (.write w 0x28 v) { s with winlen := v.extractLsb' 0 7 }
  | win (w o : Nat) (v : Word32) (hb : s.busy = false) (ho : 0x40 ≤ o ∧ o ≤ 0x7C) :
      Performed s (.write w o v) { s with win := setLanes s.params.wmax s.win ((o - 0x40) / 4) v }

theorem perform_performed (s : State) (a : Access) : Performed s a (perform s a) := by
  cases a with
  | read w o =>
    simp only [perform, hostRead]
    split
    · exact .read w o _ _
    · exact .read w o _ s.draws
  | write w o v =>
    simp only [perform]
    cases hr : regAt o <;> simp only [hostWrite, unlessBusy] <;> try exact .ignored w o v
    · have ho := offset_of_regAt_cmd hr
      by_cases hb : s.busy = true
      · rw [if_pos hb]; exact .dropped w o v hb (.inl ho)
      · rw [if_neg hb, ho]; exact .cmd w v (by simpa using hb)
    · have ho := offset_of_regAt_digest0 hr
      by_cases hb : s.busy = true
      · rw [if_pos hb]; exact .dropped w o v hb (.inr (.inl ho))
      · rw [if_neg hb, ho]; exact .digest0 w v (by simpa using hb)
    · have ho := offset_of_regAt_winlen hr
      by_cases hb : s.busy = true
      · rw [if_pos hb]; exact .dropped w o v hb (.inr (.inr (.inl ho)))
      · rw [if_neg hb, ho]; exact .winlen w v (by simpa using hb)
    · obtain ⟨h1, h2, rfl⟩ := offset_of_regAt_win hr
      by_cases hb : s.busy = true
      · rw [if_pos hb]; exact .dropped w o v hb (.inr (.inr (.inr ⟨h1, h2⟩)))
      · rw [if_neg hb]; exact .win w o v (by simpa using hb) ⟨h1, h2⟩

/-! ### A step -/

/-- The four ways a step answers a next state. -/
inductive Stepped (s t : State) : Prop
  | rst (level : Bool) (rest : List Input) (hi : s.inputs = .rst level :: rest)
      (ht : t = driveRst (s.withInputs rest) level)
  | host (a : Access) (rest : List Input) (hi : s.inputs = .host a :: rest) (hr : s.rst = false)
      (ha : refusalOf a.width a.offset = none) (ht : Performed (s.withInputs rest) a t)
  | engine (rest : List Input) (hn : s.engineNext rest) (hr : s.inFlightReady)
      (ht : engineStep (s.withInputs rest) = .next t)
  | idle (rest : List Input) (hn : s.engineNext rest) (hr : ¬ s.inFlightReady) (ht : t = s.withInputs rest)

theorem withInputs_self {s : State} {l : List Input} (h : s.inputs = l) : s.withInputs l = s := by
  subst h; rfl

/-- With a command in flight and the engine next, a step is the engine's step. -/
theorem step_eq_engineStep {s : State} {rest : List Input} (h : s.engineNext rest) (hr : s.inFlightReady) :
    step s = engineStep (s.withInputs rest) := by
  obtain ⟨hb, hrst⟩ := hr
  rcases h with h | ⟨h, rfl⟩
  · simp [step, h, serve, engineTurn, hb, hrst]
  · rw [withInputs_self h]
    simp [step, h, engineTurn, hb, hrst]

theorem step_host {s : State} {a : Access} {rest : List Input} (hi : s.inputs = .host a :: rest) (hr : s.rst = false)
    (ha : refusalOf a.width a.offset = none) : step s = .next (perform (s.withInputs rest) a) := by
  simp [step, hi, serve, serveAccess, hr, ha]

theorem step_rst {s : State} {level : Bool} {rest : List Input} (hi : s.inputs = .rst level :: rest) :
    step s = .next (driveRst (s.withInputs rest) level) := by
  simp [step, hi, serve]

theorem step_stepped {s t : State} (h : step s = .next t) : Stepped s t := by
  have key (rest : List Input) (hn : s.engineNext rest) (h : engineTurn (s.withInputs rest) = .next t) :
      Stepped s t := by
    unfold engineTurn at h
    split at h
    · next hb => exact .engine rest hn (by simpa using hb) h
    · next hb => exact .idle rest hn (fun hr => hb (by simpa using hr)) (next_inj.1 h)
  unfold step at h
  split at h
  · next hi => exact key [] (.inr ⟨hi, rfl⟩) (by rw [withInputs_self hi]; exact h)
  · next i rest hi =>
    cases i with
    | host a =>
      simp only [serve, serveAccess] at h
      split at h
      · cases h
      · next hr =>
        split at h
        · cases h
        · next ha =>
          have ht := next_inj.1 h
          exact .host a rest hi (by simpa using hr) ha (ht ▸ perform_performed _ _)
    | engine => exact key rest (.inl hi) h
    | rst l => exact .rst l rest hi (next_inj.1 h)

end Sys2Proof.Machine
end

