-- ==== Sys2Proof/Laws/Window.lean ====
section
/-! SUPPORT. The window's shared operations: which offsets are which register, the byte lanes, and one step of an
admitted access. -/

namespace Sys2Proof.Machine

/-! ### The map (R36) -/

theorem regAt_win {j : Nat} (h : j < 16) : regAt (0x40 + 4 * j) = .win j := by
  interval_cases j <;> rfl

theorem regAt_wout {j : Nat} (h : j < 16) : regAt (0x80 + 4 * j) = .wout j := by
  interval_cases j <;> rfl

/-- The reserved offsets of the map, among those a 32-bit access can name (R53). -/
theorem regAt_eq_reserved_iff {off : Nat} (h : off ≤ 0xFF) (h4 : off % 4 = 0) :
    regAt off = .reserved ↔ (0x34 ≤ off ∧ off ≤ 0x3C) ∨ 0xC0 ≤ off := by
  obtain ⟨k, rfl⟩ : ∃ k, off = 4 * k := ⟨off / 4, by omega⟩
  have hk : k < 64 := by omega
  interval_cases k <;> decide

theorem refusalOf_win {j : Nat} (h : j < 16) : refusalOf 32 (0x40 + 4 * j) = none := by
  interval_cases j <;> rfl

theorem refusalOf_wout {j : Nat} (h : j < 16) : refusalOf 32 (0x80 + 4 * j) = none := by
  interval_cases j <;> rfl

/-! ### The byte lanes (R51, R52) -/

@[simp] theorem setLane_length (wmax : Nat) (l : List Byte) (k : Nat) (v : Byte) :
    (setLane wmax l k v).length = l.length := by
  unfold setLane
  split
  · exact List.length_set
  · rfl

@[simp] theorem setLanes_length (wmax : Nat) (l : List Byte) (j : Nat) (v : Word32) :
    (setLanes wmax l j v).length = l.length := by
  simp [setLanes, List.range_succ]

/-- One lane takes its byte where it is below WMAX, and no other byte changes. -/
theorem setLane_getD {wmax : Nat} {l : List Byte} (k : Nat) (v : Byte) (i : Nat) (hl : l.length = wmax) :
    (setLane wmax l k v).getD i 0 = if i = k ∧ k < wmax then v else l.getD i 0 := by
  unfold setLane
  by_cases h : k < wmax
  · rw [if_pos h]
    simp only [List.getD_eq_getElem?_getD, List.getElem?_set, hl, h, and_true, if_true]
    by_cases hik : k = i
    · subst hik; simp
    · simp [hik, Ne.symm hik]
  · rw [if_neg h, if_neg (fun hc => h hc.2)]

/-- Byte lane l of a word, as arithmetic. -/
theorem extractLsb_eq_div (v : Word32) (lane : Nat) :
    v.extractLsb' (8 * lane) 8 = BitVec.ofNat 8 (v.toNat / 256 ^ lane) := by
  apply BitVec.eq_of_toNat_eq
  simp [Nat.shiftRight_eq_div_pow, Nat.pow_mul]

/-- A window register as the number its four bytes make, least first. -/
theorem lanes_toNat (wmax : Nat) (l : List Byte) (j : Nat) :
    (lanes wmax l j).toNat = (laneByte wmax l (4 * j)).toNat + 256 * (laneByte wmax l (4 * j + 1)).toNat
      + 65536 * (laneByte wmax l (4 * j + 2)).toNat + 16777216 * (laneByte wmax l (4 * j + 3)).toNat := by
  unfold lanes
  rw [toNat_append_eq_add, toNat_append_eq_add, toNat_append_eq_add]
  omega

/-! ### One step of an admitted access -/

/-- A read that is exact, because BUSY = 0 or the register is CMD, STATUS or PARAM (R38, R55). -/
theorem step_read {s : State} {off : Nat} {rest : List Input} (hi : s.inputs = .host (.read 32 off) :: rest)
    (hr : s.rst = false) (ha : refusalOf 32 off = none) (hb : s.busy = false ∨ alwaysExact (regAt off) = true) :
    step s = .next ((s.withInputs rest).pushRead (regValue (s.withInputs rest) (regAt off))) := by
  rw [step_host hi hr ha]
  simp only [perform, hostRead]
  rw [if_neg]
  rcases hb with hb | hb <;> simp [hb]

theorem step_write {s : State} {off : Nat} {v : Word32} {rest : List Input}
    (hi : s.inputs = .host (.write 32 off v) :: rest) (hr : s.rst = false) (ha : refusalOf 32 off = none) :
    step s = .next (hostWrite (s.withInputs rest) (regAt off) v) := step_host hi hr ha

theorem statusWord_bit0 (s : State) : (statusWord s).getLsbD 0 = s.busy := by
  simp only [statusWord, BitVec.getLsbD_append]
  simp

end Sys2Proof.Machine
end

