-- ==== Sys2Proof/Tests/Slice0.lean ====
section
/-! SUPPORT. The model's own tests: which commands are well formed, the words of spec/30_encoding.md, one step on small
states from spec/95_test_vectors.md, and for every statement with hypotheses a state and operands that meet them. -/

namespace Sys2Proof.Tests

open Sys2Proof Sys2Proof.Machine

/-! ### Small states -/

/-- Whether an outcome is a next state with the property p. -/
def after (o : Outcome) (p : State → Bool) : Bool :=
  match o with
  | .next t => p t
  | .fault _ => false
  | .refused _ => false

/-- The reset state with an active buffer of n bytes and the listed contents. -/
def buffer (n : Nat) (cells : Memory) : State :=
  { State.reset with len := BitVec.ofNat 8 n, buf := cells }

/-- The command word c in flight on s, with nothing else left to happen. -/
def flying (c : Word32) (s : State) : State := { s with busy := true, pend := c }

/-- s with one input left. -/
def facing (i : Input) (s : State) : State := { s with inputs := [i] }

/-- A ready store of four words, enough for a lookup of the indices 0 to 3. -/
def fourWords : List WlWord := [[0x61], [0x62, 0x63], [0x64], [0x65, 0x66, 0x67]]

/-- A buffer of n bytes beside the store of four words. -/
def lookup (n : Nat) (cells : Memory) : State := { buffer n cells with wl := fourWords, wlReady := true }

/-- s with the key in WIN. -/
def keyed (key : WlWord) (s : State) : State :=
  { s with win := padded s.params.wmax key, winlen := BitVec.ofNat 7 key.length }

/-! ### Well-formedness: one ill-formed command for each check (R101) -/

theorem test_wf_clr : (Instr.clr 65535).wellFormed = true ∧ (Instr.clr 65536).wellFormed = false := by decide
theorem test_wf_bitat : (Instr.bitat 511).wellFormed = true ∧ (Instr.bitat 512).wellFormed = false := by decide
theorem test_wf_setbit : (Instr.setbit 511).wellFormed = true ∧ (Instr.setbit 512).wellFormed = false := by decide
theorem test_wf_rdidx : (Instr.rdidx 255).wellFormed = true ∧ (Instr.rdidx 256).wellFormed = false := by decide
theorem test_wf_wridx : (Instr.wridx 255 2047).wellFormed = true ∧ (Instr.wridx 256 0).wellFormed = false := by decide
theorem test_wf_rdbyte : (Instr.rdbyte 255).wellFormed = true ∧ (Instr.rdbyte 256).wellFormed = false := by decide
theorem test_wf_wrbyte : (Instr.wrbyte 255 0).wellFormed = true ∧ (Instr.wrbyte 256 0).wellFormed = false := by decide
theorem test_wf_encsetup : (Instr.encsetup 65535).wellFormed = true ∧ (Instr.encsetup 65536).wellFormed = false := by
  decide
theorem test_wf_encw : (Instr.encw 255).wellFormed = true ∧ (Instr.encw 256).wellFormed = false := by decide
theorem test_wf_decsetup : (Instr.decsetup 65535).wellFormed = true ∧ (Instr.decsetup 65536).wellFormed = false := by
  decide
theorem test_wf_decw : (Instr.decw 255).wellFormed = true ∧ (Instr.decw 256).wellFormed = false := by decide

/-- R101: an assembler refuses what does not fit, and does not truncate. -/
theorem test_assemble_refuses : assemble (.clr 65536) = none ∧ assemble (.clr 20) = some 0x10000014 := by decide

/-! ### Decoding: the fields of R92 and the opcodes of R95, bit by bit -/

/-- OP 0000, 28 Z bits. -/
theorem test_decode_nop : decode 0b00000000000000000000000000000000 = .ok .nop := by decide
/-- OP 0001, 12 Z bits, N = 20. -/
theorem test_decode_clr : decode 0b00010000000000000000000000010100 = .ok (.clr 20) := by decide
/-- OP 0010, 19 Z bits, POS = 46. -/
theorem test_decode_bitat : decode 0b00100000000000000000000000101110 = .ok (.bitat 46) := by decide
/-- OP 0011, 19 Z bits, POS = 263. -/
theorem test_decode_setbit : decode 0b00110000000000000000000100000111 = .ok (.setbit 263) := by decide
/-- OP 0100, 4 Z bits, WPOS = 4, 16 Z bits. -/
theorem test_decode_rdidx : decode 0b01000000000001000000000000000000 = .ok (.rdidx 4) := by decide
/-- OP 0101, 4 Z bits, WPOS = 4, 5 Z bits, INDEX = 353. -/
theorem test_decode_wridx : decode 0b01010000000001000000000101100001 = .ok (.wridx 4 353) := by decide
/-- OP 0110, 4 Z bits, ADDR = 6, 16 Z bits. -/
theorem test_decode_rdbyte : decode 0b01100000000001100000000000000000 = .ok (.rdbyte 6) := by decide
/-- OP 0111, 4 Z bits, ADDR = 19, 8 Z bits, DATA = 0x5A. -/
theorem test_decode_wrbyte : decode 0b01110000000100110000000001011010 = .ok (.wrbyte 19 0x5A) := by decide
/-- OP 1000, 12 Z bits, N = 340. -/
theorem test_decode_encsetup : decode 0b10000000000000000000000101010100 = .ok (.encsetup 340) := by decide
/-- OP 1001, 4 Z bits, WPOS = 11, 16 Z bits. -/
theorem test_decode_encw : decode 0b10010000000010110000000000000000 = .ok (.encw 11) := by decide
/-- OP 1010, 12 Z bits, N = 12. -/
theorem test_decode_decsetup : decode 0b10100000000000000000000000001100 = .ok (.decsetup 12) := by decide
/-- OP 1011, 4 Z bits, WPOS = 11, 16 Z bits. -/
theorem test_decode_decw : decode 0b10110000000010110000000000000000 = .ok (.decw 11) := by decide
/-- OP 1111, 28 Z bits. -/
theorem test_decode_clrerr : decode 0b11110000000000000000000000000000 = .ok .clrerr := by decide

/-- The illegal words of section 2.6, and N-4 and N-5. -/
theorem test_decode_illegal :
    decode 0x10010000 = .error .reservedBits ∧ decode 0x2000FE00 = .error .reservedBits ∧
    decode 0x40040001 = .error .reservedBits ∧ decode 0x50040800 = .error .reservedBits ∧
    decode 0x51040161 = .error .reservedBits ∧ decode 0x700001AB = .error .reservedBits ∧
    decode 0xC0000000 = .error .reservedOpcode ∧ decode 0xD1234567 = .error .reservedOpcode ∧
    decode 0xE0000000 = .error .reservedOpcode ∧ decode 0x00000001 = .error .reservedBits ∧
    decode 0xF0000001 = .error .reservedBits := by decide

/-- R100: "WRIDX 4, 353 encodes as 0x50040161". -/
theorem test_encode_wridx : encode (.wridx 4 353) = 0x50040161 := by decide

/-- The table's numbering: bit 0 is the least significant bit of the word. -/
theorem test_decodeTableWord : decodeTableWord 32 0x50040161 = some (.wridx 4 353) := by decide

/-- R101: "WRIDX wpos, index". -/
theorem test_listingLine : listingLine (.wridx 4 353) = "WRIDX 4, 353" := by decide

/-! ### Bit-packing (section 2.1) -/

/-- B-2: after V1, BITAT 46 reads 1. -/
theorem test_bitat : after (exec (.bitat 46) (buffer 20 [(5, 0x02), (6, 0xC2)])) (fun t => t.result == 1) = true := by
  decide
/-- B-6: BITAT 160 with LEN = 20. -/
theorem test_bitat_bounds :
    after (exec (.bitat 160) (flying 0x200000A0 (buffer 20 []))) (fun t =>
      t.err && t.errcode == 6 && t.errcmd == 0x200000A0 && t.result == 0) = true := by decide
/-- B-19 and B-20: the first and the last position. -/
theorem test_setbit :
    after (exec (.setbit 0) (buffer 33 [])) (fun t => t.buf == [(0, 0x80)]) = true ∧
    after (exec (.setbit 263) (buffer 33 [])) (fun t => t.buf == [(32, 0x01)]) = true := by decide
/-- B-22: setting a set bit changes nothing. -/
theorem test_setbit_idempotent :
    after (exec (.setbit 0) (buffer 33 [(0, 0x80)])) (fun t => t.buf == [(0, 0x80)] && t.result == 0) = true := by decide
/-- B-3: after V1, RDIDX 4 reads 353. -/
theorem test_rdidx : after (exec (.rdidx 4) (buffer 20 [(5, 0x02), (6, 0xC2)])) (fun t => t.result == 353) = true := by
  decide
/-- B-11: a field that fits in part is refused. -/
theorem test_rdidx_partial : after (exec (.rdidx 3) (buffer 5 [])) (fun t => t.errcode == 6) = true := by decide
/-- V1, the source's unit property. -/
theorem test_wridx :
    after (exec (.wridx 4 353) (buffer 20 [])) (fun t => t.buf == [(5, 0x02), (6, 0xC2)] && t.result == 0) = true := by
  decide
/-- B-9, B-12: fields that straddle three bytes. -/
theorem test_wridx_straddles :
    after (exec (.wridx 2 2047) (buffer 5 [])) (fun t => t.buf == [(2, 0x03), (3, 0xFF), (4, 0x80)]) = true ∧
    after (exec (.wridx 5 0x555) (buffer 9 [])) (fun t => t.buf == [(6, 0x01), (7, 0x55), (8, 0x40)]) = true := by decide

/-! ### Buffer (section 2.2) -/

/-- U-13: CLR zeroes all of BUF, not only [0, N). -/
theorem test_clr :
    after (exec (.clr 10) (buffer 20 [(19, 0x5A)])) (fun t => t.buf == [] && t.len == 10 && t.result == 10) = true := by
  decide
/-- U-4 and U-5: the exact bound. -/
theorem test_clr_bounds :
    after (exec (.clr 33) State.reset) (fun t => !t.err && t.len == 33) = true ∧
    after (exec (.clr 34) State.reset) (fun t => t.errcode == 6 && t.len == 0) = true := by decide
/-- U-12: after V1, RDBYTE 6 reads 0xC2. -/
theorem test_rdbyte : after (exec (.rdbyte 6) (buffer 20 [(5, 0x02), (6, 0xC2)])) (fun t => t.result == 0xC2) = true := by
  decide
/-- U-3: LEN = 0 has no byte. -/
theorem test_rdbyte_bounds : after (exec (.rdbyte 0) (buffer 0 [])) (fun t => t.errcode == 6) = true := by decide
/-- U-10: WRBYTE overwrites and clears bit 7. -/
theorem test_wrbyte :
    after (exec (.wrbyte 0 0x01) (buffer 2 [(0, 0x80)])) (fun t => t.buf == [(0, 0x01)] && t.result == 0) = true := by
  decide
/-- Writing 0x00 unlists the byte. -/
theorem test_wrbyte_zero : after (exec (.wrbyte 0 0) (buffer 2 [(0, 0x80)])) (fun t => t.buf == []) = true := by decide

/-! ### Encoder (section 2.3) -/

/-- E-1 and E-19: the checksum byte is overwritten, not ORed, and the digest byte is consumed. -/
theorem test_encsetup :
    after (exec (.encsetup 16) { buffer 17 [(16, 0xFF)] with digest0 := 0x37, dvalid := true }) (fun t =>
      t.buf == [(16, 0x30)] && t.len == 17 && t.nwords == 12 && t.entlen == 16 && csinfoWord t == 0x0030F004 &&
        !t.dvalid && t.result == 12) = true := by decide
/-- E-12: the length is checked before the digest. -/
theorem test_encsetup_order :
    after (exec (.encsetup 21) State.reset) (fun t => t.errcode == 1) = true ∧
    after (exec (.encsetup 16) State.reset) (fun t => t.errcode == 3) = true := by decide
/-- E-1 and E-21: the last field of the encode of zeros is 3. -/
theorem test_encw :
    after (exec (.encw 11) (lookup 17 [(16, 0x30)])) (fun t =>
      t.result == 3 && t.woutlen == 3 && t.wout == [0x65, 0x66, 0x67, 0, 0, 0, 0, 0]) = true := by decide
/-- E-15 and E-16: BOUNDS before WL_NOT_READY. -/
theorem test_encw_order :
    after (exec (.encw 12) (buffer 17 [])) (fun t => t.errcode == 6) = true ∧
    after (exec (.encw 0) (buffer 17 [])) (fun t => t.errcode == 8) = true := by decide

/-! ### Decoder (section 2.4) -/

/-- D-4: thirteen words. -/
theorem test_decsetup :
    after (exec (.decsetup 13) (buffer 5 [(0, 1)])) (fun t =>
      t.buf == [] && t.len == 18 && t.nwords == 13 && t.entlen == 17 && t.result == 17) = true := by decide
/-- D-1 and D-2: no words, and one word too many. -/
theorem test_decsetup_bounds :
    after (exec (.decsetup 0) State.reset) (fun t => t.errcode == 7) = true ∧
    after (exec (.decsetup 24) State.reset) (fun t => !t.err && t.len == 33) = true ∧
    after (exec (.decsetup 25) State.reset) (fun t => t.errcode == 7) = true := by decide
/-- R161's example: the word of index 3 at position 11. -/
theorem test_decw :
    after (exec (.decw 11) (keyed [0x65, 0x66, 0x67] (lookup 17 []))) (fun t =>
      t.result == 3 && t.buf == [(16, 0x30)]) = true := by decide
/-- D-10, D-11, D-12, D-14: WL_NOT_READY, then UNKNOWN_WORD, then BOUNDS. -/
theorem test_decw_order :
    after (exec (.decw 12) (keyed [0x61] (lookup 17 []))) (fun t => t.errcode == 6) = true ∧
    after (exec (.decw 12) (lookup 17 [])) (fun t => t.errcode == 2) = true ∧
    after (exec (.decw 0) (keyed [0x41] (lookup 17 []))) (fun t => t.errcode == 2 && t.buf == []) = true ∧
    after (exec (.decw 0) (buffer 17 [])) (fun t => t.errcode == 8) = true := by decide

/-! ### Control, errors, the window, reset (sections 2.5, 2.7, 2.8) -/

/-- N-1. -/
theorem test_nop : after (exec .nop (buffer 20 [(5, 0x02)])) (fun t => t.buf == [(5, 0x02)] && t.len == 20) = true := by
  decide
/-- N-2. -/
theorem test_clrerr :
    after (step (flying 0xF0000000 { lookup 0 [] with err := true, errcode := 2, errcmd := 0xB0000000, ovr := true }))
      (fun t => !t.err && t.errcode == 0 && t.errcmd == 0 && !t.ovr && statusWord t == 0x10) = true := by decide
/-- X-1 and X-2: what is discarded while ERR = 1. -/
theorem test_blocked :
    after (step (flying 0x10000014 { buffer 17 [] with err := true, errcode := 3, errcmd := 0x80000010 }))
      (fun t => t.len == 17 && t.errcode == 3 && t.errcmd == 0x80000010 && !t.busy) = true ∧
    after (step (flying 0xC0000000 { buffer 17 [] with err := true, errcode := 3, errcmd := 0x80000010 }))
      (fun t => t.errcode == 3 && t.errcmd == 0x80000010) = true := by decide
/-- N-4: 0x00000001 is not a NOP. -/
theorem test_illegal :
    after (step (flying 0x00000001 State.reset)) (fun t => t.err && t.errcode == 5 && t.errcmd == 1) = true := by decide
/-- X-3, X-4, X-5: writes dropped while BUSY = 1. -/
theorem test_dropped :
    after (step (facing (hostW 0x00 0x10000011) (flying 0x10000014 State.reset)))
      (fun t => t.ovr && t.pend == 0x10000014) = true ∧
    after (step (facing (hostW 0x24 0x37) (flying 0x10000014 State.reset))) (fun t => t.ovr && !t.dvalid) = true ∧
    after (step (facing (hostW 0x40 0x756F6261) (flying 0x10000014 State.reset)))
      (fun t => t.ovr && t.win == State.reset.win) = true := by decide
/-- R51: "abou" in the lanes of the first WIN register, least significant first. -/
theorem test_win_lanes :
    after (step (facing (hostW 0x40 0x756F6261) State.reset))
      (fun t => t.win == [0x61, 0x62, 0x6F, 0x75, 0, 0, 0, 0]) = true := by decide
/-- X-6: PARAM and STATUS are exact while BUSY = 1. R38: CMD reads 0. -/
theorem test_exact_reads :
    after (step (facing (hostR 0x30) (flying 0x10000014 State.reset))) (fun t => t.reads == [0x00000821]) = true ∧
    after (step (facing (hostR 0x00) (flying 0x10000014 State.reset))) (fun t => t.reads == [0]) = true ∧
    after (step (facing (hostR 0x04) (flying 0x10000014 (lookup 0 [])))) (fun t => t.reads == [0x11]) = true := by decide
/-- Z-1: an asserted RST abandons the command in flight. -/
theorem test_rst :
    after (step (facing (.rst true) (flying 0x10000014 (lookup 20 [(5, 2)]))))
      (fun t => t.buf == [] && t.len == 0 && !t.busy && t.rst && statusWord t == 0x10) = true := by decide
/-- R53, R80: a reserved offset, a misaligned one, one beyond the window, a halfword. -/
theorem test_refused :
    refusalOf 32 0x34 = some .reservedOffset ∧ refusalOf 32 0x02 = some .accessMisaligned ∧
    refusalOf 32 0x100 = some .accessBeyondWindow ∧ refusalOf 16 0x00 = some .accessWidth := by decide
/-- The word placed by withFetchWord runs as the next step. -/
theorem test_withFetchWord :
    after (step (State.reset.withFetchWord 32 0x10000014)) (fun t => t.len == 20 && !t.busy) = true := by decide

/-- R163: the indices 3 and 2 packed by hand make 00 60 04, of which the last byte is dropped; a token that is no word
returns nothing. -/
theorem test_decodeProcedure :
    decodeProcedure 0 [[0x65, 0x66, 0x67], [0x64]] (lookup 0 []) = some [0x00, 0x60] ∧
    decodeProcedure 0 [[0x41]] (lookup 0 []) = none := by decide

/-! ### Witnesses: a state and operands that meet the hypotheses of each statement, at the boundary of each clause -/

/-- A word of two bytes for each index. -/
def wordOf (i : Nat) : WlWord := [BitVec.ofNat 8 (i / 256), BitVec.ofNat 8 (i % 256)]

/-- The words of the indices below n. -/
def words (n : Nat) : List WlWord := (List.range n).map wordOf

/-- A store that meets R71. -/
@[irreducible] def wordList : List WlWord := words 2048

theorem wordOf_inj {i j : Nat} (hi : i < 2048) (hj : j < 2048) (h : wordOf i = wordOf j) : i = j := by
  simp only [wordOf, List.cons.injEq, and_true] at h
  have h1 := congrArg BitVec.toNat h.1
  have h2 := congrArg BitVec.toNat h.2
  simp only [BitVec.toNat_ofNat] at h1 h2
  omega

theorem words_length (n : Nat) : (words n).length = n := by simp [words]

theorem words_nodup (n : Nat) (h : n ≤ 2048) : (words n).Nodup :=
  List.Nodup.map_on
    (fun _ hi _ hj he => wordOf_inj (lt_of_lt_of_le (List.mem_range.1 hi) h) (lt_of_lt_of_le (List.mem_range.1 hj) h) he)
    List.nodup_range

theorem words_get {n i : Nat} (h : i < n) : (words n)[i]? = some (wordOf i) := by simp [words, h]

theorem wordList_eq : wordList = words 2048 := by unfold wordList; exact Eq.refl _

theorem wordListOk_of_wl {s : State} (h : s.wl = wordList) (hw : s.params = Params.default) : s.WordListOk := by
  have h := h.trans wordList_eq
  refine ⟨(congrArg List.length h).trans (words_length _), h ▸ words_nodup _ (le_refl _), fun w hm => ?_⟩
  obtain ⟨i, -, rfl⟩ := List.mem_map.1 (h ▸ hm : w ∈ words 2048)
  rw [hw]
  exact ⟨(by decide : 1 ≤ 2), (by decide : 2 ≤ 8)⟩

theorem wordList_get {i : Nat} (h : i < 2048) : wordList[i]? = some (wordOf i) :=
  (congrArg (fun l => l[i]?) wordList_eq).trans (words_get h)

/-- A machine attached to that store, with the result of V1 in BUF. -/
def loaded : State := { buffer 20 [(5, 0x02), (6, 0xC2)] with wl := wordList, wlReady := true }

/-- The same with the command word c in flight and the inputs l left. -/
def atWork (c : Word32) (l : List Input) : State := { flying c loaded with inputs := l }

/-- The invariant holds in a state that is not the reset state. -/
theorem atWork_inv (c : Word32) (l : List Input) : (atWork c l).Inv where
  params := (by decide : Params.default.wf)
  bufWf := (by decide : Memory.wf [(5, 0x02), (6, 0xC2)])
  bufBelow := (by decide : Memory.below [(5, 0x02), (6, 0xC2)] 33)
  len := (by decide : 20 ≤ 33)
  counts := .inl ⟨rfl, rfl⟩
  cslen := .inl rfl
  csmask := rfl
  chk := (by decide : (0 : Byte) &&& 0 = 0)
  result := (by decide : 0 < 2 ^ 11)
  noError := fun _ => ⟨rfl, rfl⟩
  error := fun h => Bool.noConfusion h
  nwords := (by decide : 0 ≤ 46)
  win := rfl
  wout := rfl
  woutlen := (by decide : 0 ≤ 8)
  woutPad := fun k _ => by
    show (List.replicate 8 (0 : Byte)).getD k 0 = 0
    rw [List.getD_eq_getElem?_getD, List.getElem?_replicate]
    split <;> rfl
  reset := fun h => Bool.noConfusion h

theorem loaded_ok : loaded.WordListOk := wordListOk_of_wl rfl rfl

theorem atWork_ok (c : Word32) (l : List Input) : (atWork c l).WordListOk := wordListOk_of_wl rfl rfl

/-- ENCSETUP 16 with a digest byte, before and after. -/
def digested : State := { loaded with digest0 := 0x37, dvalid := true }

/-- What ENCSETUP 16 makes of it. -/
def encoded : State := digested.appendChecksum 16 0xF0

theorem encsetup_digested : exec (.encsetup 16) digested = .next encoded := rfl

theorem witness_DecodeOfEncodeIsTheCommand :
    (Instr.wridx 255 2047).wellFormed = true ∧ (Instr.clr 65535).wellFormed = true ∧
    (Instr.setbit 511).wellFormed = true ∧ (Instr.wrbyte 255 255).wellFormed = true := by decide

theorem witness_EncodeOfDecodeIsTheWord : ∃ (c : Word32) (i : Instr), decode c = .ok i :=
  ⟨0x500407FF, .wridx 4 2047, by decide⟩

theorem witness_EncodedWordsAreTheFormulas : ∃ n p w : Nat, n = 65535 ∧ n < 2 ^ 16 ∧ p = 511 ∧ p < 2 ^ 9 ∧ w = 255 ∧
    w < 2 ^ 8 := ⟨65535, 511, 255, by decide⟩

theorem witness_OpcodeMapSelectsTheDecodedMnemonic : ∃ r ∈ opcodeMap, ∃ r' ∈ opcodeMap, ∃ c : Word32,
    c &&& r.mask = r.pattern ∧ c &&& r'.mask = r'.pattern :=
  ⟨⟨"WRIDX", 0x50000000, 0xFF00F800⟩, by decide, ⟨"WRIDX", 0x50000000, 0xFF00F800⟩, by decide, 0x50FF07FF,
    by decide⟩

theorem witness_LegalWordsAreThoseARowSelects : (atWork 0x00000001 []).err = false ∧
    ∀ r ∈ opcodeMap, (atWork 0x00000001 []).pend &&& r.mask ≠ r.pattern := by
  show _ ∧ ∀ r ∈ opcodeMap, (0x00000001 : Word32) &&& r.mask ≠ r.pattern
  exact ⟨rfl, by decide⟩

/-- The least word and the greatest whose opcode is reserved. -/
theorem witness_ReservedOpcodesSelectNoCommand :
    ((atWork 0xC0000000 []).err = false ∧ 0xC ≤ (atWork 0xC0000000 []).pend.toNat / 2 ^ 28 ∧
      (atWork 0xC0000000 []).pend.toNat / 2 ^ 28 ≤ 0xE) ∧
    ((atWork 0xEFFFFFFF []).err = false ∧ 0xC ≤ (atWork 0xEFFFFFFF []).pend.toNat / 2 ^ 28 ∧
      (atWork 0xEFFFFFFF []).pend.toNat / 2 ^ 28 ≤ 0xE) := by
  show (_ ∧ 0xC ≤ (0xC0000000 : Word32).toNat / 2 ^ 28 ∧ (0xC0000000 : Word32).toNat / 2 ^ 28 ≤ 0xE) ∧
    (_ ∧ 0xC ≤ (0xEFFFFFFF : Word32).toNat / 2 ^ 28 ∧ (0xEFFFFFFF : Word32).toNat / 2 ^ 28 ≤ 0xE)
  exact ⟨⟨rfl, by decide⟩, rfl, by decide⟩

/-- Both ways the engine can be next, and both ways a word is not blocked. -/
theorem witness_StepRunsTheDecodedCommand :
    (State.engineNext (atWork 0x10000014 [.engine, hostR 0x04]) [hostR 0x04] ∧
      State.inFlightReady (atWork 0x10000014 [.engine, hostR 0x04]) ∧
      (atWork 0x10000014 [.engine, hostR 0x04]).err = false ∧ decode 0x10000014 = .ok (.clr 20)) ∧
    (State.engineNext (flying 0xF0000000 { State.reset with err := true }) [] ∧
      State.inFlightReady (flying 0xF0000000 { State.reset with err := true }) ∧
      decode 0xF0000000 = .ok .clrerr) :=
  ⟨⟨.inl rfl, ⟨rfl, rfl⟩, rfl, by decide⟩, .inr ⟨rfl, rfl⟩, ⟨rfl, rfl⟩, by decide⟩

theorem witness_FetchWordRunsNext :
    loaded.err = false ∧ decodeTableWord 32 0xB00B0000 = some (.decw 11) := by decide

theorem witness_IllegalWordOnlyRecordsTheError :
    ((atWork 0xC0000000 []).err = false ∧ decode (atWork 0xC0000000 []).pend = .error .reservedOpcode) ∧
    (atWork 0x00000001 []).err = false ∧ decode (atWork 0x00000001 []).pend = .error .reservedBits :=
  ⟨⟨rfl, by decide⟩, rfl, by decide⟩

theorem witness_BlockedCommandIsDiscarded : ∃ s s' : State, (s.err = true ∧ s.pend ≠ 0xF0000000) ∧
    (s'.err = true ∧ s'.pend = 0xF0000000) :=
  ⟨flying 0xF0000001 { State.reset with err := true }, flying 0xF0000000 { State.reset with err := true }, by decide⟩

theorem witness_FailingCommandChangesOnlyTheRecord : ∃ t, State.reset.err = false ∧
    exec (.rdbyte 0) State.reset = .next t ∧ t.err = true := ⟨_, rfl, rfl, rfl⟩

theorem witness_EngineCompletesThenIdles :
    ((atWork 0x900B0000 [.engine]).Inv ∧ (atWork 0x900B0000 [.engine]).WordListOk ∧
      State.engineNext (atWork 0x900B0000 [.engine]) [] ∧ State.inFlightReady (atWork 0x900B0000 [.engine])) ∧
    State.runOver State.reset :=
  ⟨⟨atWork_inv _ _, atWork_ok _ _, .inl rfl, rfl, rfl⟩, rfl, rfl⟩

theorem witness_NopChangesNothing : (atWork 0x00000000 []).pend = 0x00000000 := rfl

theorem witness_ClrerrClearsTheRecordAndOverrun : (atWork 0xF0000000 []).pend = 0xF0000000 := rfl

/-- The last bit position in bounds and the first that is not. -/
theorem witness_BitatReturnsTheStreamBit : loaded.len.toNat ≤ loaded.params.bufBytes ∧ 159 < 8 * loaded.len.toNat ∧
    8 * loaded.len.toNat ≤ 160 := by decide

theorem witness_SetbitSetsOneBit : loaded.len.toNat ≤ loaded.params.bufBytes ∧ 159 < 8 * loaded.len.toNat ∧
    8 * loaded.len.toNat ≤ 160 := by decide

/-- B-7 and B-8: the last word position in bounds and the first that is not. -/
theorem witness_RdidxReturnsTheField : loaded.len.toNat ≤ loaded.params.bufBytes ∧
    11 * 13 + 11 ≤ 8 * loaded.len.toNat ∧ 8 * loaded.len.toNat < 11 * 14 + 11 := by decide

theorem witness_WridxOrsTheFieldOnly : loaded.len.toNat ≤ loaded.params.bufBytes ∧
    11 * 13 + 11 ≤ 8 * loaded.len.toNat ∧ 8 * loaded.len.toNat < 11 * 14 + 11 := by decide

theorem witness_ClrZeroesTheBuffer : loaded.params.wf ∧ 33 ≤ loaded.params.bufBytes ∧ loaded.params.bufBytes < 34 := by
  decide

theorem witness_RdbyteReturnsTheByte : loaded.len.toNat ≤ loaded.params.bufBytes ∧ 19 < loaded.len.toNat ∧
    loaded.len.toNat ≤ 20 := by decide

theorem witness_WrbyteOverwritesOneByte : loaded.len.toNat ≤ loaded.params.bufBytes ∧ 19 < loaded.len.toNat ∧
    loaded.len.toNat ≤ 20 := by decide

theorem witness_EncsetupAppendsTheChecksum :
    (digested.params.wf ∧ digested.dvalid = true ∧ (32, 8, 0xFF#8, 24) ∈
      [(16, 4, 0xF0#8, 12), (20, 5, 0xF8#8, 15), (24, 6, 0xFC#8, 18), (28, 7, 0xFE#8, 21), (32, 8, 0xFF#8, 24)]) ∧
    36 ∉ [16, 20, 24, 28, 32] ∧ 16 ∈ [16, 20, 24, 28, 32] ∧ loaded.dvalid = false :=
  ⟨⟨by decide, rfl, by decide⟩, by decide, by decide, rfl⟩

theorem witness_EncwReturnsIndexAndWord :
    (loaded.params.wf ∧ loaded.len.toNat ≤ loaded.params.bufBytes ∧ loaded.WordListOk ∧ loaded.wlReady = true ∧
      11 * 13 + 11 ≤ 8 * loaded.len.toNat ∧ 8 * loaded.len.toNat < 11 * 14 + 11) ∧
    (buffer 20 []).wlReady = false ∧ 11 * 13 + 11 ≤ 8 * (buffer 20 []).len.toNat :=
  ⟨⟨by decide, by decide, loaded_ok, rfl, by decide, by decide⟩, rfl, by decide⟩

/-- D-2 and D-1: 24 words fit 33 bytes, 25 and 0 do not. -/
theorem witness_DecsetupSizesAndZeroes : loaded.params.wf ∧ 24 ≠ 0 ∧ (11 * 24 + 7) / 8 ≤ loaded.params.bufBytes ∧
    loaded.params.bufBytes < (11 * 25 + 7) / 8 := by decide

theorem witness_DecwOrsTheWordsIndex :
    (keyed (wordOf 3) loaded).WordListOk ∧ (keyed (wordOf 3) loaded).wlReady = true ∧
    (keyed (wordOf 3) loaded).wl[(3 : Index).toNat]? = some (wordOf 3) ∧
    (keyed (wordOf 3) loaded).winlen.toNat = (wordOf 3).length ∧
    (keyed (wordOf 3) loaded).win.take (wordOf 3).length = wordOf 3 ∧
    11 * 13 + 11 ≤ 8 * (keyed (wordOf 3) loaded).len.toNat ∧
    (keyed (wordOf 3) loaded).len.toNat ≤ (keyed (wordOf 3) loaded).params.bufBytes :=
  ⟨wordListOk_of_wl rfl rfl, rfl, wordList_get (by decide), by decide, by decide, by decide, by decide⟩

theorem witness_DecwErrorsInOrder :
    (buffer 20 []).wlReady = false ∧
    (loaded.wlReady = true ∧ loaded.winlen.toNat = 0) ∧
    (∃ s : State, s.wlReady = true ∧ s.winlen.toNat = s.params.wmax + 1) ∧
    (∃ s : State, s.wlReady = true ∧ 1 ≤ s.winlen.toNat ∧ s.winlen.toNat ≤ s.params.wmax ∧
      s.win.take s.winlen.toNat ∉ s.wl) ∧
    (∃ s : State, s.wlReady = true ∧ s.WordListOk ∧ 1 ≤ s.winlen.toNat ∧ s.winlen.toNat ≤ s.params.wmax ∧
      s.win.take s.winlen.toNat ∈ s.wl ∧ 8 * s.len.toNat < 11 * 14 + 11) := by
  refine ⟨rfl, ⟨rfl, rfl⟩, ⟨{ loaded with winlen := 9 }, rfl, by decide⟩,
    ⟨keyed [0x41] (lookup 20 []), rfl, by decide, by decide, by decide⟩,
    ⟨keyed (wordOf 3) loaded, rfl, wordListOk_of_wl rfl rfl, by decide, by decide, ?_, by decide⟩⟩
  exact List.mem_of_getElem? (wordList_get (i := 3) (by decide))

theorem witness_RdidxAfterWridxIsTheOr : 11 * 13 + 11 ≤ 8 * loaded.len.toNat ∧
    loaded.len.toNat ≤ loaded.params.bufBytes := by decide

/-- B-18: adjacent fields, in either order. -/
theorem witness_WridxCommute : ∃ t u, (buffer 20 []).buf.wf ∧
    exec (.wridx 0 5) (buffer 20 []) = .next t ∧ t.err = (buffer 20 []).err ∧
    exec (.wridx 1 6) (buffer 20 []) = .next u ∧ u.err = (buffer 20 []).err ∧ (buffer 20 []).err = false :=
  ⟨_, _, by decide, rfl, rfl, rfl, rfl, rfl⟩

/-- U-10: WRBYTE clears bit 7 of byte 0, position 0. -/
theorem witness_OnlyFourCommandsClearBits : ∃ t, exec (.wrbyte 0 1) (buffer 2 [(0, 0x80)]) = .next t ∧
    ((buffer 2 [(0, 0x80)]).buf.read (0 / 8)).getLsbD (7 - 0 % 8) = true ∧
    (t.buf.read (0 / 8)).getLsbD (7 - 0 % 8) = false := ⟨_, rfl, by decide, by decide⟩

/-- The last position in bounds, 11, and the first that is not, 12. -/
theorem witness_EncwBoundsAfterEncsetup : (exec (.encsetup 16) digested = .next encoded ∧ encoded.err = false) ∧
    (11 * 11 + 11 ≤ 8 * (16 + 1) ∧ 11 < encoded.nwords.toNat) ∧
    8 * (16 + 1) < 11 * 12 + 11 ∧ encoded.nwords.toNat ≤ 12 :=
  ⟨⟨rfl, rfl⟩, by decide, by decide, by decide⟩

theorem witness_DecwBoundsAfterDecsetup : ∃ t, loaded.params.wf ∧ exec (.decsetup 12) loaded = .next t ∧
    t.err = false := ⟨_, by decide, rfl, rfl⟩

theorem witness_SecondEncsetupNeedsANewDigest : exec (.encsetup 16) digested = .next encoded ∧ encoded.err = false ∧
    32 ∈ [16, 20, 24, 28, 32] := ⟨rfl, rfl, by decide⟩

theorem witness_DecodeOfEncodeGivesTheBufferBack :
    digested.params.wf ∧ digested.WordListOk ∧ digested.wlReady = true ∧
    exec (.encsetup 16) digested = .next encoded ∧ encoded.err = false ∧
    loaded.params = digested.params ∧ loaded.wl = digested.wl ∧ loaded.wlReady = true :=
  ⟨by decide, wordListOk_of_wl rfl rfl, rfl, rfl, rfl, rfl, rfl, rfl⟩

theorem witness_StepKeepsTheInvariant : ∃ t, (atWork 0x10000014 []).Inv ∧ step (atWork 0x10000014 []) = .next t :=
  ⟨_, atWork_inv _ _, rfl⟩

theorem witness_LaunchStateMeetsTheInvariant : Params.wf ⟨33, 1⟩ ∧ Params.wf ⟨64, 64⟩ := by decide

theorem witness_OnlyHostAccessesStopTheMachine :
    ((atWork 0x900B0000 [hostR 0x34]).Inv ∧ (atWork 0x900B0000 [hostR 0x34]).WordListOk) ∧
    step (atWork 0x900B0000 [hostR 0x34]) = .refused .reservedOffset :=
  ⟨⟨atWork_inv _ _, atWork_ok _ _⟩, rfl⟩

theorem witness_StoreAndParametersAreConstant : ∃ t, step (atWork 0x10000014 []) = .next t := ⟨_, rfl⟩

theorem witness_LenHasThreeWriters : ∃ t, (atWork 0x10000021 []).Inv ∧
    exec (.clr 33) (atWork 0x10000021 []) = .next t ∧ t.len ≠ (atWork 0x10000021 []).len :=
  ⟨_, atWork_inv _ _, rfl, by decide⟩

/-- A reset, a CLRERR and a failing command each change the record. -/
theorem witness_ErrorRecordWriters :
    (∃ t, step (facing (.rst true) { State.reset with err := true }) = .next t ∧ t.err ≠ true) ∧
    (∃ t, step (flying 0xF0000000 { State.reset with err := true }) = .next t ∧ t.err ≠ true) ∧
    (∃ t, step (flying 0x20000000 State.reset) = .next t ∧ t.err ≠ State.reset.err) :=
  ⟨⟨_, rfl, by decide⟩, ⟨_, rfl, by decide⟩, ⟨_, rfl, by decide⟩⟩

/-- A dropped write to each of the four, and CLRERR. -/
theorem witness_OverrunWriters :
    (∀ off ∈ [0x00, 0x24, 0x28, 0x40, 0x7C],
      after (step (facing (hostW off 1) (flying 0 State.reset))) (fun t => t.ovr != State.reset.ovr) = true) ∧
    after (step (flying 0xF0000000 { State.reset with ovr := true })) (fun t => t.ovr != true) = true := by decide

theorem witness_DigestValidWriters :
    after (step (facing (hostW 0x24 0x37) State.reset)) (fun t => t.dvalid != State.reset.dvalid) = true ∧
    after (step (flying 0x80000010 digested)) (fun t => t.dvalid != digested.dvalid) = true := by decide

theorem witness_WordRegisterWriters :
    after (step (facing (hostW 0x28 1) State.reset)) (fun t => t.winlen != State.reset.winlen) = true ∧
    after (step (facing (hostW 0x40 1) State.reset)) (fun t => t.win != State.reset.win) = true ∧
    after (step (flying 0x90000000 (lookup 17 []))) (fun t => t.wout != State.reset.wout) = true := by decide

/-- Two memories that agree below LEN = 20 and differ at 20. -/
theorem witness_BytesBeyondLenHaveNoInfluence : ∀ a, a < loaded.len.toNat →
    Memory.read [(5, 0x02), (6, 0xC2), (20, 0xFF)] a = loaded.buf.read a := by
  intro a ha
  have : a < 20 := ha
  interval_cases a <;> rfl

theorem witness_ResetPutsEveryElementAtItsValue :
    (atWork 0x10000014 [.rst true]).inputs = [.rst true] ∧
    (facing (.rst false) { State.reset with rst := true }).inputs = [.rst false] ∧
    (facing (.rst false) { State.reset with rst := true }).rst = true := ⟨rfl, rfl, rfl⟩

theorem witness_CmdWriteIsAcceptedOrDropped :
    ((facing (hostW 0x00 0x10000014) loaded).rst = false ∧ (facing (hostW 0x00 0x10000014) loaded).busy = false ∧
      (facing (hostW 0x00 0x10000014) loaded).inputs = [.host (.write 32 0x00 0x10000014)]) ∧
    (atWork 0 [hostW 0x00 1]).busy = true ∧ (atWork 0 [hostW 0x00 1]).inputs = [.host (.write 32 0x00 1)] ∧
    (atWork 0 [hostR 0x00]).inputs = [.host (.read 32 0x00)] := ⟨⟨rfl, rfl, rfl⟩, rfl, rfl, rfl⟩

theorem witness_DigestWriteSetsValid :
    ((facing (hostW 0x24 0x1FF) loaded).rst = false ∧ (facing (hostW 0x24 0x1FF) loaded).busy = false ∧
      (facing (hostW 0x24 0x1FF) loaded).inputs = [.host (.write 32 0x24 0x1FF)]) ∧
    (atWork 0 [hostW 0x24 1]).busy = true ∧ (atWork 0 [hostW 0x24 1]).inputs = [.host (.write 32 0x24 1)] ∧
    (facing (hostR 0x24) loaded).inputs = [.host (.read 32 0x24)] := ⟨⟨rfl, rfl, rfl⟩, rfl, rfl, rfl⟩

theorem witness_WinlenWriteAndRead :
    ((facing (hostW 0x28 0xFF) loaded).rst = false ∧ (facing (hostW 0x28 0xFF) loaded).busy = false ∧
      (facing (hostW 0x28 0xFF) loaded).inputs = [.host (.write 32 0x28 0xFF)]) ∧
    (atWork 0 [hostW 0x28 1]).busy = true ∧ (atWork 0 [hostW 0x28 1]).inputs = [.host (.write 32 0x28 1)] ∧
    (facing (hostR 0x28) loaded).inputs = [.host (.read 32 0x28)] := ⟨⟨rfl, rfl, rfl⟩, rfl, rfl, rfl⟩

/-- The last register below WMAX = 8 and the last of the window. -/
theorem witness_WinWindowLanes :
    (loaded.rst = false ∧ 15 < 16 ∧ loaded.win.length = loaded.params.wmax ∧ loaded.busy = false) ∧
    (facing (hostW 0x44 1) loaded).inputs = [.host (.write 32 (0x40 + 4 * 1) 1)] ∧
    (facing (hostR 0x7C) loaded).inputs = [.host (.read 32 (0x40 + 4 * 15))] ∧
    (atWork 0 [hostW 0x44 1]).busy = true := ⟨⟨rfl, by decide, rfl, rfl⟩, rfl, rfl, rfl⟩

theorem witness_WoutWindowLanes : loaded.rst = false ∧ 15 < 16 ∧ loaded.busy = false ∧
    (facing (hostR 0xBC) loaded).inputs = [.host (.read 32 (0x80 + 4 * 15))] ∧
    (facing (hostW 0xBC 1) loaded).inputs = [.host (.write 32 (0x80 + 4 * 15) 1)] := ⟨rfl, by decide, rfl, rfl, rfl⟩

theorem witness_StatusIsAlwaysExact : (atWork 0x10000014 [hostR 0x04]).rst = false ∧
    (atWork 0x10000014 [hostR 0x04]).inputs = [.host (.read 32 0x04)] ∧
    (atWork 0x10000014 [hostW 0x04 1]).inputs = [.host (.write 32 0x04 1)] := ⟨rfl, rfl, rfl⟩

theorem witness_ParamIsAlwaysExact : (atWork 0 [hostR 0x30]).params.wf ∧ (atWork 0 [hostR 0x30]).rst = false ∧
    (atWork 0 [hostR 0x30]).inputs = [.host (.read 32 0x30)] ∧
    (atWork 0 [hostW 0x30 1]).inputs = [.host (.write 32 0x30 1)] ∧ ∃ t, step (atWork 0 [hostR 0x30]) = .next t :=
  ⟨by decide, rfl, rfl, rfl, _, rfl⟩

theorem witness_ResultRegistersRead : (facing (hostR 0x20) encoded).rst = false ∧
    (facing (hostR 0x20) encoded).busy = false ∧
    (facing (hostR 0x20) encoded).inputs = [.host (.read 32 0x20)] ∧
    encoded.cslen.toNat + 256 * encoded.csmask.toNat + 65536 * encoded.chk.toNat = 0x30F004 :=
  ⟨rfl, rfl, rfl, by decide⟩

theorem witness_ReadsHaveNoSideEffect :
    ((atWork 0 [hostR 0xBC]).rst = false ∧ 0xBC ≤ 0xFC ∧ 0xBC % 4 = 0 ∧ 0xBC ∉ [0x34, 0x38, 0x3C] ∧ 0xBC < 0xC0 ∧
      (atWork 0 [hostR 0xBC]).inputs = [.host (.read 32 0xBC)]) ∧
    ({ loaded with inputs := [hostR 0xBC, hostR 0xBC] } : State).busy = false :=
  ⟨⟨rfl, by decide, by decide, by decide, by decide, rfl⟩, rfl⟩

theorem witness_ReadOnlyWritesAreIgnored : (atWork 0 [hostW 0x30 1]).rst = false ∧
    0x30 ∈ [0x04, 0x08, 0x0C, 0x10, 0x14, 0x18, 0x1C, 0x20, 0x2C, 0x30] ∧
    (atWork 0 [hostW 0x30 1]).inputs = [.host (.write 32 0x30 1)] := ⟨rfl, by decide, rfl⟩

/-- The last register of the map and the first reserved offset. -/
theorem witness_WhichAccessesAreRefused : (facing (hostR 0xBC) loaded).inputs = [.host (.read 32 0xBC)] ∧
    (facing (hostR 0xC0) loaded).inputs = [.host (.read 32 0xC0)] := ⟨rfl, rfl⟩

theorem witness_HostAccessFrame : ∃ t, (facing (hostW 0x40 1) loaded).inputs = [.host (.write 32 0x40 1)] ∧
    step (facing (hostW 0x40 1) loaded) = .next t := ⟨_, rfl, rfl⟩

theorem witness_CommandLineExecutesItsCommand : ∃ t,
    loaded.rst = false ∧ loaded.busy = false ∧ loaded.err = false ∧ (Instr.clr 33).wellFormed = true ∧
    ({ loaded with inputs := commandLine 2 (.clr 33) } : State).inputs = commandLine 2 (.clr 33) ++ [] ∧
    exec (.clr 33) { loaded with inputs := [], pend := encode (.clr 33), busy := true } = .next t :=
  ⟨_, rfl, rfl, rfl, by decide, rfl, rfl⟩

/-- A word, a key of no bytes, and one longer than the 64-byte window. -/
theorem witness_WkeyPresentsTheKey :
    (∀ key : WlWord, ({ loaded with inputs := wkey key } : State).rst = false ∧
      ({ loaded with inputs := wkey key } : State).inputs = wkey key ++ []) ∧
    loaded.busy = false ∧ loaded.params.wf ∧ loaded.win.length = loaded.params.wmax ∧
    (1 ≤ (wordOf 3).length ∧ (wordOf 3).length ≤ loaded.params.wmax) ∧
    ([] : WlWord).length = 0 ∧ loaded.params.wmax < (List.replicate 65 (0x61 : Byte)).length := by
  refine ⟨fun key => ⟨rfl, ?_⟩, rfl, by decide, rfl, by decide, rfl, by decide⟩
  simp

/-- One word and the longest decode of 33 bytes; and a token that is no word. -/
theorem witness_DecodeProcedureReturnsTheEntropy :
    (loaded.rst = false ∧ loaded.busy = false ∧ loaded.err = false ∧ loaded.params.wf ∧
      loaded.win.length = loaded.params.wmax ∧ loaded.WordListOk ∧ loaded.wlReady = true) ∧
    (∀ n, 1 ≤ n → n ≤ 24 → List.replicate n (wordOf 3) ≠ [] ∧
      (11 * (List.replicate n (wordOf 3)).length + 7) / 8 ≤ loaded.params.bufBytes ∧
      (List.replicate n (3 : Index)).map (fun i => loaded.wl[i.toNat]?) = (List.replicate n (wordOf 3)).map some) ∧
    ∃ w ∈ [([] : WlWord)], w ∉ loaded.wl := by
  refine ⟨⟨rfl, rfl, rfl, by decide, rfl, loaded_ok, rfl⟩, fun n h1 h2 => ⟨?_, ?_, ?_⟩, [], by simp, fun h => ?_⟩
  · cases n
    · omega
    · simp
  · show _ ≤ 33
    simp only [List.length_replicate]
    omega
  · simp only [List.map_replicate]
    congr 1
    exact wordList_get (i := 3) (by decide)
  · exact absurd (loaded_ok.fits _ h).1 (by decide)

end Sys2Proof.Tests
end

section
/-! PROOF. What surrounds the engine stays as it is (spec/00_scope.md R6, spec/20_memory.md R71 (vi), R73): the part of
a state that is the instance, and that each of the four ways of a step keeps it. -/

namespace Sys2Proof.Machine

/-- t belongs to the same instance as s, attached to the same store with the same level of WL_READY. -/
def State.SameInstance (s t : State) : Prop := t.params = s.params ∧ t.wl = s.wl ∧ t.wlReady = s.wlReady

@[simp] theorem State.sameInstance_complete (s t : State) : s.SameInstance t.complete ↔ s.SameInstance t := Iff.rfl

@[simp] theorem State.withInputs_sameInstance (s t : State) (l : List Input) :
    (s.withInputs l).SameInstance t ↔ s.SameInstance t := Iff.rfl

theorem State.SameInstance.refl (s : State) : s.SameInstance s := ⟨rfl, rfl, rfl⟩

theorem exec_sameInstance {i : Instr} {s t : State} (h : exec i s = .next t) : s.SameInstance t := by
  obtain ⟨hparams, hwl, hready, -⟩ := exec_keeps h
  exact ⟨hparams, hwl, hready⟩

/-- A command in flight keeps the instance, whether it is discarded, executed or illegal. -/
theorem engineStep_sameInstance {s t : State} (h : engineStep s = .next t) : s.SameInstance t := by
  rcases engineStep_next h with ⟨-, -, rfl⟩ | ⟨-, ⟨i, u, -, hu, rfl⟩ | ⟨e, -, rfl⟩⟩
  · exact .refl s
  · exact (State.sameInstance_complete s u).2 (exec_sameInstance hu)
  · exact ⟨rfl, rfl, rfl⟩

/-- The host has no access to the parameters, the store or WL_READY. -/
theorem Performed.sameInstance {s t : State} {a : Access} (h : Performed s a t) : s.SameInstance t := by
  cases h <;> exact ⟨rfl, rfl, rfl⟩

/-- RST resets the engine, not what it is attached to (spec/70_reset_and_hazards.md R230). -/
theorem driveRst_sameInstance (s : State) (level : Bool) : s.SameInstance (driveRst s level) := by
  unfold driveRst
  split
  · exact ⟨State.underReset_params s level, State.underReset_wl s level, State.underReset_wlReady s level⟩
  · exact .refl s

theorem step_sameInstance {s t : State} (h : step s = .next t) : s.SameInstance t := by
  cases step_stepped h with
  | rst level rest _ ht => simpa [ht] using driveRst_sameInstance (s.withInputs rest) level
  | host a rest _ _ _ ht => simpa using ht.sameInstance
  | engine rest _ _ ht => simpa using engineStep_sameInstance ht
  | idle rest _ _ ht => simpa [ht] using State.SameInstance.refl (s.withInputs rest)

/-- Settles O38: each of the four ways of a step keeps the instance. -/
theorem storeAndParametersAreConstant : Obligations.StoreAndParametersAreConstant :=
  fun _ _ h => step_sameInstance h

end Sys2Proof.Machine
end

section
/-! PROOF. The invariant of R56 (spec/10_state.md): every named update of the state keeps it, hence every command, every
performed access and every change of RST, hence every step. -/

namespace Sys2Proof.Machine

/-! ### The launch state and reset -/

theorem launch_inv {p : Params} (hp : p.wf) (wl : List WlWord) (ready : Bool) : (State.launch p wl ready).Inv where
  params := hp
  bufWf := Memory.wf_nil
  bufBelow := by simp
  len := by simp
  counts := .inl ⟨rfl, rfl⟩
  cslen := .inl rfl
  csmask := rfl
  chk := by simp
  result := by simp
  noError := fun _ => ⟨rfl, rfl⟩
  error := nofun
  nwords := by simp
  win := List.length_replicate
  wout := List.length_replicate
  woutlen := by simp
  woutPad := fun k _ => by by_cases hk : k < p.wmax <;> simp [hk]
  reset := nofun

theorem underReset_inv {s : State} (hp : s.params.wf) (level : Bool) : (s.underReset level).Inv :=
  { launch_inv hp s.wl s.wlReady with
    reset := fun (h : level = true) => by subst h; rfl }

theorem State.Inv.driveRst {s : State} (h : s.Inv) (level : Bool) : (driveRst s level).Inv := by
  unfold Machine.driveRst
  split
  · exact underReset_inv h.params level
  · exact h

/-- Settles O36: the launch state of any parameters in range meets the invariant, and reset is one of them. -/
theorem launchStateMeetsTheInvariant : Obligations.LaunchStateMeetsTheInvariant :=
  ⟨launch_inv (by decide) [] false, fun _ wl ready hp => launch_inv hp wl ready⟩

/-- R7's row of each of the five lengths: the words fit the buffer exactly as R140 sizes it, and the mask is the top
bits of a byte, as many as the checksum has. -/
theorem checksum_row {n : Nat} {mask : Byte} (hv : entropyLengthValid n = true)
    (hm : checksumMask (8 * n) = some mask) :
    n ≤ 32 ∧ (wordCount (8 * n) ≤ 24 ∧ 11 * wordCount (8 * n) ≤ 8 * (n + 1)) ∧
      (4 ≤ checksumLength (8 * n) ∧ checksumLength (8 * n) ≤ 8) ∧
      mask = 0xFF#8 <<< (8 - checksumLength (8 * n)) := by
  rcases entropyLengthValid_iff.1 hv with rfl | rfl | rfl | rfl | rfl <;> cases hm <;> decide

theorem toNat_ofNat_le (w k : Nat) : (BitVec.ofNat w k).toNat ≤ k := Nat.mod_le k (2 ^ w)

/-- WOUT is 0x00 at and above the word's length (R34). -/
theorem padded_getD_of_le {n k : Nat} {w : WlWord} (h : w.length ≤ k) : (padded n w).getD k 0 = 0 := by
  by_cases hk : k < n <;> simp [padded, hk, h]

/-! ### The named updates, with RST released -/

/-- With RST released the invariant's clause about reset asks for nothing. -/
theorem reset_of_released {s : State} (hr : s.rst = false) : s.rst = true → s = s.underReset true := by
  simp [hr]

section
variable {s : State} (h : s.Inv) (hr : s.rst = false)
include h hr

theorem State.Inv.complete : s.complete.Inv := { h with reset := reset_of_released hr }

theorem State.Inv.recordError (e : ErrCode) : (s.recordError e).Inv :=
  { h with noError := nofun, error := fun _ => e.code_range, reset := reset_of_released hr }

theorem State.Inv.clearError : s.clearError.Inv :=
  { h with noError := fun _ => ⟨rfl, rfl⟩, error := nofun, reset := reset_of_released hr }

theorem State.Inv.putResult {v : Word32} (hv : v.toNat < 2 ^ 11) : (s.putResult v).Inv :=
  { h with result := hv, reset := reset_of_released hr }

theorem State.Inv.putBuf {m : Memory} (hw : m.wf) (hb : m.below s.params.bufBytes) : (s.putBuf m).Inv :=
  { h with bufWf := hw, bufBelow := hb, reset := reset_of_released hr }

/-- An empty buffer of a length that fits, with the counts of no operation or of one over the whole length. -/
theorem State.Inv.newBuffer {len nwords entlen : Nat} (hl : len ≤ s.params.bufBytes) (hn : nwords ≤ 46)
    (hc : (nwords = 0 ∧ entlen = 0) ∨ (entlen + 1 = len ∧ 11 * nwords ≤ 8 * len)) :
    (s.newBuffer len nwords entlen).Inv := by
  have hmax := h.params.2.1
  exact { h with
    bufWf := Memory.wf_nil
    bufBelow := by simp
    len := (toNat_ofNat_le 8 len).trans hl
    counts := hc.imp (fun h0 => by simp [h0]) (fun h1 => by
      simp (disch := omega) only [State.newBuffer_len, State.newBuffer_nwords, State.newBuffer_entlen,
        BitVec.toNat_ofNat, Nat.mod_eq_of_lt]
      exact h1)
    cslen := .inl rfl
    csmask := rfl
    chk := by simp
    nwords := (toNat_ofNat_le 8 nwords).trans hn
    reset := reset_of_released hr }

/-- ENCSETUP's writes, for one of the five lengths with its mask. -/
theorem State.Inv.appendChecksum {n : Nat} {mask : Byte} (hv : entropyLengthValid n = true)
    (hm : checksumMask (8 * n) = some mask) (hb : n < s.params.bufBytes) : (s.appendChecksum n mask).Inv := by
  have hmax := h.params.2.1
  obtain ⟨hn, ⟨hwords, hfit⟩, hcs, hmask⟩ := checksum_row hv hm
  have hlen : (BitVec.ofNat 4 (checksumLength (8 * n))).toNat = checksumLength (8 * n) := Nat.mod_eq_of_lt (by omega)
  have hne : BitVec.ofNat 4 (checksumLength (8 * n)) ≠ 0 := fun h0 => by
    rw [h0] at hlen
    exact absurd hlen (Nat.ne_of_lt (Nat.lt_of_lt_of_le (by decide) hcs.1))
  exact { h with
    bufWf := Memory.wf_write h.bufWf n _
    bufBelow := Memory.below_write h.bufBelow hb _
    len := (toNat_ofNat_le 8 (n + 1)).trans hb
    counts := .inr (by
      simp (disch := omega) only [State.appendChecksum_len, State.appendChecksum_nwords, State.appendChecksum_entlen,
        BitVec.toNat_ofNat, Nat.mod_eq_of_lt]
      exact ⟨trivial, hfit⟩)
    cslen := .inr (by rw [State.appendChecksum_cslen, hlen]; exact hcs)
    csmask := by
      simp only [State.MaskOfLength, State.appendChecksum_cslen, State.appendChecksum_csmask, if_neg hne, hmask, hlen]
    chk := by simp [BitVec.and_assoc]
    result := (toNat_ofNat_le 32 _).trans_lt (by omega)
    nwords := (toNat_ofNat_le 8 _).trans (by omega)
    reset := reset_of_released hr }

theorem State.Inv.putWout {w : WlWord} (hw : w.length ≤ s.params.wmax) : (s.putWout w).Inv := by
  have hmax := h.params.2.2.2
  have hlen : (s.putWout w).woutlen.toNat = w.length := Nat.mod_eq_of_lt (by omega)
  exact { h with
    wout := by simp [padded]
    woutlen := hlen.le.trans hw
    woutPad := fun k hk => padded_getD_of_le (hlen.ge.trans hk)
    reset := reset_of_released hr }

end

/-! ### Every command -/

/-- A value of at most eleven bits is in RESULT's range (R40). -/
theorem toNat_setWidth_lt {n : Nat} (hn : n ≤ 11) (x : BitVec n) : (x.setWidth 32).toNat < 2 ^ 11 :=
  calc (x.setWidth 32).toNat ≤ x.toNat := by rw [BitVec.toNat_setWidth]; exact Nat.mod_le _ _
    _ < 2 ^ n := x.isLt
    _ ≤ 2 ^ 11 := Nat.pow_le_pow_right (by decide) hn

/-- A command that writes BUF within BUF_BYTES, in canonical form, and leaves RESULT in its range. -/
theorem State.Inv.putBuf_putResult {s : State} (h : s.Inv) (hr : s.rst = false) {m : Memory} {v : Word32} (hw : m.wf)
    (hb : m.below s.params.bufBytes) (hv : v.toNat < 2 ^ 11) : ((s.putBuf m).putResult v).Inv :=
  (h.putBuf hr hw hb).putResult hr hv

/-- Every command keeps the invariant: each writes what its inversion lemma lists, or records an error. -/
theorem exec_inv {i : Instr} {s t : State} (h : s.Inv) (hr : s.rst = false) (he : exec i s = .next t) : t.Inv := by
  cases i with
  | nop => exact execNop_next he ▸ h
  | clr n =>
    rcases execClr_next he with ⟨hn, rfl⟩ | ⟨-, rfl⟩
    · have hmax := h.params.2.1
      exact (h.newBuffer hr hn (by decide) (.inl ⟨rfl, rfl⟩)).putResult hr ((toNat_ofNat_le ..).trans_lt (by omega))
    · exact h.recordError hr _
  | bitat p =>
    rcases execBitat_next he with ⟨-, -, rfl⟩ | ⟨-, rfl⟩
    · exact h.putResult hr (toNat_setWidth_lt (by decide) _)
    · exact h.recordError hr _
  | setbit p =>
    rcases execSetbit_next he with ⟨-, hp, rfl⟩ | ⟨-, rfl⟩
    · exact h.putBuf_putResult hr (wf_setBit h.bufWf p) (below_setBit h.bufBelow hp) (by decide)
    · exact h.recordError hr _
  | rdidx w =>
    rcases execRdidx_next he with ⟨-, -, rfl⟩ | ⟨-, rfl⟩
    · exact h.putResult hr (toNat_setWidth_lt (by decide) _)
    · exact h.recordError hr _
  | wridx w x =>
    rcases execWridx_next he with ⟨-, hw, rfl⟩ | ⟨-, rfl⟩
    · exact h.putBuf_putResult hr (wf_writeIndex h.bufWf w x) (below_writeIndex h.bufBelow hw x) (by decide)
    · exact h.recordError hr _
  | rdbyte a =>
    rcases execRdbyte_next he with ⟨-, -, rfl⟩ | ⟨-, rfl⟩
    · exact h.putResult hr (toNat_setWidth_lt (by decide) _)
    · exact h.recordError hr _
  | wrbyte a d =>
    rcases execWrbyte_next he with ⟨-, ha, rfl⟩ | ⟨-, rfl⟩
    · exact h.putBuf_putResult hr (Memory.wf_write h.bufWf a d) (Memory.below_write h.bufBelow ha d) (by decide)
    · exact h.recordError hr _
  | encsetup n =>
    rcases execEncsetup_next he with ⟨hv, hb, -, mask, hm, rfl⟩ | ⟨-, -, rfl⟩ | ⟨-, rfl⟩
    · exact h.appendChecksum hr hv hm hb
    · exact h.recordError hr _
    · exact h.recordError hr _
  | encw w =>
    rcases execEncw_next he with ⟨-, -, -, v, hv, rfl⟩ | ⟨-, -, rfl⟩ | ⟨-, rfl⟩
    · exact (h.putWout hr (romWord_some hv).2.2).putResult hr (toNat_setWidth_lt (by decide) _)
    · exact h.recordError hr _
    · exact h.recordError hr _
  | decsetup n =>
    rcases execDecsetup_next he with ⟨hn, hb, rfl⟩ | ⟨-, rfl⟩
    · have hmax := h.params.2.1
      have hsize : 8 * dataSize n ≤ 11 * n + 7 ∧ 11 * n ≤ 8 * dataSize n := by unfold dataSize; omega
      exact (h.newBuffer hr hb (by omega) (.inr ⟨by omega, hsize.2⟩)).putResult hr
        ((toNat_ofNat_le ..).trans_lt (by omega))
    · exact h.recordError hr _
  | decw w =>
    rcases execDecw_next he with ⟨-, -, hw, key, x, -, -, rfl⟩ | ⟨-, -, rfl⟩ | ⟨-, -, -, rfl⟩ | ⟨-, rfl⟩
    · exact h.putBuf_putResult hr (wf_writeIndex h.bufWf w x) (below_writeIndex h.bufBelow hw x)
        (toNat_setWidth_lt (by decide) x)
    · exact h.recordError hr _
    · exact h.recordError hr _
    · exact h.recordError hr _
  | clrerr => exact execClrerr_next he ▸ h.clearError hr

/-- The command in flight keeps the invariant, whether it is discarded, executed or illegal. -/
theorem engineStep_inv {s t : State} (h : s.Inv) (hr : s.rst = false) (he : engineStep s = .next t) : t.Inv := by
  rcases engineStep_next he with ⟨-, -, rfl⟩ | ⟨-, ⟨i, u, -, hu, rfl⟩ | ⟨e, -, rfl⟩⟩
  · exact h.complete hr
  · have hru : u.rst = false := (exec_keeps hu).2.2.2.1.trans hr
    exact (exec_inv h hr hu).complete hru
  · exact (h.recordError hr _).complete hr

/-! ### Host accesses and steps -/

/-- A performed access writes no field that the invariant bounds but WIN, whose length it keeps. -/
theorem Performed.inv {s t : State} {a : Access} (h : s.Inv) (hr : s.rst = false) (hp : Performed s a t) : t.Inv := by
  cases hp with
  | read => exact { h with reset := reset_of_released hr }
  | ignored => exact h
  | dropped => exact { h with reset := reset_of_released hr }
  | cmd => exact { h with reset := reset_of_released hr }
  | digest0 => exact { h with reset := reset_of_released hr }
  | winlen => exact { h with reset := reset_of_released hr }
  | win => exact { h with win := (setLanes_length ..).trans h.win, reset := reset_of_released hr }

/-- Settles O35: each of the four ways of a step keeps the invariant. -/
theorem stepKeepsTheInvariant : Obligations.StepKeepsTheInvariant := by
  intro s t h hs
  cases step_stepped hs with
  | rst level rest _ ht => exact ht ▸ (h.withInputs rest).driveRst level
  | host a rest _ hr _ ht => exact ht.inv (h.withInputs rest) hr
  | engine rest _ hr ht => exact engineStep_inv (h.withInputs rest) hr.2 ht
  | idle rest _ _ ht => exact ht ▸ h.withInputs rest

end Sys2Proof.Machine
end

section
/-! PROOF. What stops the machine, and who writes LEN (spec/10_state.md R24, spec/20_memory.md R60, R66, R71, R80). -/

namespace Sys2Proof.Machine

/-! ### Where a step can stop -/

/-- A host access is served or refused; it never faults (R80, R230). -/
theorem serveAccess_ne_fault (s : State) (a : Access) (f : Fault) : serveAccess s a ≠ .fault f := by
  unfold serveAccess
  split
  · nofun
  · split <;> nofun

theorem engineTurn_total {s : State} (hi : s.Inv) (hw : s.wlReady = true → s.WordListOk) :
    ∃ t, engineTurn s = .next t := by
  unfold engineTurn
  split
  · obtain ⟨t, ht, -⟩ := engineStep_total s hi hw
    exact ⟨t, ht⟩
  · exact ⟨s, rfl⟩

/-- Under the invariant and R71 a step serves a host access or answers a next state. -/
theorem step_serves_or_next {s : State} (hi : s.Inv) (hw : s.wlReady = true → s.WordListOk) :
    (∃ a rest, s.inputs = .host a :: rest ∧ step s = serveAccess (s.withInputs rest) a) ∨
      ∃ t, step s = .next t := by
  unfold step
  split
  · exact .inr (engineTurn_total hi hw)
  · next i rest hin =>
    cases i with
    | host a => exact .inl ⟨a, rest, hin, rfl⟩
    | engine => exact .inr (engineTurn_total (hi.withInputs rest) (wordListOk_withInputs hw rest))
    | rst level => exact .inr ⟨_, rfl⟩

/-- Settles O37: whatever is no host access answers a next state, and a host access never faults. -/
theorem onlyHostAccessesStopTheMachine : Obligations.OnlyHostAccessesStopTheMachine := by
  intro s hi hw
  rcases step_serves_or_next hi hw with ⟨a, rest, hin, hs⟩ | ⟨t, hs⟩
  · exact ⟨fun f => hs ▸ serveAccess_ne_fault _ a f, fun _ _ => ⟨a, rest, hin⟩⟩
  · exact ⟨fun f hf => by simp [hs] at hf, fun r hf => by simp [hs] at hf⟩

/-! ### LEN -/

/-- LEN's three writers, each with its value and the bound that it passed first. -/
theorem exec_len {i : Instr} {s t : State} (he : exec i s = .next t) :
    t.len = s.len ∨
    (∃ n, i = .clr n ∧ n ≤ s.params.bufBytes ∧ t.len = BitVec.ofNat 8 n) ∨
    (∃ n, i = .encsetup n ∧ n + 1 ≤ s.params.bufBytes ∧ t.len = BitVec.ofNat 8 (n + 1)) ∨
    (∃ n, i = .decsetup n ∧ dataSize n ≤ s.params.bufBytes ∧ t.len = BitVec.ofNat 8 (dataSize n)) := by
  cases i with
  | clr n =>
    rcases execClr_next he with ⟨hn, rfl⟩ | ⟨-, rfl⟩
    · exact .inr (.inl ⟨n, rfl, hn, rfl⟩)
    · exact .inl rfl
  | encsetup n =>
    rcases execEncsetup_next he with ⟨-, hn, -, mask, -, rfl⟩ | ⟨-, -, rfl⟩ | ⟨-, rfl⟩
    · exact .inr (.inr (.inl ⟨n, rfl, hn, rfl⟩))
    · exact .inl rfl
    · exact .inl rfl
  | decsetup n =>
    rcases execDecsetup_next he with ⟨-, hn, rfl⟩ | ⟨-, rfl⟩
    · exact .inr (.inr (.inr ⟨n, rfl, hn, rfl⟩))
    · exact .inl rfl
  | nop => exact .inl (execNop_next he ▸ rfl)
  | bitat => rcases execBitat_next he with ⟨-, -, rfl⟩ | ⟨-, rfl⟩ <;> exact .inl rfl
  | setbit => rcases execSetbit_next he with ⟨-, -, rfl⟩ | ⟨-, rfl⟩ <;> exact .inl rfl
  | rdidx => rcases execRdidx_next he with ⟨-, -, rfl⟩ | ⟨-, rfl⟩ <;> exact .inl rfl
  | wridx => rcases execWridx_next he with ⟨-, -, rfl⟩ | ⟨-, rfl⟩ <;> exact .inl rfl
  | rdbyte => rcases execRdbyte_next he with ⟨-, -, rfl⟩ | ⟨-, rfl⟩ <;> exact .inl rfl
  | wrbyte => rcases execWrbyte_next he with ⟨-, -, rfl⟩ | ⟨-, rfl⟩ <;> exact .inl rfl
  | encw => rcases execEncw_next he with ⟨-, -, -, _, -, rfl⟩ | ⟨-, -, rfl⟩ | ⟨-, rfl⟩ <;> exact .inl rfl
  | decw =>
    rcases execDecw_next he with ⟨-, -, -, _, _, -, -, rfl⟩ | ⟨-, -, rfl⟩ | ⟨-, -, -, rfl⟩ | ⟨-, rfl⟩ <;>
      exact .inl rfl
  | clrerr => exact .inl (execClrerr_next he ▸ rfl)

/-- A length that fits BUF fits LEN. -/
theorem State.Inv.toNat_length {s : State} (h : s.Inv) {n : Nat} (hn : n ≤ s.params.bufBytes) :
    (BitVec.ofNat 8 n).toNat = n := by
  have hmax := h.params.2.1
  exact Nat.mod_eq_of_lt (by omega)

/-- Settles O39: the value each of the three writers gives LEN fits BUF, so it fits LEN's eight bits. -/
theorem lenHasThreeWriters : Obligations.LenHasThreeWriters := by
  intro i s t h he
  have hp : t.params = s.params := (exec_keeps he).1
  rw [hp]
  rcases exec_len he with hl | ⟨n, rfl, hn, hl⟩ | ⟨n, rfl, hn, hl⟩ | ⟨n, rfl, hn, hl⟩
  · exact ⟨hl ▸ h.len, .inl hl⟩
  · have hv : t.len.toNat = n := hl ▸ h.toNat_length hn
    exact ⟨hv ▸ hn, .inr (.inl ⟨n, rfl, hv⟩)⟩
  · have hv : t.len.toNat = n + 1 := hl ▸ h.toNat_length hn
    exact ⟨hv ▸ hn, .inr (.inr (.inl ⟨n, rfl, hv⟩))⟩
  · have hv : t.len.toNat = dataSize n := hl ▸ h.toNat_length hn
    exact ⟨hv ▸ hn, .inr (.inr (.inr ⟨n, rfl, hv⟩))⟩

end Sys2Proof.Machine
end

section
/-! PROOF. Who writes what over every step: the error record, OVR, DVALID, the word registers (spec/10_state.md R28,
R30, R31, R33, R34), and what a host access cannot reach (R23, R36). -/

namespace Sys2Proof.Machine

/-! ### The engine step, by what happens to the command in flight -/

/-- The command in flight is discarded while ERR = 1, is CLRERR and clears the record whatever ERR is, or runs with
ERR = 0 as the command it decodes to or as an illegal word (R200, R202, R204, R208). -/
inductive Completed (s : State) : State → Prop
  | discarded (herr : s.err = true) : Completed s s.complete
  | cleared (hp : s.pend = 0xF0000000) : Completed s s.clearError.complete
  | executed (i : Instr) (u : State) (herr : s.err = false) (hi : i ≠ .clrerr) (hd : decode s.pend = .ok i)
      (hu : exec i s = .next u) : Completed s u.complete
  | illegal (herr : s.err = false) : Completed s (s.recordError .illegalCommand).complete

theorem decode_clrerrWord : decode clrerrWord = .ok .clrerr := by decide

theorem engineStep_completed {s t : State} (h : engineStep s = .next t) : Completed s t := by
  rcases engineStep_next h with ⟨herr, -, rfl⟩ | ⟨hrun, ⟨i, u, hd, hu, rfl⟩ | ⟨e, hd, rfl⟩⟩
  · exact .discarded herr
  · by_cases hi : i = .clrerr
    · subst hi
      rw [execClrerr_next hu]
      exact .cleared (eq_of_decode_clrerr hd)
    · refine .executed i u (hrun.resolve_right fun hp => hi ?_) hi hd hu
      rw [hp, decode_clrerrWord] at hd
      cases hd; rfl
  · refine .illegal (hrun.resolve_right fun hp => ?_)
    rw [hp, decode_clrerrWord] at hd
    cases hd

/-! ### Host accesses -/

/-- No access reaches the error record (R30). -/
theorem Performed.record {s t : State} {a : Access} (h : Performed s a t) :
    t.err = s.err ∧ t.errcode = s.errcode ∧ t.errcmd = s.errcmd := by
  cases h <;> exact ⟨rfl, rfl, rfl⟩

/-- No access reaches the word of the last ENCW (R34). -/
theorem Performed.wout {s t : State} {a : Access} (h : Performed s a t) :
    t.wout = s.wout ∧ t.woutlen = s.woutlen := by
  cases h <;> exact ⟨rfl, rfl⟩

theorem step_host_performed {s t : State} {a : Access} {rest : List Input} (hi : s.inputs = .host a :: rest)
    (h : step s = .next t) : Performed (s.withInputs rest) a t := by
  cases step_stepped h with
  | host b rest' hi' _ _ ht =>
    rw [hi] at hi'
    cases hi'
    exact ht
  | rst _ _ hi' _ => rw [hi] at hi'; cases hi'
  | engine _ hn _ _ => simp [State.engineNext, hi] at hn
  | idle _ hn _ _ => simp [State.engineNext, hi] at hn

/-- Settles O57: none of the effects an access can have writes another field. -/
theorem hostAccessFrame : Obligations.HostAccessFrame := by
  intro s t a rest hi h
  cases step_host_performed hi h <;> rfl

/-! ### The writers -/

/-- Settles O40: of what happens to a command in flight, only CLRERR and an error write the record. -/
theorem errorRecordWriters : Obligations.ErrorRecordWriters := by
  intro s t h hne
  cases step_stepped h with
  | rst level rest hi _ => exact .inl ⟨level, rest, hi⟩
  | host a rest _ _ _ ht =>
    obtain ⟨herr, hcode, hcmd⟩ := ht.record
    simp [herr, hcode, hcmd] at hne
  | engine rest _ hr ht =>
    cases engineStep_completed ht with
    | discarded => simp at hne
    | cleared hp => exact .inr (.inl ⟨hr.1, hp, rfl, rfl, rfl⟩)
    | executed i u herr hi _ hu =>
      rcases exec_record hu with ⟨e, rfl⟩ | ⟨h1, h2, h3, -⟩ | ⟨rfl, -⟩
      · exact .inr (.inr ⟨hr.1, herr, rfl, rfl⟩)
      · simp [h1, h2, h3] at hne
      · exact absurd rfl hi
    | illegal herr => exact .inr (.inr ⟨hr.1, herr, rfl, rfl⟩)
  | idle rest _ _ ht => simp [ht] at hne

/-- Settles O41: of the effects of an access only a dropped write sets OVR, and of the commands only CLRERR clears
it. -/
theorem overrunWriters : Obligations.OverrunWriters := by
  intro s t h hne
  cases step_stepped h with
  | rst level rest hi _ => exact .inl ⟨level, rest, hi⟩
  | host a rest hi _ _ ht =>
    cases ht with
    | dropped w o v hb ho => exact .inr (.inr ⟨rfl, hb, w, o, v, rest, hi, ho⟩)
    | _ => exact absurd rfl hne
  | engine rest _ hr ht =>
    cases engineStep_completed ht with
    | discarded => simp at hne
    | cleared hp => exact .inr (.inl ⟨rfl, hr.1, hp⟩)
    | executed i u _ hi _ hu =>
      rcases exec_record hu with ⟨e, rfl⟩ | ⟨-, -, -, hovr⟩ | ⟨rfl, -⟩
      · simp at hne
      · simp [hovr] at hne
      · exact absurd rfl hi
    | illegal => simp at hne
  | idle rest _ _ ht => simp [ht] at hne

/-- Settles O42: of the effects of an access only an accepted DIGEST0 write sets DVALID, and of the commands only an
ENCSETUP that raises no error clears it. -/
theorem digestValidWriters : Obligations.DigestValidWriters := by
  intro s t h hne
  cases step_stepped h with
  | rst level rest hi _ => exact .inl ⟨level, rest, hi⟩
  | host a rest hi _ _ ht =>
    cases ht with
    | digest0 w v hb => exact .inr (.inl ⟨rfl, hb, w, v, rest, hi⟩)
    | _ => exact absurd rfl hne
  | engine rest _ hr ht =>
    cases engineStep_completed ht with
    | executed i u herr _ hd hu =>
      rcases exec_dvalid hu with hv | ⟨hv, he, n, rfl⟩
      · simp [hv] at hne
      · exact .inr (.inr ⟨hv, hr.1, he.trans herr, n, hd⟩)
    | _ => simp at hne
  | idle rest _ _ ht => simp [ht] at hne

/-- WIN and WINLEN, the half of O43 that is the host's: no command writes them. -/
theorem winWriters {s t : State} (h : step s = .next t) (hne : t.win ≠ s.win ∨ t.winlen ≠ s.winlen) :
    (∃ level rest, s.inputs = .rst level :: rest) ∨
    (s.busy = false ∧ ∃ width off v rest, s.inputs = .host (.write width off v) :: rest ∧
      (off = 0x28 ∨ (0x40 ≤ off ∧ off ≤ 0x7C))) := by
  cases step_stepped h with
  | rst level rest hi _ => exact .inl ⟨level, rest, hi⟩
  | host a rest hi _ _ ht =>
    cases ht with
    | winlen w v hb => exact .inr ⟨hb, w, _, v, rest, hi, .inl rfl⟩
    | win w o v hb ho => exact .inr ⟨hb, w, o, v, rest, hi, .inr ho⟩
    | _ => simp at hne
  | engine rest _ _ ht =>
    cases engineStep_completed ht with
    | executed i u _ _ _ hu =>
      obtain ⟨-, -, -, -, -, -, -, hwin, hlen, -⟩ := exec_keeps hu
      simp [hwin, hlen] at hne
    | _ => simp at hne
  | idle rest _ _ ht => simp [ht] at hne

/-- WOUT and WOUTLEN, the half of O43 that is the engine's: no access writes them. -/
theorem woutWriters {s t : State} (h : step s = .next t) (hne : t.wout ≠ s.wout ∨ t.woutlen ≠ s.woutlen) :
    (∃ level rest, s.inputs = .rst level :: rest) ∨ (s.busy = true ∧ ∃ w, decode s.pend = .ok (.encw w)) := by
  cases step_stepped h with
  | rst level rest hi _ => exact .inl ⟨level, rest, hi⟩
  | host a rest hi _ _ ht =>
    obtain ⟨hwout, hlen⟩ := ht.wout
    simp [hwout, hlen] at hne
  | engine rest _ hr ht =>
    cases engineStep_completed ht with
    | executed i u _ _ hd hu =>
      rcases exec_wout hu with ⟨hwout, hlen⟩ | ⟨w, rfl⟩
      · simp [hwout, hlen] at hne
      · exact .inr ⟨hr.1, w, hd⟩
    | _ => simp at hne
  | idle rest _ _ ht => simp [ht] at hne

/-- Settles O43, register pair by register pair. -/
theorem wordRegisterWriters : Obligations.WordRegisterWriters :=
  fun _ _ h => ⟨winWriters h, woutWriters h⟩

end Sys2Proof.Machine
end

section
/-! PROOF. What BUF holds at and above LEN has no influence on a command (spec/10_state.md R23, spec/20_memory.md R66):
the relation between the two runs, and that every operation over BUF keeps it. -/

namespace Sys2Proof.Machine

/-! ### Contents that agree below a length -/

/-- The first n bytes agree. -/
def Memory.SameBelow (n : Nat) (m m' : Memory) : Prop := ∀ a, a < n → m'.read a = m.read a

theorem Memory.SameBelow.write {n : Nat} {m m' : Memory} (h : m.SameBelow n m') (a : Nat) (v : Byte) :
    (m.write a v).SameBelow n (m'.write a v) := by
  intro x hx
  rw [Memory.read_write, Memory.read_write, h x hx]

theorem Memory.SameBelow.bitAt {n : Nat} {m m' : Memory} (h : m.SameBelow n m') {p : Nat} (hp : p < 8 * n) :
    bitAt m' p = bitAt m p :=
  bitAt_eq_of_read (h _ (by omega))

theorem Memory.SameBelow.readIndex {n : Nat} {m m' : Memory} (h : m.SameBelow n m') {w : Nat}
    (hw : 11 * w + 11 ≤ 8 * n) : readIndex m' w = readIndex m w :=
  readIndex_eq_of_bits fun _ _ hp => h.bitAt (by omega)

theorem Memory.SameBelow.setBit {n : Nat} {m m' : Memory} (h : m.SameBelow n m') (p : Nat) :
    (setBit m p).SameBelow n (setBit m' p) := by
  intro x hx
  rw [read_setBit, read_setBit, h x hx]

theorem Memory.SameBelow.writeIndex {n : Nat} {m m' : Memory} (h : m.SameBelow n m') (w : Nat) (i : Index) :
    (writeIndex m w i).SameBelow n (writeIndex m' w i) := by
  intro x hx
  refine read_eq_of_bits fun p hp => ?_
  rw [bitAt_writeIndex, bitAt_writeIndex, h.bitAt (by omega)]

/-! ### What reads no BUF -/

@[simp] theorem romWord_putBuf (s : State) (m : Memory) (i : Index) : romWord (s.putBuf m) i = romWord s i := rfl
@[simp] theorem wordKey_putBuf (s : State) (m : Memory) : wordKey (s.putBuf m) = wordKey s := rfl
@[simp] theorem camIndex_putBuf (s : State) (m : Memory) (key : WlWord) :
    camIndex (s.putBuf m) key = camIndex s key := rfl

/-! ### Outcomes that agree but for bytes at and above a length -/

/-- The same stop, or next states that differ only in BUF, and there not below n. -/
inductive AgreeBelow (n : Nat) : Outcome → Outcome → Prop
  | next (t : State) {m : Memory} (h : t.buf.SameBelow n m) : AgreeBelow n (.next t) (.next (t.putBuf m))
  | fault (f : Fault) : AgreeBelow n (.fault f) (.fault f)
  | refused (r : Refusal) : AgreeBelow n (.refused r) (.refused r)

theorem AgreeBelow.ite {n : Nat} {c : Prop} [Decidable c] {a b a' b' : Outcome} (ht : c → AgreeBelow n a a')
    (hf : ¬ c → AgreeBelow n b b') : AgreeBelow n (if c then a else b) (if c then a' else b') := by
  split
  · next hc => exact ht hc
  · next hc => exact hf hc

section
variable {s : State} {m : Memory} (h : s.buf.SameBelow s.len.toNat m)
include h

theorem agreeBelow_raise (e : ErrCode) : AgreeBelow s.len.toNat (raise s e) (raise (s.putBuf m) e) :=
  .next (s.recordError e) h

omit h in
theorem agreeBelow_reach {n : Nat} (a : Nat) {k k' : Outcome} (hk : AgreeBelow n k k') :
    AgreeBelow n (reach s a k) (reach (s.putBuf m) a k') :=
  .ite (fun _ => hk) fun _ => .fault _

/-- Every command, run on two states whose BUF agrees below LEN, reads only there, so it answers alike. -/
theorem exec_agreeBelow (i : Instr) : AgreeBelow s.len.toNat (exec i s) (exec i (s.putBuf m)) := by
  cases i with
  | nop => exact .next s h
  | clr n =>
    exact .ite (c := n ≤ s.params.bufBytes) (fun _ => .next (m := []) _ fun _ _ => rfl) fun _ => agreeBelow_raise h _
  | bitat p =>
    refine .ite (c := posInBounds s p = true) (fun hb => agreeBelow_reach _ ?_) fun _ => agreeBelow_raise h _
    rw [State.putBuf_buf, h.bitAt (posInBounds_iff.1 hb)]
    exact .next (s.putResult _) h
  | setbit p =>
    exact .ite (c := posInBounds s p = true) (fun _ => agreeBelow_reach _ (.next _ (h.setBit p)))
      fun _ => agreeBelow_raise h _
  | rdidx w =>
    refine .ite (c := wordInBounds s w = true) (fun hb => agreeBelow_reach _ ?_) fun _ => agreeBelow_raise h _
    rw [State.putBuf_buf, h.readIndex (wordInBounds_iff.1 hb)]
    exact .next (s.putResult _) h
  | wridx w x =>
    exact .ite (c := wordInBounds s w = true) (fun _ => agreeBelow_reach _ (.next _ (h.writeIndex w x)))
      fun _ => agreeBelow_raise h _
  | rdbyte a =>
    refine .ite (c := addrInBounds s a = true) (fun hb => agreeBelow_reach _ ?_) fun _ => agreeBelow_raise h _
    rw [State.putBuf_buf, h a (addrInBounds_iff.1 hb)]
    exact .next (s.putResult _) h
  | wrbyte a d =>
    exact .ite (c := addrInBounds s a = true) (fun _ => agreeBelow_reach _ (.next _ (h.write a d)))
      fun _ => agreeBelow_raise h _
  | encsetup n =>
    refine .ite (c := entropyLengthValid n = true) (fun _ => ?_) fun _ => agreeBelow_raise h _
    cases checksumMask (8 * n) with
    | none => exact agreeBelow_raise h _
    | some mask =>
      exact .ite (c := s.dvalid = true) (fun _ => agreeBelow_reach _ (.next (s.appendChecksum n mask) (h.write n _)))
        fun _ => agreeBelow_raise h _
  | encw w =>
    refine .ite (c := wordInBounds s w = true) (fun hb => agreeBelow_reach _ ?_) fun _ => agreeBelow_raise h _
    refine .ite (c := s.wlReady = true) (fun _ => ?_) fun _ => agreeBelow_raise h _
    rw [State.putBuf_buf, h.readIndex (wordInBounds_iff.1 hb), romWord_putBuf]
    cases romWord s (readIndex s.buf w) with
    | none => exact .refused _
    | some v => exact .next ((s.putWout v).putResult _) h
  | decsetup n =>
    refine .ite (c := n = 0) (fun _ => agreeBelow_raise h _) fun _ => ?_
    exact .ite (c := dataSize n > s.params.bufBytes) (fun _ => agreeBelow_raise h _)
      fun _ => .next (m := []) _ fun _ _ => rfl
  | decw w =>
    refine .ite (c := s.wlReady = true) (fun _ => ?_) fun _ => agreeBelow_raise h _
    rw [wordKey_putBuf]
    cases wordKey s with
    | none => exact agreeBelow_raise h _
    | some key =>
      simp only [camIndex_putBuf]
      cases camIndex s key with
      | none => exact agreeBelow_raise h _
      | some x =>
        exact .ite (c := wordInBounds s w = true)
          (fun _ => agreeBelow_reach _ (.next _ (h.writeIndex w x))) fun _ => agreeBelow_raise h _
  | clrerr => exact .next s.clearError h

end

/-- Settles O44: the two runs agree, whatever the command. -/
theorem bytesBeyondLenHaveNoInfluence : Obligations.BytesBeyondLenHaveNoInfluence := by
  intro i s m h
  have hag : AgreeBelow s.len.toNat (exec i s) (exec i { s with buf := m }) := exec_agreeBelow h i
  generalize exec i s = o, exec i { s with buf := m } = o' at hag
  cases hag with
  | next t ht => exact ⟨rfl, ht⟩
  | fault f => rfl
  | refused r => rfl

end Sys2Proof.Machine
end

section
/-! PROOF. The register window (spec/10_state.md R36 to R55): one step of a write that is accepted, dropped or ignored
and of a read, then each register by what it stores and returns. -/

namespace Sys2Proof.Machine

/-! ### One step of an access -/

section
variable {s : State} {off : Nat} {v : Word32} {rest : List Input}

theorem unlessBusy_of_free {t : State} (hb : s.busy = false) : unlessBusy s t = t := if_neg (by simp [hb])

theorem unlessBusy_of_busy {t : State} (hb : s.busy = true) : unlessBusy s t = { s with ovr := true } := if_pos hb

/-- A write with the effect t while BUSY = 0. -/
theorem step_write_accepted {t : State} (hi : s.inputs = .host (.write 32 off v) :: rest) (hr : s.rst = false)
    (ha : refusalOf 32 off = none)
    (hw : hostWrite (s.withInputs rest) (regAt off) v = unlessBusy (s.withInputs rest) t) (hb : s.busy = false) :
    step s = .next t := by
  rw [step_write hi hr ha, hw, unlessBusy_of_free (s := s.withInputs rest) hb]

/-- A write that would have an effect, while BUSY = 1: only OVR is set (R31). -/
theorem step_write_dropped {t : State} (hi : s.inputs = .host (.write 32 off v) :: rest) (hr : s.rst = false)
    (ha : refusalOf 32 off = none)
    (hw : hostWrite (s.withInputs rest) (regAt off) v = unlessBusy (s.withInputs rest) t) (hb : s.busy = true) :
    step s = .next { s with inputs := rest, ovr := true } := by
  rw [step_write hi hr ha, hw, unlessBusy_of_busy (s := s.withInputs rest) hb]
  rfl

/-- A write that its register ignores (R37). -/
theorem step_write_ignored (hi : s.inputs = .host (.write 32 off v) :: rest) (hr : s.rst = false)
    (ha : refusalOf 32 off = none) (hw : hostWrite (s.withInputs rest) (regAt off) v = s.withInputs rest) :
    step s = .next { s with inputs := rest } := by
  rw [step_write hi hr ha, hw]
  rfl

/-- A read of register r while it is exact: the host's record takes r's value, and nothing else changes (R81). -/
theorem step_read_value {r : Reg} (hi : s.inputs = .host (.read 32 off) :: rest) (hr : s.rst = false)
    (ha : refusalOf 32 off = none) (hreg : regAt off = r) (hb : s.busy = false ∨ alwaysExact r = true) :
    step s = .next { s with inputs := rest, reads := regValue s r :: s.reads } := by
  subst hreg
  rw [step_read hi hr ha hb]
  cases regAt off <;> rfl

end

/-! ### CMD, DIGEST0, WINLEN -/

/-- Settles O46: the write is accepted or dropped, and CMD is among the registers that always read exactly. -/
theorem cmdWriteIsAcceptedOrDropped : Obligations.CmdWriteIsAcceptedOrDropped := by
  intro s v rest hr
  refine ⟨fun hi hb => ?_, fun hi hb => ?_, fun hi => ?_⟩
  · exact step_write_accepted hi hr rfl rfl hb
  · exact step_write_dropped hi hr rfl rfl hb
  · exact step_read_value hi hr rfl rfl (.inr rfl)

theorem ofNat_mod_eq_extractLsb' (n : Nat) (v : Word32) : BitVec.ofNat n (v.toNat % 2 ^ n) = v.extractLsb' 0 n :=
  BitVec.eq_of_toNat_eq (by simp)

/-- Settles O47: the stored byte is the low byte of the value, and a read widens it. -/
theorem digestWriteSetsValid : Obligations.DigestWriteSetsValid := by
  intro s v rest hr
  refine ⟨fun hi hb => ?_, fun hi hb => ?_, fun hi hb => ⟨_, step_read_value hi hr rfl rfl (.inl hb), ?_⟩⟩
  · rw [show BitVec.ofNat 8 (v.toNat % 256) = _ from ofNat_mod_eq_extractLsb' 8 v]
    exact step_write_accepted hi hr rfl rfl hb
  · exact step_write_dropped hi hr rfl rfl hb
  · exact BitVec.toNat_setWidth_of_le (by decide)

/-- Settles O48: the stored length is the low seven bits of the value, and a read widens it. -/
theorem winlenWriteAndRead : Obligations.WinlenWriteAndRead := by
  intro s v rest hr
  refine ⟨fun hi hb => ?_, fun hi hb => ?_, fun hi hb => ⟨_, step_read_value hi hr rfl rfl (.inl hb), ?_⟩⟩
  · rw [show BitVec.ofNat 7 (v.toNat % 128) = _ from ofNat_mod_eq_extractLsb' 7 v]
    exact step_write_accepted hi hr rfl rfl hb
  · exact step_write_dropped hi hr rfl rfl hb
  · exact BitVec.toNat_setWidth_of_le (by decide)

/-! ### The read-only registers -/

/-- STATUS as its five flags (R39). -/
theorem statusWord_getLsbD (s : State) (i : Nat) :
    (statusWord s).getLsbD i = [s.busy, s.err, s.ovr, s.dvalid, s.wlReady].getD i false := by
  simp only [statusWord, BitVec.getLsbD_append, BitVec.getLsbD_ofBool]
  rcases i with _ | _ | _ | _ | _ | i <;> simp

/-- Settles O51: STATUS always reads exactly, and its bits are those of the five flags. -/
theorem statusIsAlwaysExact : Obligations.StatusIsAlwaysExact := by
  intro s rest hr
  refine ⟨fun hi => ⟨statusWord s, step_read_value hi hr rfl rfl (.inr rfl), ?_⟩,
    fun v hi => step_write_ignored hi hr rfl rfl⟩
  simp only [statusWord_getLsbD]
  exact ⟨rfl, rfl, rfl, rfl, rfl, fun i hi => List.getD_eq_default _ _ hi⟩

/-- PARAM as the number its two bytes make (R50). -/
theorem paramWord_toNat {s : State} (hp : s.params.wf) :
    (paramWord s).toNat = s.params.bufBytes + 256 * s.params.wmax := by
  obtain ⟨-, hbuf, -, hwmax⟩ := hp
  simp only [paramWord, toNat_append_eq_add, BitVec.toNat_ofNat]
  omega

/-- Settles O52: PARAM always reads exactly, and no step changes the parameters. -/
theorem paramIsAlwaysExact : Obligations.ParamIsAlwaysExact := by
  intro s rest hp hr
  refine ⟨fun hi => ⟨_, step_read_value hi hr rfl rfl (.inr rfl), paramWord_toNat hp⟩, fun v hi => ?_,
    fun t h => ?_⟩
  · exact step_write_ignored hi hr rfl rfl
  · exact (step_sameInstance h).1

/-- CSINFO as the number its three fields make (R46). -/
theorem csinfoWord_toNat (s : State) :
    (csinfoWord s).toNat = s.cslen.toNat + 256 * s.csmask.toNat + 65536 * s.chk.toNat := by
  simp only [csinfoWord, toNat_append_eq_add, BitVec.toNat_ofNat]
  omega

/-- The registers of O53: each offset is admitted and its register holds the value. -/
theorem resultRegister_value {s : State} {off value : Nat}
    (h : (off, value) ∈
      [(0x08, s.result.toNat), (0x0C, s.errcode.toNat), (0x10, s.errcmd.toNat), (0x14, s.len.toNat),
       (0x18, s.nwords.toNat), (0x1C, s.entlen.toNat),
       (0x20, s.cslen.toNat + 256 * s.csmask.toNat + 65536 * s.chk.toNat), (0x2C, s.woutlen.toNat)]) :
    refusalOf 32 off = none ∧ (regValue s (regAt off)).toNat = value := by
  simp only [List.mem_cons, List.not_mem_nil, or_false, Prod.mk.injEq] at h
  rcases h with ⟨rfl, rfl⟩ | ⟨rfl, rfl⟩ | ⟨rfl, rfl⟩ | ⟨rfl, rfl⟩ | ⟨rfl, rfl⟩ | ⟨rfl, rfl⟩ | ⟨rfl, rfl⟩ | ⟨rfl, rfl⟩
  · exact ⟨rfl, rfl⟩
  · exact ⟨rfl, BitVec.toNat_setWidth_of_le (by decide)⟩
  · exact ⟨rfl, rfl⟩
  · exact ⟨rfl, BitVec.toNat_setWidth_of_le (by decide)⟩
  · exact ⟨rfl, BitVec.toNat_setWidth_of_le (by decide)⟩
  · exact ⟨rfl, BitVec.toNat_setWidth_of_le (by decide)⟩
  · exact ⟨rfl, csinfoWord_toNat s⟩
  · exact ⟨rfl, BitVec.toNat_setWidth_of_le (by decide)⟩

/-- Settles O53: each of the eight offsets holds its element's value, and the read returns it. -/
theorem resultRegistersRead : Obligations.ResultRegistersRead := by
  intro s off value rest hr hb hi hv
  obtain ⟨ha, hval⟩ := resultRegister_value hv
  rw [← (BitVec.toNat_eq_nat.1 hval).2]
  exact step_read_value hi hr ha rfl (.inl hb)

/-- Settles O55: each of the ten offsets is admitted and its register ignores the write. -/
theorem readOnlyWritesAreIgnored : Obligations.ReadOnlyWritesAreIgnored := by
  intro s off v rest hr hoff hi
  simp only [List.mem_cons, List.not_mem_nil, or_false] at hoff
  rcases hoff with rfl | rfl | rfl | rfl | rfl | rfl | rfl | rfl | rfl | rfl <;> exact step_write_ignored hi hr rfl rfl

/-! ### The two windows -/

/-- Byte lane l of a window register is byte 4j + l, 0 at and above WMAX (R51, R52). -/
theorem lanes_lane (wmax : Nat) (l : List Byte) (j : Nat) {lane : Nat} (h : lane < 4) :
    BitVec.ofNat 8 ((lanes wmax l j).toNat / 256 ^ lane) =
      if 4 * j + lane < wmax then l.getD (4 * j + lane) 0 else 0 := by
  change _ = laneByte wmax l (4 * j + lane)
  rw [lanes_toNat]
  refine BitVec.eq_of_toNat_eq ?_
  have h0 := (laneByte wmax l (4 * j)).isLt
  have h1 := (laneByte wmax l (4 * j + 1)).isLt
  have h2 := (laneByte wmax l (4 * j + 2)).isLt
  have h3 := (laneByte wmax l (4 * j + 3)).isLt
  rw [BitVec.toNat_ofNat]
  obtain rfl | hpos := Nat.eq_zero_or_pos lane
  · rw [pow_zero, Nat.div_one, Nat.add_zero (4 * j)]
    omega
  · interval_cases lane <;> omega

/-- A window write: key bytes 4j to 4j + 3 below WMAX take their lane of v, and every other byte is kept (R51). -/
theorem setLanes_getD {wmax : Nat} {l : List Byte} (hl : l.length = wmax) (j : Nat) (v : Word32) (k : Nat) :
    (setLanes wmax l j v).getD k 0 =
      if (4 * j ≤ k ∧ k < 4 * j + 4) ∧ k < wmax then v.extractLsb' (8 * (k - 4 * j)) 8 else l.getD k 0 := by
  have hrange : List.range 4 = [0, 1, 2, 3] := rfl
  simp only [setLanes, hrange, List.foldl_cons, List.foldl_nil, setLane_getD, setLane_length, hl]
  by_cases hk : 4 * j ≤ k ∧ k < 4 * j + 4
  · obtain ⟨lane, rfl⟩ := Nat.exists_eq_add_of_le hk.1
    have hlane : lane < 4 := by omega
    interval_cases lane <;> simp
  · have hne0 : k ≠ 4 * j := by omega
    have hne (lane : Nat) (h : lane < 4) : k ≠ 4 * j + lane := by omega
    simp [hk, hne0, hne]

/-- Settles O49: a write sets the lanes below WMAX and a read shows them. -/
theorem winWindowLanes : Obligations.WinWindowLanes := by
  intro s j v rest hr hj hlen
  refine ⟨fun hi hb => ?_, fun hi hb => ?_, fun hi hb => ?_⟩
  · refine ⟨_, step_write_accepted hi hr (refusalOf_win hj) (by rw [regAt_win hj]; rfl) hb, rfl,
      (setLanes_length ..).trans hlen, fun k hk => ?_⟩
    rw [← extractLsb_eq_div]
    refine (setLanes_getD hlen j v k).trans (if_congr ?_ rfl rfl)
    simp [hk]
  · exact step_write_dropped hi hr (refusalOf_win hj) (by rw [regAt_win hj]; rfl) hb
  · exact ⟨_, step_read_value hi hr (refusalOf_win hj) (regAt_win hj) (.inl hb), fun _ hl => lanes_lane _ _ j hl⟩

/-- Settles O50: a read shows the lanes of WOUT, and the window ignores writes. -/
theorem woutWindowLanes : Obligations.WoutWindowLanes := by
  intro s j v rest hr hj
  refine ⟨fun hi hb => ?_, fun hi => ?_⟩
  · exact ⟨_, step_read_value hi hr (refusalOf_wout hj) (regAt_wout hj) (.inl hb), fun _ hl => lanes_lane _ _ j hl⟩
  · exact step_write_ignored hi hr (refusalOf_wout hj) (by rw [regAt_wout hj]; rfl)

end Sys2Proof.Machine
end

section
/-! PROOF. The laws of BUF across commands (spec/20_memory.md R63 to R65): the outcome of an in-bounds RDIDX and
WRIDX, and the commands that leave every 1 of BUF a 1. -/

namespace Sys2Proof.Machine

/-! ### The field after a write of it -/

section
variable {s : State} {w : Nat} (hw : 11 * w + 11 ≤ 8 * s.len.toNat) (hl : s.len.toNat ≤ s.params.bufBytes)
include hw hl

theorem exec_rdidx_of_inBounds :
    exec (.rdidx w) s = .next (s.putResult ((readIndex s.buf w).setWidth 32)) :=
  (if_pos (wordInBounds_iff.2 hw)).trans (reach_of_lt (fieldLastByte_lt_of_inBounds hw hl) _)

theorem exec_wridx_of_inBounds (i : Index) :
    exec (.wridx w i) s = .next ((s.putBuf (writeIndex s.buf w i)).putResult 0) :=
  (if_pos (wordInBounds_iff.2 hw)).trans (reach_of_lt (fieldLastByte_lt_of_inBounds hw hl) _)

end

/-- Settles O28: WRIDX keeps LEN, so the second RDIDX is in bounds too, and it reads the field that writeIndex left. -/
theorem rdidxAfterWridxIsTheOr : Obligations.RdidxAfterWridxIsTheOr := by
  intro s w i hw hl
  refine ⟨_, _, _, exec_rdidx_of_inBounds hw hl, exec_wridx_of_inBounds hw hl i,
    exec_rdidx_of_inBounds (s := (s.putBuf (writeIndex s.buf w i)).putResult 0) hw hl, ?_⟩
  show (readIndex (writeIndex s.buf w i) w).setWidth 32 = (readIndex s.buf w).setWidth 32 ||| i.setWidth 32
  rw [readIndex_writeIndex, BitVec.setWidth_or]

/-! ### The commands that keep every 1 -/

/-- Every stream position that is 1 in m is 1 in m'. -/
def Memory.OnesKept (m m' : Memory) : Prop := ∀ p, bitAt m p = true → bitAt m' p = true

theorem Memory.OnesKept.refl (m : Memory) : m.OnesKept m := fun _ h => h

theorem Memory.onesKept_setBit (m : Memory) (p : Nat) : m.OnesKept (setBit m p) := fun q h => by
  rw [bitAt_setBit, h, Bool.true_or]

theorem Memory.onesKept_writeIndex (m : Memory) (w : Nat) (x : Index) : m.OnesKept (writeIndex m w x) := fun q h => by
  rw [bitAt_writeIndex, h, Bool.true_or]

/-- A command is one of the four that overwrite bytes of BUF, or it keeps every 1: it leaves BUF alone or ORs into it
by setBit or writeIndex. -/
theorem exec_onesKept {i : Instr} {s t : State} (h : exec i s = .next t) :
    s.buf.OnesKept t.buf ∨
      ((∃ n, i = .clr n) ∨ (∃ n, i = .decsetup n) ∨ (∃ a d, i = .wrbyte a d) ∨ (∃ n, i = .encsetup n)) := by
  have kept {t : State} (hb : t.buf = s.buf) : s.buf.OnesKept t.buf := hb ▸ .refl _
  cases i with
  | clr n => exact .inr (.inl ⟨n, rfl⟩)
  | decsetup n => exact .inr (.inr (.inl ⟨n, rfl⟩))
  | wrbyte a d => exact .inr (.inr (.inr (.inl ⟨a, d, rfl⟩)))
  | encsetup n => exact .inr (.inr (.inr (.inr ⟨n, rfl⟩)))
  | setbit p =>
    rcases execSetbit_next h with ⟨-, -, rfl⟩ | ⟨-, rfl⟩
    · exact .inl (Memory.onesKept_setBit _ p)
    · exact .inl (kept rfl)
  | wridx w x =>
    rcases execWridx_next h with ⟨-, -, rfl⟩ | ⟨-, rfl⟩
    · exact .inl (Memory.onesKept_writeIndex _ w x)
    · exact .inl (kept rfl)
  | decw w =>
    rcases execDecw_next h with ⟨-, -, -, key, x, -, -, rfl⟩ | ⟨-, -, rfl⟩ | ⟨-, -, -, rfl⟩ | ⟨-, rfl⟩
    · exact .inl (Memory.onesKept_writeIndex _ w x)
    all_goals exact .inl (kept rfl)
  | nop => exact .inl (kept (by rw [execNop_next h]))
  | bitat => rcases execBitat_next h with ⟨-, -, rfl⟩ | ⟨-, rfl⟩ <;> exact .inl (kept rfl)
  | rdidx => rcases execRdidx_next h with ⟨-, -, rfl⟩ | ⟨-, rfl⟩ <;> exact .inl (kept rfl)
  | rdbyte => rcases execRdbyte_next h with ⟨-, -, rfl⟩ | ⟨-, rfl⟩ <;> exact .inl (kept rfl)
  | encw => rcases execEncw_next h with ⟨-, -, -, _, -, rfl⟩ | ⟨-, -, rfl⟩ | ⟨-, rfl⟩ <;> exact .inl (kept rfl)
  | clrerr => exact .inl (kept (by rw [execClrerr_next h, State.clearError_buf]))

/-- Settles O30: a position that went from 1 to 0 was not kept, so the command is one of the four. -/
theorem onlyFourCommandsClearBits : Obligations.OnlyFourCommandsClearBits := by
  intro i s t p h h1 h0
  refine (exec_onesKept h).resolve_left fun hk => ?_
  rw [← bitAt_def] at h1 h0
  exact Bool.false_ne_true (h0.symm.trans (hk p h1))

end Sys2Proof.Machine
end

section
/-! PROOF. Host accesses as such (spec/20_memory.md R80, R81, spec/10_state.md R53): which are refused, and that a read
changes only the host's own record. -/

namespace Sys2Proof.Machine

/-! ### Which accesses are admitted -/

/-- The admitted widths and offsets: a 32-bit access at an aligned offset of the map that is not reserved. -/
theorem refusalOf_eq_none_iff {width off : Nat} :
    refusalOf width off = none ↔
      width = 32 ∧ off ≤ 0xFF ∧ off % 4 = 0 ∧ ¬ (0x34 ≤ off ∧ off ≤ 0x3C) ∧ off < 0xC0 := by
  unfold refusalOf
  split_ifs with hwidth hoff halign hreg
  · exact iff_of_false nofun (by omega)
  · exact iff_of_false nofun (by omega)
  · exact iff_of_false nofun (by omega)
  · have hreserved := (regAt_eq_reserved_iff (by omega) (by omega)).1 hreg
    exact iff_of_false nofun (by omega)
  · have hmapped := mt (regAt_eq_reserved_iff (by omega) (by omega)).2 hreg
    exact iff_of_true rfl (by omega)

/-- An access under RST, or one that is not admitted, is refused (R230, R80, R53). -/
theorem step_host_refused {s : State} {a : Access} {rest : List Input} (hi : s.inputs = .host a :: rest)
    (h : s.rst = true ∨ refusalOf a.width a.offset ≠ none) : ∃ r, step s = .refused r := by
  have hs : step s = serveAccess (s.withInputs rest) a := by simp [step, hi, serve]
  rw [hs, serveAccess, State.withInputs_rst]
  by_cases hr : s.rst = true
  · exact ⟨_, if_pos hr⟩
  · obtain ⟨r, ha⟩ := Option.ne_none_iff_exists'.1 (h.resolve_left hr)
    exact ⟨r, by rw [if_neg hr, ha]⟩

/-- Settles O56: the condition says that RST is asserted or the access is not admitted. -/
theorem whichAccessesAreRefused : Obligations.WhichAccessesAreRefused := by
  intro s a rest hi
  split
  · next h => exact step_host_refused hi (h.imp_right fun hbad ha => by have := refusalOf_eq_none_iff.1 ha; omega)
  · next h =>
    obtain ⟨hr, hgood⟩ := not_or.1 h
    exact ⟨_, step_host hi (Bool.eq_false_of_not_eq_true hr) (refusalOf_eq_none_iff.2 (by omega))⟩

/-! ### Reads -/

/-- A read appends some value to the host's record and may draw a free value; it reaches nothing else (R81). -/
theorem perform_read (s : State) (width off : Nat) :
    ∃ v d, perform s (.read width off) = { s with reads := v :: s.reads, draws := d } := by
  have h := perform_performed s (.read width off)
  generalize perform s (.read width off) = t at h
  cases h with
  | read _ _ v d => exact ⟨v, d, rfl⟩

/-- What a register holds depends on neither the inputs left nor the host's record. -/
theorem regValue_record (s : State) (l : List Input) (vs : List Word32) (r : Reg) :
    regValue { s with inputs := l, reads := vs } r = regValue s r := by
  cases r <;> rfl

theorem run_succ_of_step {s t : State} (h : step s = .next t) (k : Nat) : core.run (k + 1) s = core.run k t := by
  simp only [Host.Core.run, show core.step s = .next t from h]

/-- Settles O54: one read extends the record only, so with BUSY = 0 the second reads the same register value. -/
theorem readsHaveNoSideEffect : Obligations.ReadsHaveNoSideEffect := by
  intro s off rest hr hoff halign hreserved hmap
  simp only [List.mem_cons, List.not_mem_nil, or_false] at hreserved
  have ha : refusalOf 32 off = none := refusalOf_eq_none_iff.2 (by omega)
  refine ⟨fun hi => ?_, fun hi hb => ⟨regValue s (regAt off), ?_⟩⟩
  · obtain ⟨v, d, hp⟩ := perform_read (s.withInputs rest) 32 off
    exact ⟨_, (step_host hi hr ha).trans (congrArg _ hp), rfl, v, rfl⟩
  · have hfirst := step_read_value hi hr ha rfl (.inl hb)
    have hsecond := step_read_value (s := { s with
      inputs := .host (.read 32 off) :: rest, reads := regValue s (regAt off) :: s.reads }) rfl hr ha rfl (.inl hb)
    rw [regValue_record] at hsecond
    exact (run_succ_of_step hfirst 1).trans (run_succ_of_step hsecond 0)

end Sys2Proof.Machine
end

section
/-! PROOF. Decoder and encoder are inverse to each other (spec/30_encoding.md R92, R99, R100): the fields of each format's
word, the word that a format's fields make up, and from these both directions; then the formulas of R100. -/

namespace Sys2Proof

/-! ### The fields of a format's word -/

@[simp] theorem opField_formatN (op : BitVec 4) : opField (formatN op) = op := (formatN_fields op).1
@[simp] theorem opField_formatL (op : BitVec 4) (n : Nat) : opField (formatL op n) = op := (formatL_fields op n).1
@[simp] theorem opField_formatP (op : BitVec 4) (p : Nat) : opField (formatP op p) = op := (formatP_fields op p).1
@[simp] theorem opField_formatW (op : BitVec 4) (w : Nat) : opField (formatW op w) = op := (formatW_fields op w).1
@[simp] theorem opField_formatWI (op : BitVec 4) (w : Nat) (x : Index) : opField (formatWI op w x) = op :=
  (formatWI_fields op w x).1
@[simp] theorem opField_formatB (op : BitVec 4) (a : Nat) (d : Byte) : opField (formatB op a d) = op :=
  (formatB_fields op a d).1

@[simp] theorem zBitsN_formatN (op : BitVec 4) : zBitsN (formatN op) = true := beq_iff_eq.2 (formatN_fields op).2

@[simp] theorem zBitsL_formatL (op : BitVec 4) (n : Nat) : zBitsL (formatL op n) = true :=
  beq_iff_eq.2 (formatL_fields op n).2.1

@[simp] theorem zBitsP_formatP (op : BitVec 4) (p : Nat) : zBitsP (formatP op p) = true :=
  beq_iff_eq.2 (formatP_fields op p).2.1

@[simp] theorem zBitsW_formatW (op : BitVec 4) (w : Nat) : zBitsW (formatW op w) = true := by
  obtain ⟨-, hhigh, hlow, -⟩ := formatW_fields op w
  simp [zBitsW, hhigh, hlow]

@[simp] theorem zBitsWI_formatWI (op : BitVec 4) (w : Nat) (x : Index) : zBitsWI (formatWI op w x) = true := by
  obtain ⟨-, hhigh, hlow, -⟩ := formatWI_fields op w x
  simp [zBitsWI, hhigh, hlow]

@[simp] theorem zBitsB_formatB (op : BitVec 4) (a : Nat) (d : Byte) : zBitsB (formatB op a d) = true := by
  obtain ⟨-, hhigh, hlow, -⟩ := formatB_fields op a d
  simp [zBitsB, hhigh, hlow]

theorem nField_formatL (op : BitVec 4) {n : Nat} (h : n < 2 ^ 16) : nField (formatL op n) = n := by
  rw [nField, (formatL_fields op n).2.2, BitVec.toNat_ofNat, Nat.mod_eq_of_lt h]

theorem posField_formatP (op : BitVec 4) {p : Nat} (h : p < 2 ^ 9) : posField (formatP op p) = p := by
  rw [posField, (formatP_fields op p).2.2, BitVec.toNat_ofNat, Nat.mod_eq_of_lt h]

theorem byteOperandField_formatW (op : BitVec 4) {w : Nat} (h : w < 2 ^ 8) :
    byteOperandField (formatW op w) = w := by
  rw [byteOperandField, (formatW_fields op w).2.2.2, BitVec.toNat_ofNat, Nat.mod_eq_of_lt h]

theorem byteOperandField_formatWI (op : BitVec 4) {w : Nat} (x : Index) (h : w < 2 ^ 8) :
    byteOperandField (formatWI op w x) = w := by
  rw [byteOperandField, (formatWI_fields op w x).2.2.2.1, BitVec.toNat_ofNat, Nat.mod_eq_of_lt h]

@[simp] theorem indexField_formatWI (op : BitVec 4) (w : Nat) (x : Index) : indexField (formatWI op w x) = x :=
  (formatWI_fields op w x).2.2.2.2

theorem byteOperandField_formatB (op : BitVec 4) {a : Nat} (d : Byte) (h : a < 2 ^ 8) :
    byteOperandField (formatB op a d) = a := by
  rw [byteOperandField, (formatB_fields op a d).2.2.2.1, BitVec.toNat_ofNat, Nat.mod_eq_of_lt h]

@[simp] theorem dataField_formatB (op : BitVec 4) (a : Nat) (d : Byte) : dataField (formatB op a d) = d :=
  (formatB_fields op a d).2.2.2.2

/-- Settles O2: the decoder finds the command's opcode and no Z bit set, and reads each operand from its field. -/
theorem decodeOfEncodeIsTheCommand : Obligations.DecodeOfEncodeIsTheCommand := by
  intro i hwf
  cases i with
  | nop | clrerr => simp [encode, decode, whenZ]
  | clr n | encsetup n | decsetup n => simp [encode, decode, whenZ, nField_formatL _ (of_decide_eq_true hwf)]
  | bitat p | setbit p => simp [encode, decode, whenZ, posField_formatP _ (of_decide_eq_true hwf)]
  | rdidx w | rdbyte w | encw w | decw w =>
    simp [encode, decode, whenZ, byteOperandField_formatW _ (of_decide_eq_true hwf)]
  | wridx w x => simp [encode, decode, whenZ, byteOperandField_formatWI _ x (of_decide_eq_true hwf)]
  | wrbyte a d => simp [encode, decode, whenZ, byteOperandField_formatB _ d (of_decide_eq_true hwf)]

/-! ### The word that a format's fields make up -/

section
variable {c : Word32} {op : BitVec 4}

theorem opField_toNat (c : Word32) : (opField c).toNat = c.toNat / 2 ^ 28 := by
  rw [opField, BitVec.extractLsb'_toNat, Nat.shiftRight_eq_div_pow]
  exact Nat.mod_eq_of_lt (by omega)

theorem toNat_eq_of_opField (ho : opField c = op) : c.toNat / 2 ^ 28 = op.toNat := by rw [← opField_toNat, ho]

/-- A field that is 0, as arithmetic on the word. -/
theorem field_eq_zero {start len : Nat} (h : c.extractLsb' start len = 0) : c.toNat / 2 ^ start % 2 ^ len = 0 := by
  rw [← Nat.shiftRight_eq_div_pow, ← BitVec.extractLsb'_toNat, h]
  rfl

theorem formatN_of_fields (ho : opField c = op) (hz : zBitsN c = true) : formatN op = c :=
  BitVec.eq_of_toNat_eq <| by
    rw [formatN_toNat, Nat.mul_comm, eq_of_op_and_zBitsN (congrArg BitVec.toNat ho) hz]

theorem formatL_of_fields (ho : opField c = op) (hz : zBitsL c = true) : formatL op (nField c) = c := by
  have htop := toNat_eq_of_opField ho
  have hzero := field_eq_zero (beq_iff_eq.1 hz)
  refine BitVec.eq_of_toNat_eq ?_
  rw [formatL_toNat, nField, BitVec.extractLsb'_toNat, Nat.shiftRight_eq_div_pow]
  omega

theorem formatP_of_fields (ho : opField c = op) (hz : zBitsP c = true) : formatP op (posField c) = c := by
  have htop := toNat_eq_of_opField ho
  have hzero := field_eq_zero (beq_iff_eq.1 hz)
  refine BitVec.eq_of_toNat_eq ?_
  rw [formatP_toNat, posField, BitVec.extractLsb'_toNat, Nat.shiftRight_eq_div_pow]
  omega

theorem formatW_of_fields (ho : opField c = op) (hz : zBitsW c = true) : formatW op (byteOperandField c) = c := by
  have htop := toNat_eq_of_opField ho
  obtain ⟨hhigh, hlow⟩ := Bool.and_eq_true_iff.1 hz
  have hhigh := field_eq_zero (beq_iff_eq.1 hhigh)
  have hlow := field_eq_zero (beq_iff_eq.1 hlow)
  refine BitVec.eq_of_toNat_eq ?_
  rw [formatW_toNat, byteOperandField, BitVec.extractLsb'_toNat, Nat.shiftRight_eq_div_pow]
  omega

theorem formatWI_of_fields (ho : opField c = op) (hz : zBitsWI c = true) :
    formatWI op (byteOperandField c) (indexField c) = c := by
  have htop := toNat_eq_of_opField ho
  obtain ⟨hhigh, hlow⟩ := Bool.and_eq_true_iff.1 hz
  have hhigh := field_eq_zero (beq_iff_eq.1 hhigh)
  have hlow := field_eq_zero (beq_iff_eq.1 hlow)
  refine BitVec.eq_of_toNat_eq ?_
  rw [formatWI_toNat, byteOperandField, indexField, BitVec.extractLsb'_toNat, BitVec.extractLsb'_toNat,
    Nat.shiftRight_eq_div_pow, Nat.shiftRight_eq_div_pow]
  omega

theorem formatB_of_fields (ho : opField c = op) (hz : zBitsB c = true) :
    formatB op (byteOperandField c) (dataField c) = c := by
  have htop := toNat_eq_of_opField ho
  obtain ⟨hhigh, hlow⟩ := Bool.and_eq_true_iff.1 hz
  have hhigh := field_eq_zero (beq_iff_eq.1 hhigh)
  have hlow := field_eq_zero (beq_iff_eq.1 hlow)
  refine BitVec.eq_of_toNat_eq ?_
  rw [formatB_toNat, byteOperandField, dataField, BitVec.extractLsb'_toNat, BitVec.extractLsb'_toNat,
    Nat.shiftRight_eq_div_pow, Nat.shiftRight_eq_div_pow]
  omega

theorem decide_nField_lt (c : Word32) : decide (nField c < 2 ^ 16) = true := decide_eq_true (BitVec.isLt _)
theorem decide_posField_lt (c : Word32) : decide (posField c < 2 ^ 9) = true := decide_eq_true (BitVec.isLt _)
theorem decide_byteOperandField_lt (c : Word32) : decide (byteOperandField c < 2 ^ 8) = true :=
  decide_eq_true (BitVec.isLt _)

end

/-- Settles O3: an operand read from a field fits it, and the opcode, the fields and the Z bits are all of the word. -/
theorem encodeOfDecodeIsTheWord : Obligations.EncodeOfDecodeIsTheWord := by
  intro c i h
  have op {n : Nat} (ho : (opField c).toNat = n) : opField c = BitVec.ofNat 4 n := by rw [← ho]; simp
  rcases decode_ok h with ⟨ho, hz, rfl⟩ | ⟨ho, hz, rfl⟩ | ⟨ho, hz, rfl⟩ | ⟨ho, hz, rfl⟩ | ⟨ho, hz, rfl⟩ |
    ⟨ho, hz, rfl⟩ | ⟨ho, hz, rfl⟩ | ⟨ho, hz, rfl⟩ | ⟨ho, hz, rfl⟩ | ⟨ho, hz, rfl⟩ | ⟨ho, hz, rfl⟩ | ⟨ho, hz, rfl⟩ |
    ⟨ho, hz, rfl⟩
  · exact ⟨rfl, formatN_of_fields (op ho) hz⟩
  · exact ⟨decide_nField_lt c, formatL_of_fields (op ho) hz⟩
  · exact ⟨decide_posField_lt c, formatP_of_fields (op ho) hz⟩
  · exact ⟨decide_posField_lt c, formatP_of_fields (op ho) hz⟩
  · exact ⟨decide_byteOperandField_lt c, formatW_of_fields (op ho) hz⟩
  · exact ⟨decide_byteOperandField_lt c, formatWI_of_fields (op ho) hz⟩
  · exact ⟨decide_byteOperandField_lt c, formatW_of_fields (op ho) hz⟩
  · exact ⟨decide_byteOperandField_lt c, formatB_of_fields (op ho) hz⟩
  · exact ⟨decide_nField_lt c, formatL_of_fields (op ho) hz⟩
  · exact ⟨decide_byteOperandField_lt c, formatW_of_fields (op ho) hz⟩
  · exact ⟨decide_nField_lt c, formatL_of_fields (op ho) hz⟩
  · exact ⟨decide_byteOperandField_lt c, formatW_of_fields (op ho) hz⟩
  · exact ⟨rfl, formatN_of_fields (op ho) hz⟩

/-- The legal words are the encodings of the well-formed commands, each of its own command (R100). -/
theorem decode_eq_ok_iff {c : Word32} {i : Instr} : decode c = .ok i ↔ i.wellFormed = true ∧ encode i = c :=
  ⟨encodeOfDecodeIsTheWord c i, fun ⟨hwf, he⟩ => he ▸ decodeOfEncodeIsTheCommand i hwf⟩

/-! ### The value of a format, as R100 writes it -/

/-- A sum whose second part lies below every bit of the first is their OR. -/
theorem add_eq_or (k : Nat) {a b : Nat} (ha : 2 ^ k ∣ a) (hb : b < 2 ^ k) : a + b = a ||| b := by
  obtain ⟨q, rfl⟩ := ha
  exact Nat.two_pow_add_eq_or_of_lt hb q

/-- The opcode, with a byte operand in bits 23:16. -/
theorem opcode_add_byteOperand (op : Nat) {w : Nat} (h : w < 2 ^ 8) :
    2 ^ 28 * op + 2 ^ 16 * (w % 2 ^ 8) = 2 ^ 28 * op ||| w <<< 16 := by
  rw [Nat.mod_eq_of_lt h, Nat.shiftLeft_eq, Nat.mul_comm w]
  exact add_eq_or 28 (Nat.dvd_mul_right _ _) (by omega)

theorem formatL_toNat_or (op : BitVec 4) {n : Nat} (h : n < 2 ^ 16) :
    (formatL op n).toNat = 2 ^ 28 * op.toNat ||| n := by
  rw [formatL_toNat, Nat.mod_eq_of_lt h]
  exact add_eq_or 28 (Nat.dvd_mul_right _ _) (by omega)

theorem formatP_toNat_or (op : BitVec 4) {p : Nat} (h : p < 2 ^ 9) :
    (formatP op p).toNat = 2 ^ 28 * op.toNat ||| p := by
  rw [formatP_toNat, Nat.mod_eq_of_lt h]
  exact add_eq_or 28 (Nat.dvd_mul_right _ _) (by omega)

theorem formatW_toNat_or (op : BitVec 4) {w : Nat} (h : w < 2 ^ 8) :
    (formatW op w).toNat = 2 ^ 28 * op.toNat ||| w <<< 16 := by
  rw [formatW_toNat, opcode_add_byteOperand _ h]

theorem formatWI_toNat_or (op : BitVec 4) {w : Nat} (x : Index) (h : w < 2 ^ 8) :
    (formatWI op w x).toNat = 2 ^ 28 * op.toNat ||| w <<< 16 ||| x.toNat := by
  rw [formatWI_toNat, add_eq_or 16 (by omega) (by omega), opcode_add_byteOperand _ h]

theorem formatB_toNat_or (op : BitVec 4) {a : Nat} (d : Byte) (h : a < 2 ^ 8) :
    (formatB op a d).toNat = 2 ^ 28 * op.toNat ||| a <<< 16 ||| d.toNat := by
  rw [formatB_toNat, add_eq_or 16 (by omega) (by omega), opcode_add_byteOperand _ h]

/-- Settles O4: each formula is its format's, with the opcode in the top four bits. -/
theorem encodedWordsAreTheFormulas : Obligations.EncodedWordsAreTheFormulas :=
  ⟨by decide, fun _ => formatL_toNat_or 0x1, fun _ => formatP_toNat_or 0x2, fun _ => formatP_toNat_or 0x3,
    fun _ => formatW_toNat_or 0x4, fun _ => formatWI_toNat_or 0x5, fun _ => formatW_toNat_or 0x6,
    fun _ => formatB_toNat_or 0x7, fun _ => formatL_toNat_or 0x8, fun _ => formatW_toNat_or 0x9,
    fun _ => formatL_toNat_or 0xA, fun _ => formatW_toNat_or 0xB, by decide⟩

end Sys2Proof
end

section
/-! PROOF. The opcode map (spec/30_encoding.md R95) and the legal words: what a row's mask says of a word's fields, that a
word of a row is the encoding of a command of its mnemonic, and what an illegal word does (R96, R97). -/

namespace Sys2Proof

/-! ### The word that a row's mask and pattern fix -/

section
variable {c : Word32} {op : BitVec 4}

/-- A field that the mask keeps whole is the pattern's. -/
theorem field_of_and_eq {m p : Word32} {start len : Nat} (h : c &&& m = p)
    (hm : m.extractLsb' start len = BitVec.allOnes len) : c.extractLsb' start len = p.extractLsb' start len := by
  rw [← h, BitVec.extractLsb'_and, hm, BitVec.and_allOnes]

theorem formatL_of_mask (h : c &&& 0xFFFF0000#32 = formatL op 0) : formatL op (nField c) = c := by
  obtain ⟨ho, hz, -⟩ := formatL_fields op 0
  exact formatL_of_fields ((field_of_and_eq h rfl).trans ho) (beq_iff_eq.2 ((field_of_and_eq h rfl).trans hz))

theorem formatP_of_mask (h : c &&& 0xFFFFFE00#32 = formatP op 0) : formatP op (posField c) = c := by
  obtain ⟨ho, hz, -⟩ := formatP_fields op 0
  exact formatP_of_fields ((field_of_and_eq h rfl).trans ho) (beq_iff_eq.2 ((field_of_and_eq h rfl).trans hz))

theorem formatW_of_mask (h : c &&& 0xFF00FFFF#32 = formatW op 0) : formatW op (byteOperandField c) = c := by
  obtain ⟨ho, hhigh, hlow, -⟩ := formatW_fields op 0
  exact formatW_of_fields ((field_of_and_eq h rfl).trans ho) (Bool.and_eq_true_iff.2
    ⟨beq_iff_eq.2 ((field_of_and_eq h rfl).trans hhigh), beq_iff_eq.2 ((field_of_and_eq h rfl).trans hlow)⟩)

theorem formatWI_of_mask (h : c &&& 0xFF00F800#32 = formatWI op 0 0) :
    formatWI op (byteOperandField c) (indexField c) = c := by
  obtain ⟨ho, hhigh, hlow, -⟩ := formatWI_fields op 0 0
  exact formatWI_of_fields ((field_of_and_eq h rfl).trans ho) (Bool.and_eq_true_iff.2
    ⟨beq_iff_eq.2 ((field_of_and_eq h rfl).trans hhigh), beq_iff_eq.2 ((field_of_and_eq h rfl).trans hlow)⟩)

theorem formatB_of_mask (h : c &&& 0xFF00FF00#32 = formatB op 0 0) :
    formatB op (byteOperandField c) (dataField c) = c := by
  obtain ⟨ho, hhigh, hlow, -⟩ := formatB_fields op 0 0
  exact formatB_of_fields ((field_of_and_eq h rfl).trans ho) (Bool.and_eq_true_iff.2
    ⟨beq_iff_eq.2 ((field_of_and_eq h rfl).trans hhigh), beq_iff_eq.2 ((field_of_and_eq h rfl).trans hlow)⟩)

end

/-! ### Rows and commands -/

/-- The word that a row selects is the encoding of a well-formed command with the row's mnemonic. -/
theorem encode_of_selected {r : OpcodeRow} (hr : r ∈ opcodeMap) {c : Word32} (h : c &&& r.mask = r.pattern) :
    ∃ i : Instr, i.mnemonic = r.mnemonic ∧ i.wellFormed = true ∧ encode i = c := by
  simp only [opcodeMap, List.mem_cons, List.not_mem_nil, or_false] at hr
  rcases hr with rfl | rfl | rfl | rfl | rfl | rfl | rfl | rfl | rfl | rfl | rfl | rfl | rfl
  · exact ⟨.nop, rfl, rfl, h.symm.trans BitVec.and_allOnes⟩
  · exact ⟨.clr _, rfl, decide_nField_lt c, formatL_of_mask (h.trans (by decide))⟩
  · exact ⟨.bitat _, rfl, decide_posField_lt c, formatP_of_mask (h.trans (by decide))⟩
  · exact ⟨.setbit _, rfl, decide_posField_lt c, formatP_of_mask (h.trans (by decide))⟩
  · exact ⟨.rdidx _, rfl, decide_byteOperandField_lt c, formatW_of_mask (h.trans (by decide))⟩
  · exact ⟨.wridx _ _, rfl, decide_byteOperandField_lt c, formatWI_of_mask (h.trans (by decide))⟩
  · exact ⟨.rdbyte _, rfl, decide_byteOperandField_lt c, formatW_of_mask (h.trans (by decide))⟩
  · exact ⟨.wrbyte _ _, rfl, decide_byteOperandField_lt c, formatB_of_mask (h.trans (by decide))⟩
  · exact ⟨.encsetup _, rfl, decide_nField_lt c, formatL_of_mask (h.trans (by decide))⟩
  · exact ⟨.encw _, rfl, decide_byteOperandField_lt c, formatW_of_mask (h.trans (by decide))⟩
  · exact ⟨.decsetup _, rfl, decide_nField_lt c, formatL_of_mask (h.trans (by decide))⟩
  · exact ⟨.decw _, rfl, decide_byteOperandField_lt c, formatW_of_mask (h.trans (by decide))⟩
  · exact ⟨.clrerr, rfl, rfl, h.symm.trans BitVec.and_allOnes⟩

theorem ownRow (i : Instr) : Laws.OwnRow.Statement i := by
  cases i with
  | nop => exact Laws.OwnRow.nop
  | clr n => exact Laws.OwnRow.clr n
  | bitat p => exact Laws.OwnRow.bitat p
  | setbit p => exact Laws.OwnRow.setbit p
  | rdidx w => exact Laws.OwnRow.rdidx w
  | wridx w x => exact Laws.OwnRow.wridx w x
  | rdbyte a => exact Laws.OwnRow.rdbyte a
  | wrbyte a d => exact Laws.OwnRow.wrbyte a d
  | encsetup n => exact Laws.OwnRow.encsetup n
  | encw w => exact Laws.OwnRow.encw w
  | decsetup n => exact Laws.OwnRow.decsetup n
  | decw w => exact Laws.OwnRow.decw w
  | clrerr => exact Laws.OwnRow.clrerr

/-- The rows of the map have different mnemonics. -/
theorem row_eq_of_mnemonic : ∀ r ∈ opcodeMap, ∀ r' ∈ opcodeMap, r.mnemonic = r'.mnemonic → r = r' := by decide

/-- A legal word is selected by the row of its command's mnemonic. -/
theorem selected_of_decode {c : Word32} {i : Instr} (h : decode c = .ok i) :
    ∃ r ∈ opcodeMap, r.mnemonic = i.mnemonic ∧ c &&& r.mask = r.pattern := by
  obtain ⟨-, rfl⟩ := decode_eq_ok_iff.1 h
  obtain ⟨r, hr, hm, hs⟩ := ownRow i
  exact ⟨r, hr, hm, beq_iff_eq.1 hs⟩

theorem selects_iff_decode {r : OpcodeRow} (hr : r ∈ opcodeMap) (c : Word32) :
    c &&& r.mask = r.pattern ↔ ∃ i, decode c = .ok i ∧ i.mnemonic = r.mnemonic := by
  constructor
  · intro h
    obtain ⟨i, hm, hi⟩ := encode_of_selected hr h
    exact ⟨i, decode_eq_ok_iff.2 hi, hm⟩
  · rintro ⟨i, hd, hm⟩
    obtain ⟨r', hr', hm', hs⟩ := selected_of_decode hd
    exact row_eq_of_mnemonic r' hr' r hr (hm'.trans hm) ▸ hs

/-- Settles O5: two rows that select one word have the mnemonic of the one command it decodes to. -/
theorem opcodeMapSelectsTheDecodedMnemonic : Obligations.OpcodeMapSelectsTheDecodedMnemonic := by
  refine ⟨fun r hr c => selects_iff_decode hr c, fun c r hr r' hr' h h' => ?_⟩
  obtain ⟨i, hd, hm⟩ := (selects_iff_decode hr c).1 h
  obtain ⟨i', hd', hm'⟩ := (selects_iff_decode hr' c).1 h'
  have hi : i = i' := Except.ok.inj (hd.symm.trans hd')
  exact row_eq_of_mnemonic r hr r' hr' (hm.symm.trans (hi ▸ hm'))

theorem legal_iff_selected (c : Word32) :
    (∃ i, decode c = .ok i) ↔ ∃ r ∈ opcodeMap, c &&& r.mask = r.pattern := by
  constructor
  · rintro ⟨i, h⟩
    obtain ⟨r, hr, -, hs⟩ := selected_of_decode h
    exact ⟨r, hr, hs⟩
  · rintro ⟨r, hr, hs⟩
    obtain ⟨i, hd, -⟩ := (selects_iff_decode hr c).1 hs
    exact ⟨i, hd⟩

/-! ### Illegal words -/

/-- An illegal word with ERR = 0 only records ILLEGAL_COMMAND (R202). -/
theorem Machine.engineStep_of_illegal {s : Machine.State} {e : Illegal} (herr : s.err = false)
    (h : decode s.pend = .error e) :
    Machine.engineStep s = .next { s with busy := false, err := true, errcode := 5, errcmd := s.pend } := by
  simp only [Machine.engineStep, Machine.executeWord, herr, h]
  rfl

/-- Settles O6: a word that no row selects is not legal, so its execution raises. -/
theorem legalWordsAreThoseARowSelects : Obligations.LegalWordsAreThoseARowSelects := by
  refine ⟨legal_iff_selected, fun s herr hnone => ?_⟩
  cases hd : decode s.pend with
  | error e => exact Machine.engineStep_of_illegal herr hd
  | ok i =>
    obtain ⟨r, hr, hs⟩ := (legal_iff_selected s.pend).1 ⟨i, hd⟩
    exact absurd hs (hnone r hr)

theorem whenZ_ne_reservedOpcode (z : Bool) (i : Instr) : whenZ z i ≠ .error .reservedOpcode := by
  cases z <;> nofun

/-- The opcodes without a command are the three that R96 names. -/
theorem decode_eq_reservedOpcode_iff (c : Word32) :
    decode c = .error .reservedOpcode ↔ 0xC ≤ (opField c).toNat ∧ (opField c).toNat ≤ 0xE := by
  have hlt := (opField c).isLt
  unfold decode
  split
  case h_14 =>
    refine iff_of_true rfl ?_
    simp only [imp_false] at *
    omega
  all_goals exact iff_of_false (whenZ_ne_reservedOpcode _ _) (by omega)

/-- Settles O7: OP is the word's top four bits, and a word rejected for it is illegal. -/
theorem reservedOpcodesSelectNoCommand : Obligations.ReservedOpcodesSelectNoCommand := by
  refine ⟨fun c => opField_toNat c ▸ decode_eq_reservedOpcode_iff c, fun s herr hlow hhigh => ?_⟩
  rw [← opField_toNat] at hlow hhigh
  exact Machine.engineStep_of_illegal herr ((decode_eq_reservedOpcode_iff _).2 ⟨hlow, hhigh⟩)

/-- Settles O1: the decoder is run on each of the words. -/
theorem specWordsDecode : Obligations.SpecWordsDecode := by
  unfold Obligations.SpecWordsDecode
  decide

end Sys2Proof
end

section
/-! PROOF. A list of inputs served in a row is a run of as many steps, because neither the inputs still to come nor the
record of reads has a part in what an input does (spec/20_memory.md R81, spec/00_scope.md R15). -/

namespace Sys2Proof.Machine

/-! ### The model's own lists have no influence -/

/-- The same outcome with f applied to a next state. -/
def mapNext (f : State → State) : Outcome → Outcome
  | .next t => .next (f t)
  | .fault r => .fault r
  | .refused r => .refused r

@[simp] theorem mapNext_next (f : State → State) (t : State) : mapNext f (.next t) = .next (f t) := rfl

/-- Other inputs still to come, and another record of reads. -/
def State.mapRecord (s : State) (g : List Input → List Input) (h : List Word32 → List Word32) : State :=
  { s with inputs := g s.inputs, reads := h s.reads }

theorem mapNext_ite (f : State → State) (c : Prop) [Decidable c] (a b : Outcome) :
    mapNext f (if c then a else b) = if c then mapNext f a else mapNext f b := apply_ite _ _ _ _

section
variable (s : State) (g : List Input → List Input) (h : List Word32 → List Word32)

theorem mapNext_reach (a : Nat) (k : Outcome) :
    mapNext (·.mapRecord g h) (reach s a k) = reach (s.mapRecord g h) a (mapNext (·.mapRecord g h) k) :=
  mapNext_ite _ _ _ _

/-- No command reads the two lists, and each hands them on. -/
theorem exec_mapRecord (i : Instr) :
    exec i (s.mapRecord g h) = mapNext (·.mapRecord g h) (exec i s) := by
  cases i with
  | nop | clrerr => rfl
  | clr | bitat | setbit | rdidx | wridx | rdbyte | wrbyte | decsetup =>
    simp only [exec, execClr, execBitat, execSetbit, execRdidx, execWridx, execRdbyte, execWrbyte, execDecsetup,
      mapNext_ite, mapNext_reach]
    rfl
  | encsetup n =>
    simp only [exec, execEncsetup, mapNext_ite]
    cases checksumMask (8 * n) with
    | none => rfl
    | some mask =>
      simp only [mapNext_ite, mapNext_reach]
      rfl
  | encw w =>
    have hrom : romWord (s.mapRecord g h) (readIndex (s.mapRecord g h).buf w) = romWord s (readIndex s.buf w) := rfl
    simp only [exec, execEncw, mapNext_ite, mapNext_reach, hrom]
    refine ite_congr rfl (fun _ => congrArg (reach _ _) (ite_congr rfl (fun _ => ?_) fun _ => rfl)) fun _ => rfl
    cases romWord s (readIndex s.buf w) <;> rfl
  | decw w =>
    have hkey : wordKey (s.mapRecord g h) = wordKey s := rfl
    have hcam : camIndex (s.mapRecord g h) = camIndex s := rfl
    simp only [exec, execDecw, mapNext_ite, hkey, hcam]
    refine ite_congr rfl (fun _ => ?_) fun _ => rfl
    cases wordKey s with
    | none => rfl
    | some key =>
      cases hidx : camIndex s key with
      | none => simp only [hidx]; rfl
      | some x =>
        simp only [hidx, mapNext_ite, mapNext_reach]
        rfl

end

/-! ### What an input does, whatever is still to come -/

section
variable (s : State) (l : List Input)

theorem exec_withInputs (i : Instr) : exec i (s.withInputs l) = mapNext (·.withInputs l) (exec i s) :=
  exec_mapRecord s (fun _ => l) id i

theorem finish_mapNext_withInputs (o : Outcome) :
    finish (mapNext (·.withInputs l) o) = mapNext (·.withInputs l) (finish o) := by
  cases o <;> rfl

theorem engineTurn_withInputs : engineTurn (s.withInputs l) = mapNext (·.withInputs l) (engineTurn s) := by
  have hword : executeWord s.pend (s.withInputs l) = mapNext (·.withInputs l) (executeWord s.pend s) := by
    unfold executeWord
    cases decode s.pend with
    | ok i => exact exec_withInputs s l i
    | error e => rfl
  simp only [engineTurn, engineStep, mapNext_ite, ← finish_mapNext_withInputs, ← hword]
  rfl

theorem hostWrite_withInputs (r : Reg) (v : Word32) :
    hostWrite (s.withInputs l) r v = (hostWrite s r v).withInputs l := by
  cases r with
  | cmd | digest0 | winlen | win =>
    simp only [hostWrite, unlessBusy, apply_ite (State.withInputs · l)]
    rfl
  | _ => rfl

theorem perform_withInputs (a : Access) : perform (s.withInputs l) a = (perform s a).withInputs l := by
  cases a with
  | write w off v => exact hostWrite_withInputs s l (regAt off) v
  | read w off =>
    simp only [perform, hostRead, apply_ite (State.withInputs · l)]
    rw [show regValue (s.withInputs l) (regAt off) = _ from regValue_record s l s.reads (regAt off)]
    rfl

theorem serve_withInputs (i : Input) : serve (s.withInputs l) i = mapNext (·.withInputs l) (serve s i) := by
  cases i with
  | engine => exact engineTurn_withInputs s l
  | rst level =>
    simp only [serve, driveRst, mapNext_next, apply_ite (State.withInputs · l)]
    rfl
  | host a =>
    simp only [serve, serveAccess, mapNext_ite]
    cases refusalOf a.width a.offset with
    | some r => rfl
    | none => simp only [mapNext_next, perform_withInputs]; rfl

end

/-- A list that is served to its end is a run of as many steps, with the rest still to come. -/
theorem run_of_serveAll {s t : State} {l rest : List Input} (hi : s.inputs = l ++ rest)
    (h : serveAll (s.withInputs rest) l = .next t) : core.run l.length s = .next t := by
  induction l generalizing s with
  | nil =>
    rw [List.nil_append] at hi
    rw [withInputs_self hi] at h
    exact h
  | cons i l ih =>
    have hstep : step s = mapNext (·.withInputs (l ++ rest)) (serve s i) := by
      rw [← serve_withInputs]
      simp [step, hi]
    rw [serveAll, serve_withInputs] at h
    cases hs : serve s i with
    | next u =>
      rw [hs] at h hstep
      exact (run_succ_of_step hstep _).trans (ih rfl h)
    | fault f => rw [hs] at h; cases h
    | refused r => rw [hs] at h; cases h

end Sys2Proof.Machine
end

section
/-! PROOF. The lines of a listing (spec/30_encoding.md R102): a command line executes its command, and WKEY puts its bytes
in the key window. -/

namespace Sys2Proof.Machine

/-! ### The updates of an access -/

/-- The command word c has been accepted (R38). -/
def State.accept (s : State) (c : Word32) : State := { s with pend := c, busy := true }

/-- WIN <- win (R51). -/
def State.putWin (s : State) (win : List Byte) : State := { s with win := win }

/-- Reads returned vs, newest first (R80). -/
def State.pushReads (s : State) (vs : List Word32) : State := { s with reads := vs ++ s.reads }

theorem exec_pushReads (s : State) (vs : List Word32) (i : Instr) :
    exec i (s.pushReads vs) = mapNext (·.pushReads vs) (exec i s) := exec_mapRecord s id (vs ++ ·) i

/-! ### One input served -/

theorem serveAll_cons {s t : State} {i : Input} (h : serve s i = .next t) (l : List Input) :
    serveAll s (i :: l) = serveAll t l := by
  rw [serveAll, h]

section
variable {s : State} {off : Nat}

theorem serve_host {a : Access} (hr : s.rst = false) (ha : refusalOf a.width a.offset = none) :
    serve s (.host a) = .next (perform s a) := by
  simp [serve, serveAccess, hr, ha]

/-- A write with the effect t, to an idle machine. -/
theorem serve_write_accepted {t : State} {v : Word32} (hr : s.rst = false) (hb : s.busy = false)
    (ha : refusalOf 32 off = none) (hw : hostWrite s (regAt off) v = unlessBusy s t) :
    serve s (hostW off v) = .next t := by
  rw [hostW, serve_host (a := .write 32 off v) hr ha]
  exact congrArg _ (hw.trans (unlessBusy_of_free hb))

theorem serve_write_cmd (hr : s.rst = false) (hb : s.busy = false) (c : Word32) :
    serve s (hostW 0x00 c) = .next (s.accept c) := serve_write_accepted hr hb rfl rfl

theorem serve_write_win (hr : s.rst = false) (hb : s.busy = false) {j : Nat} (hj : j < 16) (v : Word32) :
    serve s (hostW (0x40 + 4 * j) v) = .next (s.putWin (setLanes s.params.wmax s.win j v)) :=
  serve_write_accepted hr hb (refusalOf_win hj) (by rw [regAt_win hj]; rfl)

theorem serve_write_winlen (hr : s.rst = false) (hb : s.busy = false) (v : Word32) :
    serve s (hostW 0x28 v) = .next { s with winlen := v.extractLsb' 0 7 } := serve_write_accepted hr hb rfl rfl

/-- A poll reads STATUS exactly, whatever BUSY is (R55). -/
theorem serve_poll (hr : s.rst = false) : serve s (hostR 0x04) = .next (s.pushRead (statusWord s)) := by
  rw [hostR, serve_host (a := .read 32 0x04) hr rfl]
  exact congrArg _ (if_neg (by simp [alwaysExact, regAt]))

/-- The engine's turn with a legal word in flight and no error recorded. -/
theorem serve_engine {t : State} {i : Instr} (hr : s.rst = false) (hb : s.busy = true) (he : s.err = false)
    (hd : decode s.pend = .ok i) (hx : exec i s = .next t) : serve s .engine = .next t.complete := by
  simp [serve, engineTurn, engineStep, executeWord, finish, hr, hb, he, hd, hx]

end

/-! ### A command line -/

/-- Polls that change nothing but the record: each reads the same STATUS. -/
theorem serveAll_polls {s : State} (hr : s.rst = false) (polls : Nat) :
    serveAll s (List.replicate polls (hostR 0x04)) =
      .next (s.pushReads (List.replicate polls (statusWord s))) := by
  induction polls with
  | zero => rfl
  | succ n ih =>
    rw [List.replicate_succ', serveAll_append ih]
    exact serveAll_cons (serve_poll (s := s.pushReads _) hr) []

/-- A command line on an idle machine with no error: the command executes with its word in PEND, the polls before the
engine's turn read STATUS with BUSY = 1, and the one after it reads STATUS as the command leaves it. -/
theorem serveAll_commandLine {s t : State} {i : Instr} (hr : s.rst = false) (hb : s.busy = false)
    (he : s.err = false) (hwf : i.wellFormed = true) (hx : exec i (s.accept (encode i)) = .next t) (polls : Nat) :
    serveAll s (commandLine polls i) = .next ((t.complete.pushReads
      (List.replicate polls (statusWord (s.accept (encode i))))).pushRead (statusWord t.complete)) := by
  obtain ⟨-, -, -, hrst, -⟩ := exec_keeps hx
  have hexec := exec_pushReads (s.accept (encode i)) (List.replicate polls (statusWord (s.accept (encode i)))) i
  rw [hx, mapNext_next] at hexec
  have hengine := serve_engine (s := (s.accept (encode i)).pushReads _) hr rfl he
    (decodeOfEncodeIsTheCommand i hwf) hexec
  rw [commandLine, waitFor, serveAll_cons (serve_write_cmd hr hb _),
    serveAll_append (serveAll_polls (s := s.accept (encode i)) hr polls), serveAll_cons hengine]
  exact serveAll_cons (serve_poll (s := (t.pushReads _).complete) (hrst.trans hr)) []

/-- Settles O58: the command line served is the run, and bit 0 of STATUS is BUSY. -/
theorem commandLineExecutesItsCommand : Obligations.CommandLineExecutesItsCommand := by
  intro s t i polls rest hr hb he hwf hi hx
  have hserved := serveAll_commandLine (s := s.withInputs rest) hr hb he hwf hx polls
  obtain ⟨-, -, -, -, -, hreads, -⟩ := exec_keeps hx
  have hlen : (commandLine polls i).length = polls + 3 := by simp [commandLine, waitFor]
  rw [← hlen, ← show t.reads = s.reads from hreads]
  refine ⟨_, _, run_of_serveAll hi hserved, List.length_replicate, fun v hv => ?_, statusWord_bit0 _⟩
  rw [List.eq_of_mem_replicate hv]
  exact statusWord_bit0 _

/-! ### WKEY -/

/-- WIN after registers 0 to m - 1 of the window have been written with the bytes of a token in lane order. -/
def keyWritten (wmax : Nat) (win : List Byte) (bytes : WlWord) (m : Nat) : List Byte :=
  (List.range m).foldl (fun w j => setLanes wmax w j (lanes bytes.length bytes j)) win

theorem keyWritten_succ (wmax : Nat) (win : List Byte) (bytes : WlWord) (m : Nat) :
    keyWritten wmax win bytes (m + 1) =
      setLanes wmax (keyWritten wmax win bytes m) m (lanes bytes.length bytes m) := by
  simp [keyWritten, List.range_succ]

@[simp] theorem keyWritten_length (wmax : Nat) (win : List Byte) (bytes : WlWord) (m : Nat) :
    (keyWritten wmax win bytes m).length = win.length := by
  induction m with
  | zero => rfl
  | succ m ih => rw [keyWritten_succ, setLanes_length, ih]

/-- A token's byte k, from its lane of the register that carries it. -/
theorem lanes_byte (bytes : WlWord) {j k : Nat} (h : 4 * j ≤ k ∧ k < 4 * j + 4) :
    (lanes bytes.length bytes j).extractLsb' (8 * (k - 4 * j)) 8 = bytes.getD k 0 := by
  rw [extractLsb_eq_div, lanes_lane _ _ _ (by omega), Nat.add_sub_cancel' h.1]
  exact ite_eq_left_iff.2 fun hk => (List.getD_eq_default _ _ (not_lt.1 hk)).symm

theorem keyWritten_getD {wmax : Nat} {win : List Byte} (hl : win.length = wmax) (bytes : WlWord) (m : Nat) {k : Nat}
    (hm : k < 4 * m) (hk : k < wmax) : (keyWritten wmax win bytes m).getD k 0 = bytes.getD k 0 := by
  induction m with
  | zero => omega
  | succ m ih =>
    rw [keyWritten_succ, setLanes_getD ((keyWritten_length ..).trans hl)]
    by_cases hlane : 4 * m ≤ k ∧ k < 4 * m + 4
    · rw [if_pos ⟨hlane, hk⟩, lanes_byte bytes hlane]
    · rw [if_neg fun hc => hlane hc.1, ih (by omega)]

/-- The writes of a token to the window of an idle machine change WIN only. -/
theorem serveAll_keyWrites {s : State} (hr : s.rst = false) (hb : s.busy = false) (bytes : WlWord) {m : Nat}
    (hm : m ≤ 16) :
    serveAll s ((List.range m).map fun j => hostW (0x40 + 4 * j) (lanes bytes.length bytes j)) =
      .next (s.putWin (keyWritten s.params.wmax s.win bytes m)) := by
  induction m with
  | zero => rfl
  | succ m ih =>
    rw [List.range_succ, List.map_append, serveAll_append (ih (by omega)), keyWritten_succ]
    exact serveAll_cons (serve_write_win (s := s.putWin (keyWritten s.params.wmax s.win bytes m)) hr hb hm _) []

/-- WKEY on an idle machine: WIN takes the bytes that the window holds, WINLEN their number. -/
theorem serveAll_wkey {s : State} (hr : s.rst = false) (hb : s.busy = false) (bytes : WlWord) :
    serveAll s (wkey bytes) = .next { s with
      win := keyWritten s.params.wmax s.win bytes ((min bytes.length 64 + 3) / 4)
      winlen := (BitVec.ofNat 32 (min bytes.length 127)).extractLsb' 0 7 } := by
  rw [wkey, serveAll_append (serveAll_keyWrites hr hb bytes (by omega))]
  exact serveAll_cons (serve_write_winlen (s := s.putWin (keyWritten ..)) hr hb _) []

theorem keyLength_toNat (n : Nat) : ((BitVec.ofNat 32 (min n 127)).extractLsb' 0 7).toNat = min n 127 := by
  rw [BitVec.extractLsb'_toNat, BitVec.toNat_ofNat, Nat.shiftRight_zero]
  omega

/-- A token of at most WMAX bytes is what the first bytes of WIN are after its writes. -/
theorem keyWritten_take {wmax : Nat} {win : List Byte} (hl : win.length = wmax) {bytes : WlWord} {m : Nat}
    (hm : bytes.length ≤ 4 * m) (hw : bytes.length ≤ wmax) :
    (keyWritten wmax win bytes m).take bytes.length = bytes := by
  refine List.ext_getElem (by simp [hl, hw]) fun k hk hk' => ?_
  have hbyte := keyWritten_getD hl bytes m (hk'.trans_le hm) (hk'.trans_le hw)
  rwa [List.getD_eq_getElem _ _ (by simp; omega), List.getD_eq_getElem _ _ hk', ← List.getElem_take (h := hk)] at hbyte

/-- Settles O59: WINLEN counts up to 127 bytes and WMAX is at most 64, so a count that is no key's stays none. -/
theorem wkeyPresentsTheKey : Obligations.WkeyPresentsTheKey := by
  intro s bytes rest hr hb hp hl hi
  obtain ⟨-, -, hpos, hmax⟩ := hp
  refine ⟨_, run_of_serveAll hi (serveAll_wkey (s := s.withInputs rest) hr hb bytes), rfl, fun h1 hw => ?_, fun h => ?_⟩
  · exact ⟨(keyLength_toNat _).trans (by omega), keyWritten_take hl (by omega) hw⟩
  · rw [keyLength_toNat]
    omega

end Sys2Proof.Machine
end

section
/-! PROOF. The bit-packing commands (spec/40_bitpack.md R110 to R113): what each answers within its bound and beyond it,
which stream positions that is about, and that the order of two WRIDX does not matter. -/

namespace Sys2Proof.Machine

/-! ### A single stream position: BITAT and SETBIT -/

theorem ofBool_setWidth_eq_ite (b : Bool) : (BitVec.ofBool b).setWidth 32 = if b then 1 else 0 := by
  cases b <;> rfl

/-- The bit that setBit ORs in is R111's, counted from the most significant end. -/
theorem one_shiftLeft_posBit (p : Nat) : 1#8 <<< posBit p = 0x80#8 >>> (p % 8) :=
  (by decide : ∀ r < 8, 1#8 <<< (7 - r) = 0x80#8 >>> r) _ (Nat.mod_lt _ (by decide))

section
variable {s : State} {p : Nat}

theorem exec_bitat_of_inBounds (hp : p < 8 * s.len.toNat) (hl : s.len.toNat ≤ s.params.bufBytes) :
    exec (.bitat p) s = .next (s.putResult ((BitVec.ofBool (bitAt s.buf p)).setWidth 32)) :=
  (if_pos (posInBounds_iff.2 hp)).trans (reach_of_lt (posByte_lt_of_inBounds hp hl) _)

theorem exec_setbit_of_inBounds (hp : p < 8 * s.len.toNat) (hl : s.len.toNat ≤ s.params.bufBytes) :
    exec (.setbit p) s = .next ((s.putBuf (setBit s.buf p)).putResult 0) :=
  (if_pos (posInBounds_iff.2 hp)).trans (reach_of_lt (posByte_lt_of_inBounds hp hl) _)

theorem not_posInBounds (hp : 8 * s.len.toNat ≤ p) : ¬ posInBounds s p = true :=
  fun h => Nat.not_lt.2 hp (posInBounds_iff.1 h)

end

/-- Settles O16: the value BITAT puts is the stream bit, zero-extended; beyond 8*LEN it raises BOUNDS. -/
theorem bitatReturnsTheStreamBit : Obligations.BitatReturnsTheStreamBit := by
  refine fun s p hl => ⟨fun hp => ?_, fun hp => if_neg (not_posInBounds hp)⟩
  rw [exec_bitat_of_inBounds hp hl, ofBool_setWidth_eq_ite]
  rfl

/-- Settles O17: SETBIT writes setBit's one byte; beyond 8*LEN it raises BOUNDS. -/
theorem setbitSetsOneBit : Obligations.SetbitSetsOneBit := by
  refine fun s p hl => ⟨fun hp => ⟨_, exec_setbit_of_inBounds hp hl, rfl, fun a => ?_⟩,
    fun hp => if_neg (not_posInBounds hp)⟩
  rw [← one_shiftLeft_posBit]
  exact read_setBit s.buf p a

/-! ### An 11-bit field: RDIDX and WRIDX -/

theorem not_wordInBounds {s : State} {w : Nat} (hw : 8 * s.len.toNat < 11 * w + 11) : ¬ wordInBounds s w = true :=
  fun h => Nat.not_le.2 hw (wordInBounds_iff.1 h)

/-- RESULT holds the field with its first stream position in bit 10 (R64). -/
theorem readIndex_setWidth_getLsbD (m : Memory) (w : Nat) {k : Nat} (hk : k < 11) :
    ((readIndex m w).setWidth 32).getLsbD (10 - k) = bitAt m (11 * w + k) := by
  rw [BitVec.getLsbD_setWidth, readIndex_getLsbD, Nat.sub_sub_self (by omega)]
  simp [show 10 - k < 32 by omega, show 10 - k < 11 by omega]

/-- Settles O18: RESULT is readIndex zero-extended from eleven bits; beyond the bound RDIDX raises BOUNDS. -/
theorem rdidxReturnsTheField : Obligations.RdidxReturnsTheField := by
  refine fun s w hl => ⟨fun hw => ⟨_, exec_rdidx_of_inBounds hw hl, rfl, ?_, fun k hk => ?_⟩,
    fun hw => if_neg (not_wordInBounds hw)⟩
  · rw [State.putResult_result, BitVec.toNat_setWidth_of_le (by decide)]
    exact (readIndex s.buf w).isLt
  · exact readIndex_setWidth_getLsbD s.buf w hk

/-- Settles O19: BUF becomes writeIndex of it, bit by bit and byte by byte; beyond the bound WRIDX raises BOUNDS. -/
theorem wridxOrsTheFieldOnly : Obligations.WridxOrsTheFieldOnly := fun s w i hl =>
  ⟨fun hw => ⟨_, exec_wridx_of_inBounds hw hl i, rfl, bitAt_writeIndex s.buf w i,
    fun _ => read_writeIndex_of_outside s.buf w i⟩, fun hw => if_neg (not_wordInBounds hw)⟩

/-! ### Two WRIDX -/

/-- Two ORs into fields of BUF commute, wherever the fields lie: bit by bit this is the OR of three bits, and the
canonical form makes memories with equal bits equal. -/
theorem writeIndex_comm {m : Memory} (h : m.wf) (v w : Nat) (i j : Index) :
    writeIndex (writeIndex m v i) w j = writeIndex (writeIndex m w j) v i := by
  refine Memory.ext_of_wf (wf_writeIndex (wf_writeIndex h v i) w j) (wf_writeIndex (wf_writeIndex h w j) v i)
    fun a => read_eq_of_bits fun p _ => ?_
  simp only [bitAt_writeIndex]
  exact Bool.or_right_comm _ _ _

/-- A WRIDX whose field is in bounds in s succeeds whatever an earlier one put into BUF: the bound is LEN's (R66). -/
theorem exec_wridx_putBuf {s : State} {w : Nat} (hw : 11 * w + 11 ≤ 8 * s.len.toNat)
    (hb : fieldLastByte w < s.params.bufBytes) (m : Memory) (i : Index) :
    exec (.wridx w i) ((s.putBuf m).putResult 0) = .next ((s.putBuf (writeIndex m w i)).putResult 0) :=
  (if_pos (wordInBounds_iff.2 hw)).trans (reach_of_lt hb _)

/-- A WRIDX that left ERR at 0 was in bounds and ORed into BUF. -/
theorem exec_wridx_next_of_noError {s t : State} {w : Nat} {i : Index} (h : exec (.wridx w i) s = .next t)
    (ht : t.err = false) :
    11 * w + 11 ≤ 8 * s.len.toNat ∧ fieldLastByte w < s.params.bufBytes ∧
      t = (s.putBuf (writeIndex s.buf w i)).putResult 0 := by
  refine (execWridx_next h).resolve_right fun ⟨_, hr⟩ => ?_
  rw [hr, State.recordError_err] at ht
  exact Bool.noConfusion ht

/-- Settles O29: WRIDX keeps LEN and BUF_BYTES, so each is in bounds after the other too, and the ORs commute. -/
theorem wridxCommute : Obligations.WridxCommute := by
  intro s t u v w i j hwf ht hte hu hue he
  obtain ⟨hv, hvb, rfl⟩ := exec_wridx_next_of_noError ht (hte.trans he)
  obtain ⟨hw, hwb, rfl⟩ := exec_wridx_next_of_noError hu (hue.trans he)
  refine ⟨_, exec_wridx_putBuf hw hwb _ j, (exec_wridx_putBuf hv hvb _ i).trans ?_⟩
  rw [writeIndex_comm hwf]

end Sys2Proof.Machine
end

section
/-! PROOF. The buffer commands (spec/41_buffer.md R130 to R132): what CLR, RDBYTE and WRBYTE answer within their bound
and beyond it. -/

namespace Sys2Proof.Machine

/-! ### CLR -/

/-- A length that fits BUF fits any register of at least eight bits, so LEN and RESULT: R6 has BUF_BYTES at most 64. -/
theorem toNat_ofNat_of_le_bufBytes {p : Params} (hp : p.wf) {n : Nat} (hn : n ≤ p.bufBytes) {w : Nat} (hw : 8 ≤ w) :
    (BitVec.ofNat w n).toNat = n := by
  have hmax := hp.2.1
  have hpow : 2 ^ 8 ≤ 2 ^ w := Nat.pow_le_pow_right (by decide) hw
  exact Nat.mod_eq_of_lt (by omega)

theorem exec_clr_of_le {s : State} {n : Nat} (hn : n ≤ s.params.bufBytes) :
    exec (.clr n) s = .next ((s.newBuffer n 0 0).putResult (BitVec.ofNat 32 n)) := if_pos hn

/-- Settles O20: CLR starts a new, empty buffer of length N; above BUF_BYTES it raises BOUNDS. -/
theorem clrZeroesTheBuffer : Obligations.ClrZeroesTheBuffer := fun _ _ hp =>
  ⟨fun hn => ⟨_, exec_clr_of_le hn, rfl, toNat_ofNat_of_le_bufBytes hp hn (by decide),
    toNat_ofNat_of_le_bufBytes hp hn (by decide), Memory.read_nil⟩, fun hn => if_neg (Nat.not_le.2 hn)⟩

/-! ### One byte: RDBYTE and WRBYTE -/

section
variable {s : State} {a : Nat}

theorem exec_rdbyte_of_inBounds (ha : a < s.len.toNat) (hl : s.len.toNat ≤ s.params.bufBytes) :
    exec (.rdbyte a) s = .next (s.putResult ((s.buf.read a).setWidth 32)) :=
  (if_pos (addrInBounds_iff.2 ha)).trans (reach_of_lt (Nat.lt_of_lt_of_le ha hl) _)

theorem exec_wrbyte_of_inBounds (ha : a < s.len.toNat) (hl : s.len.toNat ≤ s.params.bufBytes) (d : Byte) :
    exec (.wrbyte a d) s = .next ((s.putBuf (s.buf.write a d)).putResult 0) :=
  (if_pos (addrInBounds_iff.2 ha)).trans (reach_of_lt (Nat.lt_of_lt_of_le ha hl) _)

theorem not_addrInBounds (ha : s.len.toNat ≤ a) : ¬ addrInBounds s a = true :=
  fun h => Nat.not_lt.2 ha (addrInBounds_iff.1 h)

end

/-- Settles O21: RDBYTE puts the byte zero-extended, which keeps its value; from LEN on it raises BOUNDS. -/
theorem rdbyteReturnsTheByte : Obligations.RdbyteReturnsTheByte := fun _ _ hl =>
  ⟨fun ha => ⟨_, exec_rdbyte_of_inBounds ha hl, rfl, BitVec.toNat_setWidth_of_le (by decide)⟩,
    fun ha => if_neg (not_addrInBounds ha)⟩

/-- Settles O22: BUF becomes a write of DATA at ADDR, read back by the law of reads after writes; from LEN on WRBYTE
raises BOUNDS. -/
theorem wrbyteOverwritesOneByte : Obligations.WrbyteOverwritesOneByte := fun s a d hl =>
  ⟨fun ha => ⟨_, exec_wrbyte_of_inBounds ha hl d, rfl, Memory.read_write s.buf a d⟩,
    fun ha => if_neg (not_addrInBounds ha)⟩

end Sys2Proof.Machine
end

section
/-! PROOF. The encoder commands (spec/42_encoder.md R140 to R142): what ENCSETUP and ENCW answer on success and for each
of their errors, and that the words of an ENCSETUP are the positions ENCW finds in bounds. -/

namespace Sys2Proof.Machine

/-! ### ENCSETUP -/

/-- R140's results table: N in bytes, the checksum's length and mask, the word count. -/
def encsetupTable : List (Nat × Nat × Byte × Nat) :=
  [(16, 4, 0xF0#8, 12), (20, 5, 0xF8#8, 15), (24, 6, 0xFC#8, 18), (28, 7, 0xFE#8, 21), (32, 8, 0xFF#8, 24)]

/-- The table's columns are R7's formulas at its lengths. -/
theorem encsetupTable_row {n cslen nwords : Nat} {mask : Byte} (h : (n, cslen, mask, nwords) ∈ encsetupTable) :
    entropyLengthValid n = true ∧ checksumMask (8 * n) = some mask ∧ checksumLength (8 * n) = cslen ∧
      wordCount (8 * n) = nwords := by
  simp only [encsetupTable, List.mem_cons, Prod.mk.injEq, List.not_mem_nil, or_false] at h
  rcases h with ⟨rfl, rfl, rfl, rfl⟩ | ⟨rfl, rfl, rfl, rfl⟩ | ⟨rfl, rfl, rfl, rfl⟩ | ⟨rfl, rfl, rfl, rfl⟩ |
    ⟨rfl, rfl, rfl, rfl⟩ <;> decide

theorem entropyLengthValid_iff_mem {n : Nat} : entropyLengthValid n = true ↔ n ∈ [16, 20, 24, 28, 32] := by
  simp [entropyLengthValid_iff]

section
variable {s : State} {n : Nat}

theorem exec_encsetup_of_invalid (hv : ¬ entropyLengthValid n = true) :
    exec (.encsetup n) s = raise s .invalidEntropyLength := if_neg hv

theorem exec_encsetup_of_mask {mask : Byte} (hv : entropyLengthValid n = true) (hm : checksumMask (8 * n) = some mask) :
    exec (.encsetup n) s =
      if s.dvalid then reach s n (.next (s.appendChecksum n mask)) else raise s .digestUnavailable := by
  rw [exec, execEncsetup, if_pos hv, hm]

/-- Every valid length has a mask, so without a digest byte the one error left is R140's second. -/
theorem exec_encsetup_of_noDigest (hv : entropyLengthValid n = true) (hd : s.dvalid = false) :
    exec (.encsetup n) s = raise s .digestUnavailable := by
  obtain ⟨mask, hm⟩ : ∃ mask, checksumMask (8 * n) = some mask := by
    rcases entropyLengthValid_iff.1 hv with rfl | rfl | rfl | rfl | rfl <;> exact ⟨_, rfl⟩
  rw [exec_encsetup_of_mask hv hm, hd]
  rfl

end

/-- Settles O23: each row of the table is what appendChecksum computes from N, and BUF is one write of the masked byte;
a length off the table, or a missing digest byte, raises. -/
theorem encsetupAppendsTheChecksum : Obligations.EncsetupAppendsTheChecksum := by
  refine fun s => ⟨fun n cslen nwords mask hrow hp hd => ?_,
    fun n hn => exec_encsetup_of_invalid (mt entropyLengthValid_iff_mem.1 hn),
    fun n hn hd => exec_encsetup_of_noDigest (entropyLengthValid_iff_mem.2 hn) hd⟩
  obtain ⟨hv, hm, rfl, rfl⟩ := encsetupTable_row hrow
  have hb : n < s.params.bufBytes := Nat.lt_of_le_of_lt (checksum_row hv hm).1 hp.1
  refine ⟨s.appendChecksum n mask, ?_, rfl, Memory.read_write s.buf n _⟩
  rw [exec_encsetup_of_mask hv hm, if_pos hd, reach_of_lt hb]

/-- An ENCSETUP that left ERR at 0 had a valid length and a digest byte, and appended the masked byte. -/
theorem exec_encsetup_next_of_noError {s t : State} {n : Nat} (h : exec (.encsetup n) s = .next t)
    (ht : t.err = false) :
    entropyLengthValid n = true ∧ n < s.params.bufBytes ∧ s.dvalid = true ∧
      ∃ mask, checksumMask (8 * n) = some mask ∧ t = s.appendChecksum n mask := by
  refine (execEncsetup_next h).resolve_right ?_
  rintro (⟨-, -, rfl⟩ | ⟨-, rfl⟩) <;> exact Bool.noConfusion ht

/-! ### ENCW -/

/-- The field's first stream position is its index's most significant bit (R64). -/
theorem readIndex_getLsbD_of_lt (m : Memory) (w : Nat) {k : Nat} (hk : k < 11) :
    (readIndex m w).getLsbD (10 - k) = bitAt m (11 * w + k) := by
  rw [readIndex_getLsbD, Nat.sub_sub_self (by omega), decide_eq_true (by omega), Bool.true_and]

section
variable {s : State} {w : Nat}

theorem exec_encw_of_outOfBounds (hw : 8 * s.len.toNat < 11 * w + 11) : exec (.encw w) s = raise s .bounds :=
  if_neg (not_wordInBounds hw)

theorem exec_encw_of_word (hw : 11 * w + 11 ≤ 8 * s.len.toNat) (hl : s.len.toNat ≤ s.params.bufBytes)
    (hr : s.wlReady = true) {v : WlWord} (hv : romWord s (readIndex s.buf w) = some v) :
    exec (.encw w) s = .next ((s.putWout v).putResult ((readIndex s.buf w).setWidth 32)) := by
  rw [exec, execEncw, if_pos (wordInBounds_iff.2 hw), reach_of_lt (fieldLastByte_lt_of_inBounds hw hl), if_pos hr, hv]

theorem exec_encw_of_notReady (hw : 11 * w + 11 ≤ 8 * s.len.toNat) (hl : s.len.toNat ≤ s.params.bufBytes)
    (hr : s.wlReady = false) : exec (.encw w) s = raise s .wlNotReady := by
  rw [exec, execEncw, if_pos (wordInBounds_iff.2 hw), reach_of_lt (fieldLastByte_lt_of_inBounds hw hl),
    if_neg (Bool.eq_false_iff.1 hr)]

/-- From a state without an error ENCW records BOUNDS exactly where the field is out of bounds: a success keeps ERR
at 0, and WL_NOT_READY has another code. -/
theorem exec_encw_eq_bounds_iff (hs : s.err = false) :
    exec (.encw w) s = raise s .bounds ↔ 8 * s.len.toNat < 11 * w + 11 := by
  refine ⟨fun h => ?_, exec_encw_of_outOfBounds⟩
  rcases execEncw_next h with ⟨-, -, -, v, -, hv⟩ | ⟨-, -, hr⟩ | ⟨hw, -⟩
  · exact absurd ((congrArg State.err hv).trans hs) Bool.noConfusion
  · exact absurd (congrArg State.errcode hr) (by simp [ErrCode.code])
  · exact hw

end

/-- Settles O24: under R71 the ROM has the word of the index that readIndex collects from the field; beyond the bound
ENCW raises BOUNDS before it looks at WL_READY. -/
theorem encwReturnsIndexAndWord : Obligations.EncwReturnsIndexAndWord := by
  refine fun s w hp hl => ⟨fun hok hr hw => ?_, exec_encw_of_outOfBounds, fun hw => exec_encw_of_notReady hw hl⟩
  obtain ⟨v, hv⟩ := romWord_isSome hok (readIndex s.buf w)
  obtain ⟨hget, -, hfits⟩ := romWord_some hv
  have hmax := hp.2.2.2
  refine ⟨_, readIndex s.buf w, v, exec_encw_of_word hw hl hr hv, fun k hk => ?_, hget, rfl,
    Nat.mod_eq_of_lt (by omega), padded_eq_append hfits⟩
  rw [readIndex_getLsbD_of_lt s.buf w hk, bitAt_def]

/-! ### The words of an ENCSETUP -/

/-- The word count of a valid length is the number of fields that entropy and checksum byte have room for (R142). -/
theorem field_fits_iff_lt_wordCount {n : Nat} (hv : entropyLengthValid n = true) (w : Nat) :
    11 * w + 11 ≤ 8 * (n + 1) ↔ w < wordCount (8 * n) := by
  unfold wordCount checksumLength
  rcases entropyLengthValid_iff.1 hv with rfl | rfl | rfl | rfl | rfl <;> omega

/-- Settles O31: ENCSETUP leaves LEN = N + 1 and NWORDS the word count, and neither is cut off by its register. -/
theorem encwBoundsAfterEncsetup : Obligations.EncwBoundsAfterEncsetup := by
  intro s t n w h ht
  obtain ⟨hv, -, -, mask, hm, rfl⟩ := exec_encsetup_next_of_noError h ht
  obtain ⟨hn, ⟨hwords, -⟩, -⟩ := checksum_row hv hm
  have hlen : (s.appendChecksum n mask).len.toNat = n + 1 := Nat.mod_eq_of_lt (by omega)
  have hcount : (s.appendChecksum n mask).nwords.toNat = wordCount (8 * n) := Nat.mod_eq_of_lt (by omega)
  have hfit := field_fits_iff_lt_wordCount hv w
  rw [hcount]
  exact ⟨hfit, (exec_encw_eq_bounds_iff ht).trans (by rw [hlen, ← not_le, hfit, not_lt])⟩

end Sys2Proof.Machine
end

section
/-! PROOF. The decoder commands (spec/43_decoder.md R160, R161): what DECSETUP and DECW answer on success and for each
of their errors, and that the words of a DECSETUP are the positions DECW finds in bounds. -/

namespace Sys2Proof.Machine

/-! ### DECSETUP -/

/-- The machine after a successful DECSETUP n. -/
def State.sized (s : State) (n : Nat) : State :=
  (s.newBuffer (dataSize n) n (dataSize n - 1)).putResult (BitVec.ofNat 32 (dataSize n - 1))

/-- A word takes more than a byte, so a number of words that BUF holds is no more than its bytes. -/
theorem le_dataSize (n : Nat) : n ≤ dataSize n := by
  unfold dataSize
  omega

section
variable {s : State} {n : Nat}

theorem exec_decsetup_of_fits (hn : n ≠ 0) (hb : dataSize n ≤ s.params.bufBytes) :
    exec (.decsetup n) s = .next (s.sized n) := (if_neg hn).trans (if_neg (Nat.not_lt.2 hb))

theorem exec_decsetup_of_badCount (h : n = 0 ∨ s.params.bufBytes < dataSize n) :
    exec (.decsetup n) s = raise s .badWordCount := by
  by_cases hn : n = 0
  · exact if_pos hn
  · exact (if_neg hn).trans (if_pos (h.resolve_left hn))

/-- A DECSETUP that left ERR at 0 had a number of words that BUF holds. -/
theorem exec_decsetup_next_of_noError {t : State} (h : exec (.decsetup n) s = .next t) (ht : t.err = false) :
    n ≠ 0 ∧ dataSize n ≤ s.params.bufBytes ∧ t = s.sized n := by
  refine (execDecsetup_next h).resolve_right ?_
  rintro ⟨-, rfl⟩
  exact Bool.noConfusion ht

theorem sized_len_toNat (hp : s.params.wf) (hb : dataSize n ≤ s.params.bufBytes) :
    (s.sized n).len.toNat = dataSize n := toNat_ofNat_of_le_bufBytes hp hb (Nat.le_refl 8)

theorem sized_entlen_toNat (hp : s.params.wf) (hb : dataSize n ≤ s.params.bufBytes) :
    (s.sized n).entlen.toNat = dataSize n - 1 :=
  toNat_ofNat_of_le_bufBytes hp ((Nat.sub_le _ _).trans hb) (Nat.le_refl 8)

end

/-- Settles O25: DECSETUP starts a new, empty buffer, and no count is cut off by its register; its two checks raise
BAD_WORD_COUNT. -/
theorem decsetupSizesAndZeroes : Obligations.DecsetupSizesAndZeroes := fun _ n hp =>
  ⟨fun hn hb => ⟨_, exec_decsetup_of_fits hn hb, rfl, sized_len_toNat hp hb,
    toNat_ofNat_of_le_bufBytes hp ((le_dataSize n).trans hb) (by decide), sized_entlen_toNat hp hb,
    toNat_ofNat_of_le_bufBytes hp ((Nat.sub_le _ _).trans hb) (by decide), Memory.read_nil⟩,
    exec_decsetup_of_badCount⟩

/-- n words fill their bytes up to less than one more word (R160). -/
theorem field_fits_dataSize_iff (n w : Nat) : 11 * w + 11 ≤ 8 * dataSize n ↔ w < n := by
  unfold dataSize
  omega

/-- Settles O32: DECSETUP leaves LEN at the bytes of its n words. -/
theorem decwBoundsAfterDecsetup : Obligations.DecwBoundsAfterDecsetup := by
  intro s t n w hp h ht
  obtain ⟨-, hb, rfl⟩ := exec_decsetup_next_of_noError h ht
  rw [sized_len_toNat hp hb]
  exact field_fits_dataSize_iff n w

/-! ### The index of the key -/

/-- The index that the CAM has for the key in WIN, if there is a key and it is a word (R33, R74). -/
def keyIndex (s : State) : Option Index := (wordKey s).bind (camIndex s)

section
variable {s : State}

theorem keyIndex_of_badLength (h : s.winlen.toNat = 0 ∨ s.params.wmax < s.winlen.toNat) : keyIndex s = none := by
  have hk : wordKey s = none := if_neg (by omega)
  rw [keyIndex, hk, Option.bind_none]

theorem keyIndex_of_length (h1 : 1 ≤ s.winlen.toNat) (hw : s.winlen.toNat ≤ s.params.wmax) :
    keyIndex s = camIndex s (s.win.take s.winlen.toNat) := by
  have hk : wordKey s = some (s.win.take s.winlen.toNat) := if_pos ⟨h1, hw⟩
  rw [keyIndex, hk, Option.bind_some]

/-- The CAM misses a key that is no word of the store, whatever the store is. -/
theorem camIndex_of_notMem {key : WlWord} (h : key ∉ s.wl) : camIndex s key = none := by
  refine Option.map_eq_none_iff.2 (List.findIdx?_eq_none_iff.2 fun word hword => ?_)
  exact beq_false_of_ne fun he => h (he ▸ List.mem_of_mem_take hword)

/-- Under R71 the CAM has an index for every word of the store. -/
theorem camIndex_of_mem (hok : s.WordListOk) {key : WlWord} (h : key ∈ s.wl) : ∃ i, camIndex s key = some i := by
  obtain ⟨j, hj, rfl⟩ := List.getElem_of_mem h
  have hlt : j < 2048 := hok.size ▸ hj
  refine ⟨BitVec.ofNat 11 j, (camIndex_eq_some_iff hok _ _).2 ?_⟩
  rw [BitVec.toNat_ofNat, Nat.mod_eq_of_lt (by omega), List.getElem?_eq_getElem hj]

/-- Under R71 the key that is the word of index i has index i. -/
theorem keyIndex_of_word (hok : s.WordListOk) {i : Index} {word : WlWord} (hget : s.wl[i.toNat]? = some word)
    (hlen : s.winlen.toNat = word.length) (hwin : s.win.take word.length = word) : keyIndex s = some i := by
  obtain ⟨hpos, hmax⟩ := hok.fits word (List.mem_of_getElem? hget)
  rw [keyIndex_of_length (hlen ▸ hpos) (hlen ▸ hmax), hlen, hwin]
  exact (camIndex_eq_some_iff hok word i).2 hget

end

/-! ### DECW -/

section
variable {s : State} {w : Nat}

theorem exec_decw_of_notReady (hr : s.wlReady = false) : exec (.decw w) s = raise s .wlNotReady :=
  if_neg (Bool.eq_false_iff.1 hr)

/-- DECW looks the key up, then checks the bound, then writes (R161). -/
theorem exec_decw_of_ready (hr : s.wlReady = true) :
    exec (.decw w) s = (keyIndex s).elim (raise s .unknownWord) fun i =>
      if wordInBounds s w then
        reach s (fieldLastByte w) (.next ((s.putBuf (writeIndex s.buf w i)).putResult (i.setWidth 32)))
      else raise s .bounds := by
  rw [exec, execDecw, if_pos hr, keyIndex]
  cases wordKey s with
  | none => rfl
  | some key =>
    rw [Option.bind_some]
    dsimp only
    cases camIndex s key <;> rfl

theorem exec_decw_of_unknown (hr : s.wlReady = true) (hk : keyIndex s = none) :
    exec (.decw w) s = raise s .unknownWord := by
  rw [exec_decw_of_ready hr, hk, Option.elim_none]

theorem exec_decw_of_outOfBounds (hr : s.wlReady = true) {i : Index} (hk : keyIndex s = some i)
    (hw : 8 * s.len.toNat < 11 * w + 11) : exec (.decw w) s = raise s .bounds := by
  rw [exec_decw_of_ready hr, hk]
  exact if_neg (not_wordInBounds hw)

theorem exec_decw_of_inBounds (hr : s.wlReady = true) {i : Index} (hk : keyIndex s = some i)
    (hw : 11 * w + 11 ≤ 8 * s.len.toNat) (hl : s.len.toNat ≤ s.params.bufBytes) :
    exec (.decw w) s = .next ((s.putBuf (writeIndex s.buf w i)).putResult (i.setWidth 32)) := by
  rw [exec_decw_of_ready hr, hk]
  exact (if_pos (wordInBounds_iff.2 hw)).trans (reach_of_lt (fieldLastByte_lt_of_inBounds hw hl) _)

end

/-- Settles O26: BUF becomes writeIndex of it with the key's index, bit by bit and byte by byte. -/
theorem decwOrsTheWordsIndex : Obligations.DecwOrsTheWordsIndex :=
  fun s w i _ hok hr hget hlen hwin hw hl =>
    ⟨_, exec_decw_of_inBounds hr (keyIndex_of_word hok hget hlen hwin) hw hl, rfl, bitAt_writeIndex s.buf w i,
      fun _ => read_writeIndex_of_outside s.buf w i⟩

/-- Settles O27: a key of a wrong length and a CAM miss both leave no index; under R71 a word of the store has one, and
what is left to fail is the bound. -/
theorem decwErrorsInOrder : Obligations.DecwErrorsInOrder := by
  refine fun s w => ⟨exec_decw_of_notReady, fun hr hlen => ?_, fun hr hpos hmax hmem => ?_,
    fun hr hok hpos hmax hmem hw => ?_⟩
  · exact exec_decw_of_unknown hr (keyIndex_of_badLength hlen)
  · exact exec_decw_of_unknown hr ((keyIndex_of_length hpos hmax).trans (camIndex_of_notMem hmem))
  · obtain ⟨i, hi⟩ := camIndex_of_mem hok hmem
    exact exec_decw_of_outOfBounds hr ((keyIndex_of_length hpos hmax).trans hi) hw

end Sys2Proof.Machine
end

section
/-! PROOF. The round trip (spec/43_decoder.md R164): what a buffer holds after a row of indices has been written into
it, that an ENCSETUP leaves nothing after its last word, and that DECW takes the word an ENCW returned. -/

namespace Sys2Proof.Machine

/-! ### A row of indices in an empty buffer -/

/-- BUF after indices 0 to n - 1 of idx have been ORed into an empty buffer, each at its word position. -/
def packed (idx : Nat → Index) : Nat → Memory
  | 0 => []
  | n + 1 => writeIndex (packed idx n) n (idx n)

/-- Stream position p of a row of indices is bit 10 - p mod 11 of index p div 11. -/
theorem bitAt_packed (idx : Nat → Index) (n p : Nat) :
    bitAt (packed idx n) p = (decide (p < 11 * n) && (idx (p / 11)).getLsbD (10 - p % 11)) := by
  induction n with
  | zero => simp [packed]
  | succ n ih =>
    rw [packed, bitAt_writeIndex, ih]
    by_cases hp : p / 11 = n
    · have hout : ¬ p < 11 * n := by omega
      have hin : 11 * n ≤ p ∧ p < 11 * n + 11 := by omega
      have hlt : p < 11 * (n + 1) := by omega
      have hoff : p - 11 * n = p % 11 := by omega
      simp [hout, hin, hlt, hoff, hp]
    · have hout : ¬ (11 * n ≤ p ∧ p < 11 * n + 11) := by omega
      have hlt : p < 11 * (n + 1) ↔ p < 11 * n := by omega
      simp [hout, hlt]

/-- The fields of m, written into an empty buffer, give m back as far as they reach. -/
theorem bitAt_packed_readIndex (m : Memory) (n p : Nat) :
    bitAt (packed (readIndex m) n) p = (decide (p < 11 * n) && bitAt m p) := by
  rw [bitAt_packed, readIndex_getLsbD_of_lt m _ (Nat.mod_lt p (by decide)), Nat.div_add_mod]

/-! ### The buffer of an ENCSETUP -/

/-- The words of a valid length end with the checksum bits, in the byte that they take to hold (R7, R140, R160). -/
theorem wordCount_fills {n : Nat} (hv : entropyLengthValid n = true) :
    11 * wordCount (8 * n) = 8 * n + checksumLength (8 * n) ∧ dataSize (wordCount (8 * n)) = n + 1 := by
  rcases entropyLengthValid_iff.1 hv with rfl | rfl | rfl | rfl | rfl <;> decide

theorem appendChecksum_read_last (s : State) (n : Nat) (mask : Byte) :
    (s.appendChecksum n mask).buf.read n = s.digest0 &&& mask :=
  (Memory.read_write ..).trans (if_pos rfl)

section
variable {s : State} {n : Nat} {mask : Byte} (hv : entropyLengthValid n = true)
  (hm : checksumMask (8 * n) = some mask)
include hv hm

/-- Neither LEN nor NWORDS is cut off by its register. -/
theorem appendChecksum_counts : (s.appendChecksum n mask).len.toNat = n + 1 ∧
    (s.appendChecksum n mask).nwords.toNat = wordCount (8 * n) := by
  obtain ⟨hn, ⟨hwords, -⟩, -⟩ := checksum_row hv hm
  exact ⟨Nat.mod_eq_of_lt (by omega), Nat.mod_eq_of_lt (by omega)⟩

/-- The checksum byte is 0 after the last word: the mask keeps only the checksum's bits (R27). -/
theorem bitAt_appendChecksum_of_afterWords {p : Nat} (hp : 11 * wordCount (8 * n) ≤ p) (hbyte : p / 8 = n) :
    bitAt (s.appendChecksum n mask).buf p = false := by
  obtain ⟨-, -, -, hmask⟩ := checksum_row hv hm
  have hbit : 7 - p % 8 < 8 - checksumLength (8 * n) := by
    have hend := (wordCount_fills hv).1
    omega
  rw [bitAt_def, hbyte, appendChecksum_read_last, BitVec.getLsbD_and, hmask, BitVec.getLsbD_shiftLeft]
  simp [hbit]

/-- The words of an ENCSETUP, written into an empty buffer, are its entropy and its checksum byte. -/
theorem read_packed_appendChecksum {a : Nat} (ha : a ≤ n) :
    (packed (readIndex (s.appendChecksum n mask).buf) (wordCount (8 * n))).read a =
      (s.appendChecksum n mask).buf.read a := by
  have hend := (wordCount_fills hv).1
  refine read_eq_of_bits fun p hp => ?_
  rw [bitAt_packed_readIndex]
  by_cases hlt : p < 11 * wordCount (8 * n)
  · rw [decide_eq_true hlt, Bool.true_and]
  · rw [decide_eq_false hlt, Bool.false_and]
    exact (bitAt_appendChecksum_of_afterWords hv hm (not_lt.1 hlt) (by omega)).symm

end

/-! ### The word of an ENCW as the key of a DECW -/

/-- The machine after ENCW w, under R71 with WL_READY = 1. -/
def State.afterEncw (t : State) (w : Nat) : State :=
  (t.putWout (t.wl.getD (readIndex t.buf w).toNat [])).putResult ((readIndex t.buf w).setWidth 32)

/-- The host presents the word in e's WOUT as the key (R164). -/
def State.presentWout (u e : State) : State := { u with win := e.wout, winlen := e.woutlen }

theorem State.WordListOk.of_same {s t : State} (h : s.WordListOk) (hp : t.params = s.params) (hwl : t.wl = s.wl) :
    t.WordListOk := by
  obtain ⟨hsize, hunique, hfits⟩ := h
  exact ⟨hwl ▸ hsize, hwl ▸ hunique, by rw [hwl, hp]; exact hfits⟩

section
variable {t : State} (hok : t.WordListOk)
include hok

theorem getD_eq_of_index (i : Index) : t.wl[i.toNat]? = some (t.wl.getD i.toNat []) := by
  have hi : i.toNat < t.wl.length := hok.size.symm ▸ i.isLt
  rw [List.getD_eq_getElem _ _ hi, List.getElem?_eq_getElem hi]

theorem exec_encw_eq_afterEncw {w : Nat} (hw : 11 * w + 11 ≤ 8 * t.len.toNat) (hl : t.len.toNat ≤ t.params.bufBytes)
    (hr : t.wlReady = true) : exec (.encw w) t = .next (t.afterEncw w) := by
  obtain ⟨v, hv⟩ := romWord_isSome hok (readIndex t.buf w)
  have hget : v = t.wl.getD (readIndex t.buf w).toNat [] :=
    Option.some.inj ((romWord_some hv).1.symm.trans (getD_eq_of_index hok _))
  rw [exec_encw_of_word hw hl hr hv, hget, State.afterEncw]

/-- The word that ENCW w returned has, as a key, the index that ENCW found (R71 (iii)). -/
theorem keyIndex_presentWout (hp : t.params.wf) {u : State} (hup : u.params = t.params) (huwl : u.wl = t.wl)
    (w : Nat) : keyIndex (u.presentWout (t.afterEncw w)) = some (readIndex t.buf w) := by
  have hget := getD_eq_of_index hok (readIndex t.buf w)
  obtain ⟨-, hfits⟩ := hok.fits _ (List.mem_of_getElem? hget)
  have hmax := hp.2.2.2
  have hok' : (u.presentWout (t.afterEncw w)).WordListOk := hok.of_same hup huwl
  refine keyIndex_of_word hok' ((congrArg (·[_]?) huwl).trans hget) (Nat.mod_eq_of_lt (by omega)) ?_
  exact (congrArg (List.take _) (padded_eq_append hfits)).trans List.take_left

end

/-! ### The decoding run -/

/-- A machine u that DECSETUP k has sized, after the words that t's ENCW returns for positions 0 to w - 1 have been
decoded. -/
def decodeRun (t u : State) (k : Nat) : Nat → State
  | 0 => u.sized k
  | w + 1 => (((u.sized k).presentWout (t.afterEncw w)).putBuf (packed (readIndex t.buf) (w + 1))).putResult
      ((readIndex t.buf w).setWidth 32)

section
variable (t u : State) (k w : Nat)

/-- Every state of the run is the sized machine but for BUF, RESULT and the key. -/
theorem decodeRun_frame : (decodeRun t u k w).params = u.params ∧ (decodeRun t u k w).wl = u.wl ∧
    (decodeRun t u k w).wlReady = u.wlReady ∧ (decodeRun t u k w).len = (u.sized k).len ∧
    (decodeRun t u k w).entlen = (u.sized k).entlen := by
  cases w <;> exact ⟨rfl, rfl, rfl, rfl, rfl⟩

theorem decodeRun_buf : (decodeRun t u k w).buf = packed (readIndex t.buf) w := by
  cases w <;> rfl

theorem decodeRun_succ : decodeRun t u k (w + 1) =
    (((decodeRun t u k w).presentWout (t.afterEncw w)).putBuf
      (writeIndex (decodeRun t u k w).buf w (readIndex t.buf w))).putResult ((readIndex t.buf w).setWidth 32) := by
  rw [decodeRun_buf]
  cases w <;> rfl

end

/-- One DECW of the run. -/
theorem exec_decw_decodeRun {t u : State} (hok : t.WordListOk) (hp : t.params.wf) (hup : u.params = t.params)
    (huwl : u.wl = t.wl) (hr : u.wlReady = true) {k w : Nat} (hw : w < k) (hb : dataSize k ≤ u.params.bufBytes) :
    exec (.decw w) ((decodeRun t u k w).presentWout (t.afterEncw w)) = .next (decodeRun t u k (w + 1)) := by
  obtain ⟨hrp, hrwl, hrr, hrlen, -⟩ := decodeRun_frame t u k w
  have hlen : (decodeRun t u k w).len.toNat = dataSize k := by rw [hrlen, sized_len_toNat (hup ▸ hp) hb]
  rw [decodeRun_succ]
  refine exec_decw_of_inBounds (s := (decodeRun t u k w).presentWout (t.afterEncw w)) (hrr.trans hr)
    (keyIndex_presentWout hok hp (hrp.trans hup) (hrwl.trans huwl) w) ?_ ?_
  · show 11 * w + 11 ≤ 8 * (decodeRun t u k w).len.toNat
    rw [hlen]
    exact (field_fits_dataSize_iff k w).2 hw
  · show (decodeRun t u k w).len.toNat ≤ (decodeRun t u k w).params.bufBytes
    rw [hlen, hrp]
    exact hb

/-- Settles O34: ENCSETUP's words fill the decoder's buffer exactly, each DECW finds the index that ENCW read, and the
fields of a buffer, written into an empty one, give it back. -/
theorem decodeOfEncodeGivesTheBufferBack : Obligations.DecodeOfEncodeGivesTheBufferBack := by
  intro s t u n hp hok hr h ht hup huwl hur
  obtain ⟨hv, hb, -, mask, hm, rfl⟩ := exec_encsetup_next_of_noError h ht
  obtain ⟨hlen, hcount⟩ := appendChecksum_counts (s := s) hv hm
  have hsize := (wordCount_fills hv).2
  have hpos : wordCount (8 * n) ≠ 0 := fun h0 => by simp [h0, dataSize] at hsize
  have hfits : dataSize (wordCount (8 * n)) ≤ u.params.bufBytes := by rw [hsize, hup]; exact hb
  have hokt : (s.appendChecksum n mask).WordListOk := hok.of_same rfl rfl
  rw [hcount]
  refine ⟨decodeRun (s.appendChecksum n mask) u (wordCount (8 * n)), exec_decsetup_of_fits hpos hfits,
    fun w hw => ⟨_, exec_encw_eq_afterEncw hokt ?_ (hlen.trans_le hb) hr,
      exec_decw_decodeRun hokt hp hup huwl hur hw hfits⟩, ?_, ?_⟩
  · rw [hlen]
    exact (field_fits_iff_lt_wordCount hv w).2 hw
  · obtain ⟨-, -, -, -, hent⟩ := decodeRun_frame (s.appendChecksum n mask) u (wordCount (8 * n)) (wordCount (8 * n))
    rw [hent, sized_entlen_toNat (hup ▸ hp) hfits, hsize, Nat.add_sub_cancel]
  · rw [decodeRun_buf]
    refine ⟨fun a ha => ?_, ?_⟩
    · rw [read_packed_appendChecksum hv hm ha.le]
      exact (Memory.read_write ..).trans (if_neg ha.ne)
    · exact (read_packed_appendChecksum hv hm le_rfl).trans (appendChecksum_read_last s n mask)

end Sys2Proof.Machine
end

section
/-! PROOF. The host's stages (spec/30_encoding.md R102, spec/43_decoder.md R163): a loop of them run in a row, a command
line on an idle machine, and what a token leaves in the key. -/

namespace Sys2Proof.Machine

/-! ### Stages in a row -/

/-- A loop of stages, of which each keeps P from its number to the next and returns reads that f takes to g of its
number. -/
theorem runStages_range {α : Type} {f : List Word32 → α} {n : Nat} {P : Nat → State → Prop} {g : Nat → α}
    {stage : Nat → List Input}
    (hstage : ∀ w < n, ∀ s, P w s → ∃ t, serveAll s (stage w) = .next t ∧ t.err = false ∧ P (w + 1) t ∧
      f (readsSince s t) = g w)
    {s : State} (hs : P 0 s) :
    ∃ t ls, runStages s ((List.range n).map stage) = some (t, ls) ∧ P n t ∧ ls.map f = (List.range n).map g := by
  induction n generalizing s P g stage with
  | zero => exact ⟨s, [], rfl, hs, rfl⟩
  | succ n ih =>
    obtain ⟨t, ht, herr, hP, hread⟩ := hstage 0 n.succ_pos s hs
    obtain ⟨u, ls, hrun, hu, hls⟩ := ih (P := fun w => P (w + 1)) (g := fun w => g (w + 1))
      (stage := fun w => stage (w + 1)) (fun w hw => hstage (w + 1) (Nat.succ_lt_succ hw)) hP
    rw [List.range_succ_eq_map, List.map_cons, List.map_cons, List.map_map, List.map_map, runStages_cons ht herr]
    refine ⟨u, readsSince s t :: ls, ?_, hu, ?_⟩
    · exact congrArg (Option.map _) hrun
    · rw [List.map_cons, hread, hls]
      rfl

/-- A loop of stages that keep P, of which one cannot complete without an error, returns nothing. -/
theorem runStages_eq_none {P : State → Prop} {ls : List (List Input)}
    (hkeep : ∀ l ∈ ls, ∀ s, P s → ∃ t, serveAll s l = .next t ∧ (t.err = false → P t))
    {l : List Input} (hl : l ∈ ls) (hfail : ∀ s, P s → ∃ t, serveAll s l = .next t ∧ t.err = true)
    {s : State} (hs : P s) : runStages s ls = none := by
  induction ls generalizing s with
  | nil => exact absurd hl List.not_mem_nil
  | cons l' ls ih =>
    obtain ⟨t, ht, hP⟩ := hkeep l' List.mem_cons_self s hs
    cases herr : t.err with
    | true => exact runStages_cons_err ht herr ls
    | false =>
      have hl' : l ∈ ls := by
        refine (List.mem_cons.1 hl).resolve_left fun he => ?_
        obtain ⟨u, hu, huerr⟩ := hfail s hs
        rw [he, ht] at hu
        cases hu
        exact Bool.noConfusion (herr.symm.trans huerr)
      rw [runStages_cons ht herr, ih (fun x hx => hkeep x (List.mem_cons_of_mem _ hx)) hl' (hP herr), Option.map_none]

/-! ### An idle machine -/

/-- A machine on which the host can run the next stage of a procedure. -/
structure State.Idle (s : State) : Prop where
  rst : s.rst = false
  busy : s.busy = false
  err : s.err = false
  params : s.params.wf
  win : s.win.length = s.params.wmax
  words : s.WordListOk

/-- A command line on an idle machine, up to the record of the polls. -/
theorem State.Idle.serveAll_commandLine {s t : State} {i : Instr} (h : s.Idle) (hwf : i.wellFormed = true)
    (hx : exec i (s.accept (encode i)) = .next t) (polls : Nat) :
    ∃ vs, serveAll s (commandLine polls i) = .next (t.complete.pushReads vs) :=
  ⟨_ :: _, Machine.serveAll_commandLine h.rst h.busy h.err hwf hx polls⟩

/-- After a command without an error the machine is idle again. -/
theorem State.Idle.completed {s t : State} {i : Instr} (h : s.Idle) {c : Word32}
    (hx : exec i (s.accept c) = .next t) (herr : t.err = false) (vs : List Word32) :
    (t.complete.pushReads vs).Idle := by
  obtain ⟨hparams, hwl, -, hrst, -, -, -, hwin, -⟩ := exec_keeps hx
  exact
    { rst := hrst.trans h.rst
      busy := rfl
      err := herr
      params := hparams ▸ h.params
      win := (congrArg List.length hwin).trans (h.win.trans (congrArg Params.wmax hparams).symm)
      words := h.words.of_same hparams hwl }

/-! ### A token as the key -/

/-- WKEY has put the token in the key window. -/
def State.presentToken (s : State) (token : WlWord) : State :=
  { s with
    win := keyWritten s.params.wmax s.win token ((min token.length 64 + 3) / 4)
    winlen := (BitVec.ofNat 32 (min token.length 127)).extractLsb' 0 7 }

section
variable {s : State} (h : s.Idle)
include h

theorem State.Idle.presentToken (token : WlWord) : (s.presentToken token).Idle :=
  ⟨h.rst, h.busy, h.err, h.params, (keyWritten_length ..).trans h.win, h.words.of_same rfl rfl⟩

theorem keyIndex_presentToken_of_word {i : Index} {word : WlWord} (hget : s.wl[i.toNat]? = some word) :
    keyIndex (s.presentToken word) = some i := by
  obtain ⟨-, hfits⟩ := h.words.fits word (List.mem_of_getElem? hget)
  have hmax := h.params.2.2.2
  refine keyIndex_of_word (h.presentToken word).words hget ?_ (keyWritten_take h.win (by omega) hfits)
  exact (keyLength_toNat _).trans (by omega)

/-- A token that is no word leaves no index: its length is no key's, or the CAM misses it. -/
theorem keyIndex_presentToken_of_notMem {token : WlWord} (hn : token ∉ s.wl) :
    keyIndex (s.presentToken token) = none := by
  have hmax := h.params.2.2.2
  have hlen : (s.presentToken token).winlen.toNat = min token.length 127 := keyLength_toNat _
  by_cases hkey : 1 ≤ token.length ∧ token.length ≤ s.params.wmax
  · have htok : (s.presentToken token).winlen.toNat = token.length := hlen.trans (by omega)
    have htake : (s.presentToken token).win.take token.length = token := keyWritten_take h.win (by omega) hkey.2
    rw [keyIndex_of_length (htok ▸ hkey.1) (htok ▸ hkey.2), htok, htake]
    exact camIndex_of_notMem hn
  · refine keyIndex_of_badLength ?_
    rw [hlen]
    show _ ∨ s.params.wmax < _
    omega

end

/-! ### A number that its field cuts off -/

theorem ofNat_mod_two_pow (k n : Nat) : BitVec.ofNat k (n % 2 ^ k) = BitVec.ofNat k n := BitVec.eq_of_toNat_eq (by simp)

/-- A command line of a number of words that N does not hold is that of its low sixteen bits. -/
theorem commandLine_decsetup_mod (polls n : Nat) :
    commandLine polls (.decsetup (n % 2 ^ 16)) = commandLine polls (.decsetup n) := by
  simp only [commandLine, encode, formatL, ofNat_mod_two_pow]

/-- A command line of a position that WPOS does not hold is that of its low eight bits. -/
theorem commandLine_decw_mod (polls w : Nat) :
    commandLine polls (.decw (w % 2 ^ 8)) = commandLine polls (.decw w) := by
  simp only [commandLine, encode, formatW, ofNat_mod_two_pow]

end Sys2Proof.Machine
end

section
/-! PROOF. The decode procedure (spec/43_decoder.md R163): DECSETUP sizes the machine, a DECW's stage writes the index of
its word or stops at a token that has none, and the read-out returns the bytes. -/

namespace Sys2Proof.Machine

/-! ### The stages of a decode -/

/-- The host's stage for one word: its WKEY and a DECW (R163, step 3). -/
def decwStage (polls w : Nat) (token : WlWord) : List Input := wkey token ++ commandLine polls (.decw w)

theorem decodeStages_eq (polls : Nat) (ws : List WlWord) :
    decodeStages polls ws = commandLine polls (.decsetup ws.length) ::
      (List.range ws.length).map fun w => decwStage polls w (ws.getD w []) := rfl

/-- t is s after DECSETUP k and perhaps some of its DECWs without an error: idle, and sized for k words. -/
structure DecodingFrom (s : State) (k : Nat) (t : State) : Prop where
  idle : t.Idle
  same : s.SameInstance t
  len : t.len.toNat = dataSize k
  entlen : t.entlen.toNat = dataSize k - 1

theorem exec_decw_keepsCounts {s t : State} {w : Nat} (h : exec (.decw w) s = .next t) :
    t.len = s.len ∧ t.entlen = s.entlen := by
  rcases execDecw_next h with ⟨-, -, -, key, i, -, -, rfl⟩ | ⟨-, -, rfl⟩ | ⟨-, -, -, rfl⟩ | ⟨-, rfl⟩ <;>
    exact ⟨rfl, rfl⟩

section
variable {s u : State} {k : Nat} (hb : dataSize k ≤ s.params.bufBytes)
include hb

/-- DECSETUP sizes the machine, with an empty buffer. -/
theorem serveAll_decsetup (h : s.Idle) (hk : k ≠ 0) (polls : Nat) :
    ∃ t, serveAll s (commandLine polls (.decsetup k)) = .next t ∧ DecodingFrom s k t ∧ t.buf = [] := by
  have hlt : k < 2 ^ 16 := by
    have hle := le_dataSize k
    have hmax := h.params.2.1
    omega
  have hx : exec (.decsetup k) (s.accept (encode (.decsetup k))) = .next ((s.accept _).sized k) :=
    exec_decsetup_of_fits hk hb
  obtain ⟨vs, hserved⟩ := h.serveAll_commandLine (i := .decsetup k) (decide_eq_true hlt) hx polls
  exact ⟨_, hserved, ⟨h.completed hx h.err vs, ⟨rfl, rfl, rfl⟩, sized_len_toNat h.params hb,
    sized_entlen_toNat h.params hb⟩, rfl⟩

/-- The stage of a word executes DECW with the token in the key window. -/
theorem DecodingFrom.serveAll_decwStage (hd : DecodingFrom s k u) (polls w : Nat) (token : WlWord) :
    ∃ t vs, exec (.decw (w % 2 ^ 8)) ((u.presentToken token).accept (encode (.decw (w % 2 ^ 8)))) = .next t ∧
      serveAll u (decwStage polls w token) = .next (t.complete.pushReads vs) := by
  have hidle := hd.idle.presentToken token
  obtain ⟨hparams, -, -⟩ := hd.same
  have hlen : u.len.toNat ≤ u.params.bufBytes := by rw [hd.len, hparams]; exact hb
  obtain ⟨t, hx⟩ := exec_total (.decw (w % 2 ^ 8)) ((u.presentToken token).accept _) hlen hidle.params
    fun _ => hidle.words.of_same rfl rfl
  obtain ⟨vs, hserved⟩ := hidle.serveAll_commandLine (i := .decw (w % 2 ^ 8))
    (decide_eq_true (Nat.mod_lt w (by decide))) hx polls
  refine ⟨t, vs, hx, ?_⟩
  rw [decwStage, serveAll_append (serveAll_wkey hd.idle.rst hd.idle.busy token), ← commandLine_decw_mod]
  exact hserved

omit hb in
theorem DecodingFrom.completed (hd : DecodingFrom s k u) {t : State} {token : WlWord} {w : Nat} {c : Word32}
    (hx : exec (.decw w) ((u.presentToken token).accept c) = .next t) (herr : t.err = false) (vs : List Word32) :
    DecodingFrom s k (t.complete.pushReads vs) := by
  obtain ⟨hparams, hwl, hready⟩ := hd.same
  obtain ⟨hparams', hwl', hready'⟩ := exec_sameInstance hx
  obtain ⟨hlen, hent⟩ := exec_decw_keepsCounts hx
  exact ⟨(hd.idle.presentToken token).completed hx herr vs,
    ⟨hparams'.trans hparams, hwl'.trans hwl, hready'.trans hready⟩,
    (congrArg BitVec.toNat hlen).trans hd.len, (congrArg BitVec.toNat hent).trans hd.entlen⟩

/-- The stage of the word of index i ORs i into its field. -/
theorem DecodingFrom.serveAll_decwStage_of_word (hd : DecodingFrom s k u) (hr : s.wlReady = true) (polls : Nat)
    {w : Nat} (hw : w < k) {i : Index} {word : WlWord} (hget : s.wl[i.toNat]? = some word) :
    ∃ t, serveAll u (decwStage polls w word) = .next t ∧ t.err = false ∧ DecodingFrom s k t ∧
      t.buf = writeIndex u.buf w i := by
  obtain ⟨hparams, hwl, hready⟩ := hd.same
  have hw8 : w % 2 ^ 8 = w := by
    have hle := le_dataSize k
    have hmax := hd.idle.params.2.1
    rw [hparams] at hmax
    omega
  obtain ⟨t, vs, hx, hserved⟩ := hd.serveAll_decwStage hb polls w word
  rw [hw8] at hx
  have hkey : keyIndex (u.presentToken word) = some i := keyIndex_presentToken_of_word hd.idle (hwl ▸ hget)
  have hbound : 11 * w + 11 ≤ 8 * u.len.toNat := by rw [hd.len]; exact (field_fits_dataSize_iff k w).2 hw
  have hlen : u.len.toNat ≤ u.params.bufBytes := by rw [hd.len, hparams]; exact hb
  have hexec := hx.symm.trans (exec_decw_of_inBounds (s := (u.presentToken word).accept (encode (.decw w)))
    (hready.trans hr) hkey hbound hlen)
  have ht := next_inj.1 hexec
  subst ht
  exact ⟨_, hserved, hd.idle.err, hd.completed hx hd.idle.err vs, rfl⟩

/-- The stage of a token that is no word leaves ERR = 1, at either level of WL_READY. -/
theorem DecodingFrom.serveAll_decwStage_of_notMem (hd : DecodingFrom s k u) (polls w : Nat) {token : WlWord}
    (hn : token ∉ s.wl) : ∃ t, serveAll u (decwStage polls w token) = .next t ∧ t.err = true := by
  obtain ⟨-, hwl, -⟩ := hd.same
  obtain ⟨t, vs, hx, hserved⟩ := hd.serveAll_decwStage hb polls w token
  have hkey : keyIndex (u.presentToken token) = none := keyIndex_presentToken_of_notMem hd.idle (hwl ▸ hn)
  obtain ⟨e, he⟩ : ∃ e, exec (.decw (w % 2 ^ 8)) ((u.presentToken token).accept (encode (.decw (w % 2 ^ 8)))) =
      raise ((u.presentToken token).accept (encode (.decw (w % 2 ^ 8)))) e := by
    cases hr : u.wlReady with
    | false => exact ⟨_, exec_decw_of_notReady hr⟩
    | true => exact ⟨_, exec_decw_of_unknown hr hkey⟩
  have ht := raise_next.1 (he.symm.trans hx)
  exact ⟨_, hserved, by rw [ht]; rfl⟩

end

/-! ### The read-out -/

theorem serve_read_result {s : State} (hr : s.rst = false) (hb : s.busy = false) :
    serve s (hostR 0x08) = .next (s.pushRead s.result) := by
  rw [hostR, serve_host (a := .read 32 0x08) hr rfl]
  exact congrArg _ (if_neg (by simp [hb]))

/-- The byte that the host takes from the reads of an RDBYTE stage: the last read, of RESULT (R163, step 4). -/
def lastByte (l : List Word32) : Byte := (l.getLastD 0).setWidth 8

/-- The machine after the stage of an RDBYTE a whose reads before the last, of RESULT, returned vs. -/
def State.afterRdbyte (u : State) (a : Nat) (vs : List Word32) : State :=
  ((u.accept (encode (.rdbyte a))).putResult ((u.buf.read a).setWidth 32)).complete.pushReads
    ((u.buf.read a).setWidth 32 :: vs)

theorem lastByte_afterRdbyte (u : State) (a : Nat) (vs : List Word32) :
    lastByte (readsSince u (u.afterRdbyte a vs)) = u.buf.read a := by
  rw [readsSince_of_append (l := (u.buf.read a).setWidth 32 :: vs) rfl]
  simp [lastByte]

theorem State.Idle.serveAll_rdbyteStage {u : State} (h : u.Idle) (polls : Nat) {a : Nat} (ha : a < u.len.toNat)
    (hl : u.len.toNat ≤ u.params.bufBytes) :
    ∃ vs, serveAll u (commandLine polls (.rdbyte a) ++ [hostR 0x08]) = .next (u.afterRdbyte a vs) ∧
      (u.afterRdbyte a vs).Idle := by
  have hwf : (Instr.rdbyte a).wellFormed = true := decide_eq_true (by have := h.params.2.1; omega)
  have hx := exec_rdbyte_of_inBounds (s := u.accept (encode (.rdbyte a))) ha hl
  obtain ⟨vs, hserved⟩ := h.serveAll_commandLine hwf hx polls
  have hidle := h.completed hx h.err vs
  refine ⟨vs, (serveAll_append hserved _).trans ?_, h.completed hx h.err _⟩
  exact serveAll_cons (serve_read_result hidle.rst hidle.busy) []

/-- The stage of an RDBYTE leaves BUF alone and returns its byte last. -/
theorem DecodingFrom.serveAll_rdbyteStage {s u : State} {k : Nat} (hb : dataSize k ≤ s.params.bufBytes)
    (hd : DecodingFrom s k u) (polls : Nat) {a : Nat} (ha : a < dataSize k - 1) :
    ∃ t, serveAll u (commandLine polls (.rdbyte a) ++ [hostR 0x08]) = .next t ∧ t.err = false ∧
      (DecodingFrom s k t ∧ t.buf = u.buf) ∧ lastByte (readsSince u t) = u.buf.read a := by
  obtain ⟨hidle, ⟨hparams, hwl, hready⟩, hlen, hent⟩ := hd
  obtain ⟨vs, hserved, hidle'⟩ := hidle.serveAll_rdbyteStage polls (a := a) (by omega) (by rw [hlen, hparams]; exact hb)
  exact ⟨_, hserved, hidle'.err, ⟨⟨hidle', ⟨hparams, hwl, hready⟩, hlen, hent⟩, rfl⟩, lastByte_afterRdbyte u a vs⟩

/-! ### The procedure -/

theorem getElem?_wl_of_indices {wl : List WlWord} {ws : List WlWord} {idx : List Index}
    (h : idx.map (fun i => wl[i.toNat]?) = ws.map some) {w : Nat} (hw : w < ws.length) :
    wl[(idx.getD w 0).toNat]? = some (ws.getD w []) := by
  have hlen : idx.length = ws.length := by simpa using congrArg List.length h
  have hget := congrArg (·[w]?) h
  simpa [hw, hlen] using hget

/-- The stages of the words of the indices idx fill the buffer with these indices. -/
theorem DecodingFrom.runStages_decwStages {s t : State} {ws : List WlWord} {idx : List Index}
    (hb : dataSize ws.length ≤ s.params.bufBytes) (hr : s.wlReady = true)
    (hidx : idx.map (fun i => s.wl[i.toNat]?) = ws.map some) (hd : DecodingFrom s ws.length t) (hbuf : t.buf = [])
    (polls : Nat) :
    ∃ u ls, runStages t ((List.range ws.length).map fun w => decwStage polls w (ws.getD w [])) = some (u, ls) ∧
      DecodingFrom s ws.length u ∧ u.buf = packed (idx.getD · 0) ws.length := by
  obtain ⟨u, ls, hrun, hu, -⟩ := runStages_range (f := fun _ => ()) (g := fun _ => ()) (s := t)
    (P := fun w t => DecodingFrom s ws.length t ∧ t.buf = packed (idx.getD · 0) w)
    (stage := fun w => decwStage polls w (ws.getD w [])) (fun w hw v ⟨hdv, hbufv⟩ => by
      have hget := getElem?_wl_of_indices hidx hw
      obtain ⟨x, hx, herr, hdx, hbufx⟩ := hdv.serveAll_decwStage_of_word hb hr polls hw hget
      exact ⟨x, hx, herr, ⟨hdx, by rw [hbufx, hbufv, packed]⟩, rfl⟩) ⟨hd, hbuf⟩
  exact ⟨u, ls, hrun, hu⟩

/-- The read-out returns all but the last byte of the sized buffer. -/
theorem DecodingFrom.runStages_readOutStages {s u : State} {k : Nat} (hb : dataSize k ≤ s.params.bufBytes)
    (hd : DecodingFrom s k u) (polls : Nat) :
    ∃ v ls, runStages u (readOutStages polls u.entlen.toNat) = some (v, ls) ∧
      ls.map lastByte = (List.range (dataSize k - 1)).map u.buf.read := by
  rw [hd.entlen]
  obtain ⟨v, ls, hrun, -, hbytes⟩ := runStages_range (f := lastByte) (g := u.buf.read) (s := u)
    (P := fun _ t => DecodingFrom s k t ∧ t.buf = u.buf)
    (stage := fun a => commandLine polls (.rdbyte a) ++ [hostR 0x08]) (fun a ha x ⟨hdx, hbufx⟩ => by
      rw [← hbufx]
      exact hdx.serveAll_rdbyteStage hb polls ha) ⟨hd, rfl⟩
  exact ⟨v, ls, hrun, hbytes⟩

/-- The procedure on the words of the indices idx returns the bytes of the buffer that these indices fill. -/
theorem decodeProcedure_of_words {s : State} (h : s.Idle) (polls : Nat) {ws : List WlWord} {idx : List Index}
    (hr : s.wlReady = true) (hne : ws ≠ []) (hb : dataSize ws.length ≤ s.params.bufBytes)
    (hidx : idx.map (fun i => s.wl[i.toNat]?) = ws.map some) :
    decodeProcedure polls ws s =
      some ((List.range (dataSize ws.length - 1)).map (packed (idx.getD · 0) ws.length).read) := by
  obtain ⟨t, ht, hd, hbuf⟩ := serveAll_decsetup hb h (mt List.length_eq_zero_iff.1 hne) polls
  obtain ⟨u, ls, hrun, hdu, hbufu⟩ := hd.runStages_decwStages hb hr hidx hbuf polls
  obtain ⟨v, out, hout, hbytes⟩ := hdu.runStages_readOutStages hb polls
  rw [decodeProcedure, decodeStages_eq, runStages_cons ht hd.idle.err, hrun, Option.map_some, Option.bind_some, hout,
    Option.map_some, ← hbufu, ← hbytes]
  rfl

/-- The procedure on tokens of which one is no word stops: at DECSETUP, or at the latest at that token. -/
theorem decodeProcedure_of_notMem {s : State} (h : s.Idle) (polls : Nat) {ws : List WlWord} {token : WlWord}
    (hmem : token ∈ ws) (hn : token ∉ s.wl) : decodeProcedure polls ws s = none := by
  suffices hnone : runStages s (decodeStages polls ws) = none by rw [decodeProcedure, hnone, Option.bind_none]
  rw [decodeStages_eq, ← commandLine_decsetup_mod]
  by_cases hbad : ws.length % 2 ^ 16 = 0 ∨ s.params.bufBytes < dataSize (ws.length % 2 ^ 16)
  · obtain ⟨vs, hserved⟩ := h.serveAll_commandLine (i := .decsetup (ws.length % 2 ^ 16))
      (decide_eq_true (Nat.mod_lt _ (by decide))) (exec_decsetup_of_badCount (s := s.accept _) hbad) polls
    exact runStages_cons_err hserved rfl _
  · rw [not_or, not_lt] at hbad
    obtain ⟨hpos, hb⟩ := hbad
    obtain ⟨t, ht, hd, -⟩ := serveAll_decsetup hb h hpos polls
    obtain ⟨j, hj, rfl⟩ := List.getElem_of_mem hmem
    have hgetD : ws.getD j [] = ws[j] := List.getD_eq_getElem _ _ hj
    rw [runStages_cons ht hd.idle.err, runStages_eq_none (P := DecodingFrom s (ws.length % 2 ^ 16))
      (l := decwStage polls j (ws.getD j [])) ?_ (List.mem_map.2 ⟨j, List.mem_range.2 hj, rfl⟩) ?_ hd, Option.map_none]
    · intro l hl u hu
      obtain ⟨w, -, rfl⟩ := List.mem_map.1 hl
      obtain ⟨x, vs, hx, hserved⟩ := hu.serveAll_decwStage hb polls w (ws.getD w [])
      exact ⟨_, hserved, fun herr => hu.completed hx herr vs⟩
    · intro u hu
      rw [hgetD]
      exact hu.serveAll_decwStage_of_notMem hb polls j hn

/-- Settles O60: the buffer that the indices fill has their bits, of which all but the last byte is read out; and one
token that is no word stops the procedure. -/
theorem decodeProcedureReturnsTheEntropy : Obligations.DecodeProcedureReturnsTheEntropy := by
  intro s polls ws hrst hbusy herr hp hwin hok
  have hidle : s.Idle := ⟨hrst, hbusy, herr, hp, hwin, hok⟩
  refine ⟨fun idx hr hne hb hidx => ?_, fun ⟨token, hmem, hn⟩ => decodeProcedure_of_notMem hidle polls hmem hn⟩
  refine ⟨_, decodeProcedure_of_words hidle polls hr hne hb hidx, by simp [dataSize], fun p hp => ?_⟩
  rw [List.length_map, List.length_range] at hp
  have hbits : p < 11 * ws.length := by unfold dataSize at hp; omega
  rw [List.getD_eq_getElem _ _ (by simp; omega), List.getElem_map, List.getElem_range, ← bitAt_def, bitAt_packed,
    decide_eq_true hbits, Bool.true_and]

end Sys2Proof.Machine
end

section
/-! PROOF. The control commands NOP and CLRERR (spec/44_control.md), by the two branches of the engine step: a word that
ERR blocks, and a legal word that runs (R200, R204). -/

namespace Sys2Proof.Machine

/-- While ERR = 1 a word other than CLRERR's is discarded (R204). -/
theorem engineStep_of_blocked {s : State} (herr : s.err = true) (hp : s.pend ≠ clrerrWord) :
    engineStep s = .next s.complete :=
  if_pos (by simp [herr, hp])

/-- A legal word that ERR does not block runs as its command, then BUSY goes to 0 (R200). -/
theorem engineStep_of_legal {s : State} {i : Instr} (hrun : s.err = false ∨ s.pend = clrerrWord)
    (hd : decode s.pend = .ok i) : engineStep s = finish (exec i s) := by
  have hword : executeWord s.pend s = exec i s := by rw [executeWord, hd]
  rw [← hword]
  exact if_neg (by rcases hrun with h | h <;> simp [h])

theorem exec_nop (s : State) : exec .nop s = .next s := rfl

theorem exec_clrerr (s : State) : exec .clrerr s = .next s.clearError := rfl

/-- Settles O14: with ERR = 1 NOP's word is discarded and with ERR = 0 it runs, and either way only BUSY changes. -/
theorem nopChangesNothing : Obligations.NopChangesNothing := by
  refine fun s => ⟨exec_nop s, fun hp => ?_⟩
  by_cases herr : s.err = true
  · exact engineStep_of_blocked herr (by rw [hp]; decide)
  · have hd : decode s.pend = .ok .nop := by rw [hp]; decide
    rw [engineStep_of_legal (.inl (Bool.eq_false_of_not_eq_true herr)) hd, exec_nop]
    rfl

/-- Settles O15: CLRERR's word is never blocked, so it runs and the record and OVR are cleared. -/
theorem clrerrClearsTheRecordAndOverrun : Obligations.ClrerrClearsTheRecordAndOverrun := by
  refine fun s => ⟨exec_clrerr s, fun hp => ?_⟩
  have hd : decode s.pend = .ok .clrerr := hp ▸ decode_clrerrWord
  rw [engineStep_of_legal (.inr hp) hd, exec_clrerr]
  rfl

end Sys2Proof.Machine
end

section
/-! PROOF. The exceptions (spec/60_exceptions.md): the errors of each command (R203, R205, R217), and the step that
completes the command in flight (R200, R202, R204). -/

namespace Sys2Proof.Machine

/-! ### The errors of a command -/

/-- The errors in a command's row of R205. INTERNAL_CONSISTENCY is in none (R217). -/
def raisable : Instr → List ErrCode
  | .nop | .clrerr => []
  | .clr _ | .bitat _ | .setbit _ | .rdidx _ | .wridx _ _ | .rdbyte _ | .wrbyte _ _ => [.bounds]
  | .encsetup _ => [.invalidEntropyLength, .digestUnavailable]
  | .encw _ => [.bounds, .wlNotReady]
  | .decsetup _ => [.badWordCount]
  | .decw _ => [.wlNotReady, .unknownWord, .bounds]

/-- With ERR = 0 a command either leaves ERR at 0 or records an error of its row, and only that (R203). -/
theorem exec_noError_or_recordError {i : Instr} {s t : State} (hs : s.err = false) (h : exec i s = .next t) :
    t.err = false ∨ ∃ e ∈ raisable i, t = s.recordError e := by
  cases i with
  | nop => exact .inl (execNop_next h ▸ hs)
  | clrerr => exact .inl (execClrerr_next h ▸ rfl)
  | clr => exact (execClr_next h).imp (fun ⟨_, ht⟩ => ht ▸ hs) fun ⟨_, ht⟩ => ⟨_, .head _, ht⟩
  | bitat => exact (execBitat_next h).imp (fun ⟨_, _, ht⟩ => ht ▸ hs) fun ⟨_, ht⟩ => ⟨_, .head _, ht⟩
  | setbit => exact (execSetbit_next h).imp (fun ⟨_, _, ht⟩ => ht ▸ hs) fun ⟨_, ht⟩ => ⟨_, .head _, ht⟩
  | rdidx => exact (execRdidx_next h).imp (fun ⟨_, _, ht⟩ => ht ▸ hs) fun ⟨_, ht⟩ => ⟨_, .head _, ht⟩
  | wridx => exact (execWridx_next h).imp (fun ⟨_, _, ht⟩ => ht ▸ hs) fun ⟨_, ht⟩ => ⟨_, .head _, ht⟩
  | rdbyte => exact (execRdbyte_next h).imp (fun ⟨_, _, ht⟩ => ht ▸ hs) fun ⟨_, ht⟩ => ⟨_, .head _, ht⟩
  | wrbyte => exact (execWrbyte_next h).imp (fun ⟨_, _, ht⟩ => ht ▸ hs) fun ⟨_, ht⟩ => ⟨_, .head _, ht⟩
  | decsetup => exact (execDecsetup_next h).imp (fun ⟨_, _, ht⟩ => ht ▸ hs) fun ⟨_, ht⟩ => ⟨_, .head _, ht⟩
  | encsetup =>
    rcases execEncsetup_next h with ⟨-, -, -, _, -, rfl⟩ | ⟨-, -, ht⟩ | ⟨-, ht⟩
    · exact .inl hs
    · exact .inr ⟨.digestUnavailable, by simp [raisable], ht⟩
    · exact .inr ⟨.invalidEntropyLength, by simp [raisable], ht⟩
  | encw =>
    rcases execEncw_next h with ⟨-, -, -, _, -, rfl⟩ | ⟨-, -, ht⟩ | ⟨-, ht⟩
    · exact .inl hs
    · exact .inr ⟨.wlNotReady, by simp [raisable], ht⟩
    · exact .inr ⟨.bounds, by simp [raisable], ht⟩
  | decw =>
    rcases execDecw_next h with ⟨-, -, -, _, _, -, -, rfl⟩ | ⟨-, -, ht⟩ | ⟨-, -, -, ht⟩ | ⟨-, ht⟩
    · exact .inl hs
    · exact .inr ⟨.unknownWord, by simp [raisable], ht⟩
    · exact .inr ⟨.bounds, by simp [raisable], ht⟩
    · exact .inr ⟨.wlNotReady, by simp [raisable], ht⟩

/-- Settles O12: a newly set ERR rules out the success, so the command recorded an error of its row, whose code R201
numbers. -/
theorem failingCommandChangesOnlyTheRecord : Obligations.FailingCommandChangesOnlyTheRecord := by
  intro i s t hs h ht
  obtain ⟨e, he, rfl⟩ := (exec_noError_or_recordError hs h).resolve_left (by simp [ht])
  have hcode : e.code ∈ (raisable i).map ErrCode.code := List.mem_map_of_mem he
  refine ⟨rfl, ?_⟩
  cases i <;> exact hcode

/-- Settles O33: the first ENCSETUP left DVALID = 0, and the second has a valid length. -/
theorem secondEncsetupNeedsANewDigest : Obligations.SecondEncsetupNeedsANewDigest := by
  intro s t n m h ht hm
  obtain ⟨-, -, -, mask, -, rfl⟩ := exec_encsetup_next_of_noError h ht
  exact exec_encsetup_of_noDigest (entropyLengthValid_iff_mem.2 hm) rfl

/-! ### The engine step -/

/-- Settles O10: both reasons of illegality end in the one raise of an illegal word. -/
theorem illegalWordOnlyRecordsTheError : Obligations.IllegalWordOnlyRecordsTheError :=
  fun _ _ herr hd => engineStep_of_illegal herr hd

/-- Settles O11: every word but CLRERR's is blocked, and CLRERR's executes whatever ERR is (O15). -/
theorem blockedCommandIsDiscarded : Obligations.BlockedCommandIsDiscarded :=
  fun s herr => ⟨engineStep_of_blocked herr, (clrerrClearsTheRecordAndOverrun s).2⟩

/-- Settles O8: the step is the engine's, and the word is neither blocked nor illegal. -/
theorem stepRunsTheDecodedCommand : Obligations.StepRunsTheDecodedCommand := by
  intro s rest i hn hr hrun hd
  exact (step_eq_engineStep hn hr).trans (engineStep_of_legal (s := s.withInputs rest) hrun hd)

theorem decode_of_decodeTableWord {w : Nat} {i : Instr} (h : decodeTableWord 32 w = some i) :
    decode (tableWord 32 w) = .ok i := by
  rw [decodeTableWord, if_pos (Nat.le_refl 32)] at h
  cases hd : decode (tableWord 32 w) with
  | ok j => rw [hd] at h; exact congrArg _ (Option.some.inj h)
  | error e => rw [hd] at h; cases h

/-- Settles O9: the placed word is in flight with the engine next, and after its turn the list is the one before. -/
theorem fetchWordRunsNext : Obligations.FetchWordRunsNext := by
  intro s w i herr hd
  have hw : tableWord 32 w = BitVec.ofNat 32 w := ofNat_mod_two_pow 32 w
  rw [← hw]
  exact stepRunsTheDecodedCommand (s.withFetchWord 32 w) s.inputs i (.inl rfl) ⟨rfl, rfl⟩ (.inl herr)
    (decode_of_decodeTableWord hd)

theorem step_of_runOver {s : State} (h : s.runOver) : step s = .next s := by
  obtain ⟨hin, hb⟩ := h
  simp [step, hin, engineTurn, hb]

/-- Settles O13: the step is the engine's, which completes any command under the invariant and R71; with nothing in
flight the engine idles. -/
theorem engineCompletesThenIdles : Obligations.EngineCompletesThenIdles := by
  refine ⟨fun s rest => step_eq_engineStep, fun s rest hi hw hn hr => ?_, fun s => step_of_runOver⟩
  rw [step_eq_engineStep hn hr]
  exact engineStep_total _ (hi.withInputs rest) (wordListOk_withInputs hw rest)

end Sys2Proof.Machine
end

section
/-! PROOF. The reset of the engine elements (spec/70_reset_and_hazards.md R230, spec/10_state.md R54): the levels of RST
that reset, and the state they leave. -/

namespace Sys2Proof.Machine

/-- Driving RST high, or releasing it, resets; only low on low is no event. -/
theorem driveRst_of_reset {s : State} {level : Bool} (h : level = true ∨ s.rst = true) :
    driveRst s level = s.underReset level :=
  if_pos (by simpa [or_comm] using h)

/-- Settles O45: the step drives RST, which is a reset, and BUF is then the memory that lists no byte. -/
theorem resetPutsEveryElementAtItsValue : Obligations.ResetPutsEveryElementAtItsValue := by
  intro s level rest hi hlevel
  have hreset : driveRst (s.withInputs rest) level = (s.withInputs rest).underReset level :=
    driveRst_of_reset hlevel
  exact ⟨_, hreset ▸ step_rst hi, rfl, Memory.read_nil⟩

end Sys2Proof.Machine
end
